-- ==== Sys2Proof/Word.lean ====
section
/-! DEFINITION. The words of the ENGINE: bytes, half words, 32-bit words, handles and core ids (R10, R80, R81). -/

namespace Sys2Proof

/-- One byte of a memory object or of a packet. -/
abbrev Byte := BitVec 8

/-- A 16-bit operand, register or offset (R10, R81). -/
abbrev Half := BitVec 16

/-- A 32-bit command word, data register, ring frame or descriptor word (R45, R81, R89). -/
abbrev Word := BitVec 32

/-- A scanline buffer handle or a pair handle: 8 bits (R10). -/
abbrev Handle := BitVec 8

/-- The id of a processor core, 0 or 1: `NCORES` is 2 (R9, R80, R274). -/
abbrev CoreId := Fin 2

end Sys2Proof
end

