-- ==== Sys2Proof/Config.lean ====
section
/-! DEFINITION. What an implementation fixes (R9) and the values the spec leaves free. -/

namespace Sys2Proof

/-- A timing table, one entry of `ModeTable` (R24). -/
structure TimingTable where
  vFrontPorch    : Half
  vSyncWidth     : Half
  vBackPorch     : Half
  vActiveLines   : Half
  hFrontPorch    : Half
  hSyncWidth     : Half
  hBackPorch     : Half
  hActivePixels  : Half
  hSyncPolarity  : Bool
  vSyncPolarity  : Bool
  pixelClockHz   : Word
  deriving DecidableEq, Repr, Inhabited

/-- One entry of `ModeTable`: a mode id and its timing table (R9). -/
structure Mode where
  id    : Byte
  table : TimingTable
  deriving DecidableEq, Repr, Inhabited

/-- One row of `NTable`: a sample-rate code, its rate in Hz and the protocol constant N (R182). -/
structure RateRow where
  code     : Half
  rate     : Nat
  constant : BitVec 20
  deriving DecidableEq, Repr, Inhabited

/-- The fixed fields of one descriptor of a template: the bus address of its constant source, the number of words, and
the constant symbol word found there (R89, R122). -/
structure Segment where
  src    : Word
  count  : Half
  symbol : Word
  deriving DecidableEq, Repr, Inhabited

/-- The parameter `Templates` for one timing table: the segments of template `t`, lane `l`, segment `s`, listed at index
`(t * L + l) * 4 + s`, and whether horizontal sync is asserted in the island segment, which fixes `hs_level_island` (R122,
R176). The form is the model's choice (log entry 14). -/
structure TemplateSet where
  table         : TimingTable
  segments      : List Segment
  hsyncInIsland : Bool
  deriving DecidableEq, Repr, Inhabited

/-- The parameter `ecc8` (R9, R194): the default algorithm of R194, or any other one, named by a number that
`Config.otherEcc` reads (log entry 13). -/
inductive EccCode where
  | bch
  | other (code : Nat)
  deriving DecidableEq, Repr, Inhabited

/-- The parameters of R9 that are plain data. A model takes each as an argument: they stand in `State`, and no step
changes them (log entry 1). -/
structure Params where
  /-- `N`, the scanline buffer pool size. -/
  n             : Nat
  /-- `M`, the pair pool size. -/
  m             : Nat
  /-- `C`, the ring capacity in frames. -/
  c             : Nat
  /-- `L`, the number of output lanes. -/
  l             : Nat
  /-- `BUF_BYTES` (R60). -/
  bufBytes      : Nat
  /-- `LANE_STRIDE` (R124). -/
  laneStride    : Nat
  /-- `ISL_STRIDE` (R124). -/
  islStride     : Nat
  /-- `ModeTable`. -/
  modes         : List Mode
  /-- `NTable`. -/
  rates         : List RateRow
  /-- `Templates`. -/
  templates     : List TemplateSet
  /-- `AVI_PB`, PB1 to PB13 (R196). -/
  aviPb         : List Byte
  /-- `AINFO_PB`, PB1 to PB10 (R197). -/
  ainfoPb       : List Byte
  /-- `CS_BITS` (R193). -/
  csBits        : BitVec 192
  /-- `ecc8`. -/
  ecc           : EccCode
  deriving DecidableEq, Repr, Inhabited

/-- A power of two with an exponent in `lo .. hi`. -/
def isPowerOfTwo (lo hi v : Nat) : Bool :=
  (List.range (hi + 1)).any fun e => lo ≤ e && v == 2 ^ e

/-- The counts of the four segments of each chain, in the order of `TemplateSet.segments`. -/
def chainSums : List Segment → List Nat
  | a :: b :: c :: d :: rest =>
      (a.count.toNat + b.count.toNat + c.count.toNat + d.count.toNat) :: chainSums rest
  | _ => []

/-- R122: five templates of `L` chains of four descriptors, each `COUNT` at least 1 (R89), every chain one line long. -/
def TemplateSet.wellShaped (lanes : Nat) (t : TemplateSet) : Bool :=
  t.segments.length == 5 * lanes * 4
    && t.segments.all (fun g => 1 ≤ g.count.toNat)
    && (chainSums t.segments).all (fun x => x == (chainSums t.segments).headD 0)

/-- The words a lane streams from memory stand inside what it reads (R61, R133), a relation of open parameters that is the
model's reading (log entry 26): the island segment of each chain inside the lane's `ISL_STRIDE` bytes of a stream, the
active segment of the `j`-th picture lane of `T_ACTIVE` inside `BUF[h]` from `j * LANE_STRIDE` on (R124). -/
def TemplateSet.fits (p : Params) (t : TemplateSet) : Bool :=
  let count (i : Nat) : Nat := ((t.segments[i]?).getD default).count.toNat
  (List.range (5 * p.l)).all (fun chain => 4 * count (4 * chain + 1) ≤ p.islStride)
    && (List.range (p.l - 1)).all (fun j => j * p.laneStride + 4 * count (4 * (j + 1) + 3) ≤ p.bufBytes)

/-- The legal values of the parameters (R9), with the alignment of R63, the accesses of R61, and one legal template
set for each timing table of `ModeTable`. -/
def Params.legal (p : Params) : Bool :=
  isPowerOfTwo 0 8 p.n
    && (1 ≤ p.m && p.m ≤ 256)
    && isPowerOfTwo 1 16 p.c
    && (p.l == 3 || p.l == 4)
    && p.bufBytes % 4 == 0 && p.laneStride % 4 == 0 && p.islStride % 4 == 0
    && p.rates.all (fun r => 1 ≤ r.rate)
    && p.templates.all (TemplateSet.wellShaped p.l) && p.templates.all (TemplateSet.fits p)
    && p.modes.all (fun md => p.templates.any fun t => t.table == md.table)
    && p.aviPb.length == 13 && p.ainfoPb.length == 10

/-- The memory objects of R60; a command names them by handle or not at all, never by an address. -/
inductive MemObj where
  | buf (h : Handle)
  | pair (p : Handle)
  | ring
  | tplmem
  | static
  deriving DecidableEq, Repr, Inhabited

/-- Whose step comes next in the one global order of steps (R69): a port's issuing agent, the LANES agent (whose TICK
the IRQ agent executes at once, R108), or the power-on reset from outside (R290). -/
inductive Turn where
  | control
  | producer
  | source
  | lanes
  | powerOn
  deriving DecidableEq, Repr, Inhabited

/-- `NCORES` (R9, R274). -/
def Config.ncores : Nat := 2

/-- `SYNC_LANE` (R9). -/
def Config.syncLane : Nat := 0

/-- The default of `NTable` (R182). Only the row of code 1 is in the spec's source (log entry 13). -/
def Config.defaultRates : List RateRow :=
  [⟨0, 32000, 4096⟩, ⟨1, 44100, 6272⟩, ⟨2, 48000, 6144⟩]

/-- The parameters the spec leaves open, as one uninterpreted constant: nothing is known of them (log entry 1). -/
opaque Config.openParams : Params

/-- A legal set of parameters, used by `Config.params` only if the open ones are not legal (log entry 1). -/
def Config.sampleParams : Params :=
  { n := 8, m := 4, c := 8, l := 3, bufBytes := 8, laneStride := 4, islStride := 4, modes := [],
    rates := Config.defaultRates, templates := [], aviPb := List.replicate 13 0, ainfoPb := List.replicate 10 0,
    csBits := 0, ecc := .bch }

/-- The parameters of the machine that comes out of power-on reset: any legal ones, with the default `NTable` and `ecc8`. -/
def Config.params : Params :=
  if ({ Config.openParams with rates := Config.defaultRates, ecc := .bch } : Params).legal then
    { Config.openParams with rates := Config.defaultRates, ecc := .bch }
  else Config.sampleParams

/-- `island_encode` (R12): packet bytes, vertical-sync level, horizontal-sync level; the stream is an opaque value, the
number whose little-endian bytes are the bytes of the stream in memory (log entry 10). -/
opaque Config.islandEncode : List Byte → Bool → Bool → Nat

/-- `ecc8` where it is not the default: a function for each number, nothing known of any (R9, R194; log entry 13). -/
opaque Config.otherEcc : Nat → List Byte → Byte

/-- `addr(obj, off)`: the bus address a descriptor's source field holds (R66). -/
opaque Config.addr : MemObj → Nat → Word

/-- Free value: the result of INIT's allocation when the platform's draw is not among the inputs (`alloc_ok`, R9). -/
opaque Config.allocOk : Nat → Bool

/-- Free value: the content of `TOKEN[h]` after the INIT with this draw number (R31, R234: unspecified). -/
opaque Config.freeToken : Nat → Nat → Half

/-- Free value: whose turn it is where no input says it (R69 fixes no order among the agents). -/
opaque Config.arbiter : Nat → Turn

end Sys2Proof
end

