-- ==== Sys2Proof/Syntax.lean ====
section
/-! DEFINITION. The commands of the ENGINE (R83), one constructor per row of the opcode table, and the
pseudo-instructions of R88. -/

namespace Sys2Proof

/-- The command ports (R80). -/
inductive PortId where
  | control
  | producer
  | source
  deriving DecidableEq, Repr, Inhabited

/-- Where a command word comes from: a port, or the LANES agent's internal event (R80, R83). -/
inductive Origin where
  | port (p : PortId)
  | lanes
  deriving DecidableEq, Repr, Inhabited

/-- The commands of R83. An operand is the `H` field (8 bits) or the `IMM` field (16 bits), unchanged (R82); data
operands are the port's registers `D0`..`D3` and are no part of the word. -/
inductive Instr where
  | init (mode : Byte)
  | registerIrq (core : Byte)
  | start
  | stop
  | destroy
  | writeCfg (index : Byte) (value : Half)
  | acquireFreeBuffer
  | fillBuffer (h : Handle)
  | submitValidBuffer (h : Handle) (token : Half)
  | acquireFreeAudioSlot
  | submitAudioSamples
  | setAudioEnabled (b : Byte)
  | ringPopAvailable
  | ringReadSlot (k : Half)
  | ringAdvanceRead (n : Half)
  | ringPush
  | ringWriteSize
  | ringWriteSlot (k : Half)
  | ringAdvanceWrite (n : Half)
  | readDiag (selector : Byte)
  | tick
  deriving DecidableEq, Repr, Inhabited

/-- The pseudo-instructions of R88. They have no encoding of their own. -/
inductive Pseudo where
  | audioOn
  | audioOff
  | rdLate
  | rdErr
  | rdFrame
  | rdAudio
  | setK (k : Half)
  | setBand (first count : Half)
  | setScanlines (b : Half)
  | setRate (code : Half)
  | putLine (token : Half) (content : Nat)
  | pop4Submit
  deriving DecidableEq, Repr, Inhabited

/-- One command of an expansion: the data registers where the expansion loads them (`none` leaves them as they are), and
the content payload where it has one. -/
structure PseudoCommand where
  instr   : Instr
  frames  : Option (Word × Word × Word × Word)
  content : Option Nat
  deriving DecidableEq, Repr, Inhabited

/-- A command of an expansion that loads no data. -/
def PseudoCommand.plain (i : Instr) : PseudoCommand :=
  { instr := i, frames := none, content := none }

/-- The expansion of a pseudo-instruction (R88). `res k` is the `RES_VALUE` of its command number `k`, from 0: `PUT_LINE` takes
its handle from the first; `POP4_SUBMIT` compares the first with 4 and loads those of its four reads into `D0`..`D3` of its
submit. -/
def Pseudo.expand (res : Nat → Word) : Pseudo → List PseudoCommand
  | .audioOn => [.plain (.setAudioEnabled 1)]
  | .audioOff => [.plain (.setAudioEnabled 0)]
  | .rdLate => [.plain (.readDiag 0)]
  | .rdErr => [.plain (.readDiag 1)]
  | .rdFrame => [.plain (.readDiag 2)]
  | .rdAudio => [.plain (.readDiag 3)]
  | .setK k => [.plain (.writeCfg 0 k)]
  | .setBand first count => [.plain (.writeCfg 1 first), .plain (.writeCfg 2 count)]
  | .setScanlines b => [.plain (.writeCfg 3 b)]
  | .setRate code => [.plain (.writeCfg 4 code)]
  | .putLine token content =>
      [.plain .acquireFreeBuffer,
        { instr := .fillBuffer ((res 0).setWidth 8), frames := none, content := some content },
        .plain (.submitValidBuffer ((res 0).setWidth 8) token)]
  | .pop4Submit =>
      if 4 ≤ (res 0).toNat then
        [.plain .ringPopAvailable, .plain (.ringReadSlot 0), .plain (.ringReadSlot 1), .plain (.ringReadSlot 2),
          .plain (.ringReadSlot 3), .plain (.ringAdvanceRead 4),
          { instr := .submitAudioSamples, frames := some (res 1, res 2, res 3, res 4), content := none }]
      else [.plain .ringPopAvailable]

end Sys2Proof
end

