-- ==== Sys2Proof/WellFormed.lean ====
section
/-! DEFINITION. Which origin may issue which command: the "ports" column of R83. The operands are bounded by their
types, so this is the one check a command needs. -/

namespace Sys2Proof

/-- The "ports" column of R83: `TICK` comes from the LANES agent only, `READ_DIAG` from every port,
`SET_AUDIO_ENABLED` from two. -/
def Instr.origins : Instr → List Origin
  | .init _ | .registerIrq _ | .start | .stop | .destroy | .writeCfg _ _ => [.port .control]
  | .acquireFreeBuffer | .fillBuffer _ | .submitValidBuffer _ _ | .acquireFreeAudioSlot | .submitAudioSamples =>
      [.port .producer]
  | .setAudioEnabled _ => [.port .producer, .port .control]
  | .ringPopAvailable | .ringReadSlot _ | .ringAdvanceRead _ => [.port .producer]
  | .ringPush | .ringWriteSize | .ringWriteSlot _ | .ringAdvanceWrite _ => [.port .source]
  | .readDiag _ => [.port .control, .port .producer, .port .source]
  | .tick => [.lanes]

/-- A command is well formed at an origin when that origin may issue it (R84 check 2). -/
def Instr.wellFormed (origin : Origin) (i : Instr) : Bool :=
  i.origins.contains origin

end Sys2Proof
end

