-- ==== Sys2Proof/Decode.lean ====
section
/-! DEFINITION. The one 32-bit command format (R81), the decoder in the order of R84, and the encoder. -/

namespace Sys2Proof

/-- `OP`, bits 7..0 (R81). -/
def opField (w : Word) : Byte := w.extractLsb' 0 8

/-- `H`, bits 15..8 (R81). -/
def hField (w : Word) : Byte := w.extractLsb' 8 8

/-- `IMM`, bits 31..16 (R81). -/
def immField (w : Word) : Half := w.extractLsb' 16 16

/-- Why a word is `ILLEGAL`, by the check of R84 that fails. -/
inductive Reject where
  | reservedOpcode
  | wrongPort
  | unusedField
  deriving DecidableEq, Repr

/-- The command an opcode names, with its operand fields (R83); `none` for a reserved opcode (R85). -/
def commandOf (op h : Byte) (imm : Half) : Option Instr :=
  match op.toNat with
  | 0x01 => some (.init h)
  | 0x02 => some (.registerIrq h)
  | 0x03 => some .start
  | 0x04 => some .stop
  | 0x05 => some .destroy
  | 0x06 => some (.writeCfg h imm)
  | 0x10 => some .acquireFreeBuffer
  | 0x11 => some (.fillBuffer h)
  | 0x12 => some (.submitValidBuffer h imm)
  | 0x13 => some .acquireFreeAudioSlot
  | 0x14 => some .submitAudioSamples
  | 0x15 => some (.setAudioEnabled h)
  | 0x20 => some .ringPopAvailable
  | 0x21 => some (.ringReadSlot imm)
  | 0x22 => some (.ringAdvanceRead imm)
  | 0x28 => some .ringPush
  | 0x29 => some .ringWriteSize
  | 0x2A => some (.ringWriteSlot imm)
  | 0x2B => some (.ringAdvanceWrite imm)
  | 0x30 => some (.readDiag h)
  | 0x40 => some .tick
  | _ => none

/-- Whether a command uses its `H` field (R83, column "fields"). -/
def Instr.usesH : Instr → Bool
  | .init _ | .registerIrq _ | .writeCfg _ _ | .fillBuffer _ | .submitValidBuffer _ _ | .setAudioEnabled _
  | .readDiag _ => true
  | .start | .stop | .destroy | .acquireFreeBuffer | .acquireFreeAudioSlot | .submitAudioSamples
  | .ringPopAvailable | .ringReadSlot _ | .ringAdvanceRead _ | .ringPush | .ringWriteSize | .ringWriteSlot _
  | .ringAdvanceWrite _ | .tick => false

/-- Whether a command uses its `IMM` field (R83, column "fields"). -/
def Instr.usesImm : Instr → Bool
  | .writeCfg _ _ | .submitValidBuffer _ _ | .ringReadSlot _ | .ringAdvanceRead _ | .ringWriteSlot _
  | .ringAdvanceWrite _ => true
  | .init _ | .registerIrq _ | .start | .stop | .destroy | .acquireFreeBuffer | .fillBuffer _
  | .acquireFreeAudioSlot | .submitAudioSamples | .setAudioEnabled _ | .ringPopAvailable | .ringPush
  | .ringWriteSize | .readDiag _ | .tick => false

/-- Every field the command does not use is zero (R82). -/
def unusedFieldsZero (i : Instr) (w : Word) : Bool :=
  (i.usesH || hField w == 0) && (i.usesImm || immField w == 0)

/-- The decoder (R84): the opcode, then the port, then the unused fields. Total (R94). -/
def decode (origin : Origin) (w : Word) : Except Reject Instr :=
  match commandOf (opField w) (hField w) (immField w) with
  | none => .error .reservedOpcode
  | some i =>
      if i.wellFormed origin then
        if unusedFieldsZero i w then .ok i else .error .unusedField
      else .error .wrongPort

/-- The `OP` field of a command (R83). -/
def Instr.opcode : Instr → Byte
  | .init _ => 0x01
  | .registerIrq _ => 0x02
  | .start => 0x03
  | .stop => 0x04
  | .destroy => 0x05
  | .writeCfg _ _ => 0x06
  | .acquireFreeBuffer => 0x10
  | .fillBuffer _ => 0x11
  | .submitValidBuffer _ _ => 0x12
  | .acquireFreeAudioSlot => 0x13
  | .submitAudioSamples => 0x14
  | .setAudioEnabled _ => 0x15
  | .ringPopAvailable => 0x20
  | .ringReadSlot _ => 0x21
  | .ringAdvanceRead _ => 0x22
  | .ringPush => 0x28
  | .ringWriteSize => 0x29
  | .ringWriteSlot _ => 0x2A
  | .ringAdvanceWrite _ => 0x2B
  | .readDiag _ => 0x30
  | .tick => 0x40

/-- The `H` field of a command, zero where it uses none (R82, R83). -/
def Instr.hOperand : Instr → Byte
  | .init h | .registerIrq h | .writeCfg h _ | .fillBuffer h | .submitValidBuffer h _ | .setAudioEnabled h
  | .readDiag h => h
  | .start | .stop | .destroy | .acquireFreeBuffer | .acquireFreeAudioSlot | .submitAudioSamples
  | .ringPopAvailable | .ringReadSlot _ | .ringAdvanceRead _ | .ringPush | .ringWriteSize | .ringWriteSlot _
  | .ringAdvanceWrite _ | .tick => 0

/-- The `IMM` field of a command, zero where it uses none (R82, R83). -/
def Instr.immOperand : Instr → Half
  | .writeCfg _ v | .submitValidBuffer _ v | .ringReadSlot v | .ringAdvanceRead v | .ringWriteSlot v
  | .ringAdvanceWrite v => v
  | .init _ | .registerIrq _ | .start | .stop | .destroy | .acquireFreeBuffer | .fillBuffer _
  | .acquireFreeAudioSlot | .submitAudioSamples | .setAudioEnabled _ | .ringPopAvailable | .ringPush
  | .ringWriteSize | .readDiag _ | .tick => 0

/-- `IMM << 16 | H << 8 | OP` (R87). -/
def encode (i : Instr) : Word :=
  (i.immOperand ++ i.hOperand : BitVec 24) ++ i.opcode

/-- The origins in the order the opcode table's words are tried from. -/
def allOrigins : List Origin :=
  [.port .control, .port .producer, .port .source, .lanes]

/-- The first origin the decoder accepts a word from. A word of the opcode table says nothing of its port. -/
def originOf (w : Word) : Option Origin :=
  allOrigins.find? fun o => match decode o w with
    | .ok _ => true
    | .error _ => false

/-- The instruction the decoder reads from a word of the opcode table, from the first origin that may issue it; an
instruction is one 32-bit word (R81). -/
def decodeTableWord (nbits w : Nat) : Option Instr :=
  let word : Word := BitVec.ofNat 32 (w % 2 ^ nbits)
  match originOf word with
  | none => none
  | some o => (decode o word).toOption

end Sys2Proof
end

