-- ==== Sys2Proof/Machine/State.lean ====
section
/-! DEFINITION. The state of the ENGINE (10_state.md), the ways a step can stop, and the state after power-on reset. -/

namespace Sys2Proof.Machine

/-- The vertical phase (R22). -/
inductive Phase where
  | frontPorch
  | sync
  | backPorch
  | active
  deriving DecidableEq, Repr, Inhabited

/-- `LIFECYCLE` (R26). -/
inductive Lifecycle where
  | uninit
  | initialized
  | started
  | stopped
  | destroyed
  | halted
  deriving DecidableEq, Repr, Inhabited

/-- The fault codes of R263 that `raise Fault` records. -/
inductive FaultCode where
  | poolExhausted
  | ownership
  | queueOverflow
  | ringOverrun
  | ringUnderrun
  | unwrittenSlot
  | reclaimWhileOwned
  | teardownWrongContext
  | islandRace
  | unfilledSubmit
  deriving DecidableEq, Repr, Inhabited

/-- The result status codes of R86. -/
inductive Status where
  | ok
  | falseResult
  | illegal
  | wrongState
  | wrongContext
  | badArg
  | audioUnavailable
  | halted
  deriving DecidableEq, Repr, Inhabited

/-- The five templates (R90). -/
inductive Template where
  | active
  | blanked
  | vsync
  | vnosync
  | error
  deriving DecidableEq, Repr, Inhabited

/-- An island source (R91); `pol` is the polarity index, true for vertical sync asserted. -/
inductive IslandSrc where
  | null (pol : Bool)
  | avi
  | ainfo
  | acr
  | pair (p : Handle) (pol : Bool)
  deriving DecidableEq, Repr, Inhabited

/-- A line program (R38). -/
structure LineProgram where
  template : Template
  buf      : Option Handle
  island   : IslandSrc
  phase    : Phase
  vctr     : Half
  frame    : Word
  deriving DecidableEq, Repr, Inhabited

/-- A command as the bus delivers it (R80): the issuing core, the word, the data registers at the moment of issue, and
the content payload of `FILL_BUFFER`, an opaque value (log entry 10). The port is the one it is issued on. -/
structure Command where
  core    : CoreId
  word    : Word
  d0      : Word
  d1      : Word
  d2      : Word
  d3      : Word
  content : Nat
  deriving DecidableEq, Repr, Inhabited

/-- The registers of one command port (R45), and the command it holds while it is busy (R80, R151, R181). -/
structure Port where
  d0        : Word
  d1        : Word
  d2        : Word
  d3        : Word
  resStatus : BitVec 8
  resValue  : Word
  held      : Option Command
  deriving DecidableEq, Repr, Inhabited

/-- The command being executed and the port it was issued on: the model's own field (log entry 20). -/
structure Bus where
  port : PortId
  cmd  : Command
  deriving DecidableEq, Repr, Inhabited

/-- The bytes of the memory objects (R60): one list of cells for each kind of object, keyed by the byte offset in that
kind's backing store, in the canonical form of `Memory.wf` (log entry 9). -/
structure Memory where
  buf    : List Host.Cell
  pair   : List Host.Cell
  ring   : List Host.Cell
  tplmem : List Host.Cell
  static : List Host.Cell
  deriving DecidableEq, Repr, Inhabited

/-- What stands outside the ENGINE: the commands issued and not yet taken, the inputs that choose the next step and the
allocation results, and the output trace (R137), oldest first. The model's own fields (log entries 2, 3, 5, 18). -/
structure Env where
  issuedControl  : List Command
  issuedProducer : List Command
  issuedSource   : List Command
  turns          : List Turn
  clock          : Nat
  allocDraws     : List Bool
  drawNo         : Nat
  trace          : List LineProgram
  deriving DecidableEq, Repr, Inhabited

/-- The state of the ENGINE, flat, under the names of 10_state.md. -/
structure State where
  /-- The parameters of R9, fixed. -/
  params         : Params
  lifecycle      : Lifecycle
  fault          : BitVec 8
  phase          : Phase
  vctr           : Half
  frame          : Word
  lateCnt        : Word
  errCnt         : Word
  audioEn        : Bool
  audioOk        : Bool
  cts            : BitVec 20
  nval           : BitVec 20
  audFrameIdx    : BitVec 8
  irqCore        : BitVec 8
  irqEn          : Bool
  cfgRepeatK     : Half
  cfgBandFirst   : Half
  cfgBandCount   : Half
  cfgScanlineEmu : Half
  cfgSampleRate  : Half
  tt             : TimingTable
  k              : Half
  bandFirst      : Half
  bandEnd        : Half
  scanlineEmu    : Half
  rateCode       : Half
  /-- The pools, queues, ring and templates exist (R27, R50). -/
  allocated      : Bool
  freeq          : List Handle
  validq         : List Handle
  pfreeq         : List Handle
  pvalidq        : List Handle
  cur            : Option Handle
  rel0           : Option Handle
  rel1           : Option Handle
  /-- A set: a strictly rising list. -/
  prodBufs       : List Handle
  prodPair       : Option Handle
  token          : List Half
  filled         : List Bool
  mem            : Memory
  ringWr         : Half
  ringRd         : Half
  prog           : Option LineProgram
  laneLine       : Option LineProgram
  control        : Port
  producer       : Port
  source         : Port
  bus            : Bus
  env            : Env
  deriving DecidableEq, Repr

/-- Why the machine would stop. No step of it stops: the faults the spec names are next states (R264), so this type has
no constructor (log entry 16). -/
inductive Fault where
  deriving DecidableEq, Repr

/-- Why an instruction would have no meaning. -/
inductive Refusal where
  /-- Raised by an arm of `exec` whose instruction has no meaning yet; safe. No arm raises it. -/
  | notModelled (mnemonic : String)
  deriving DecidableEq, Repr

/-- A port after reset (R50). -/
def Port.reset : Port :=
  { d0 := 0, d1 := 0, d2 := 0, d3 := 0, resStatus := 0, resValue := 0, held := none }

/-- The bus before any command (log entry 20). -/
def Bus.reset : Bus :=
  { port := .control, cmd := { core := 0, word := 0, d0 := 0, d1 := 0, d2 := 0, d3 := 0, content := 0 } }

/-- No byte of any object is written. -/
def Memory.empty : Memory :=
  { buf := [], pair := [], ring := [], tplmem := [], static := [] }

/-- Nothing issued, nothing chosen, nothing emitted. -/
def Env.empty : Env :=
  { issuedControl := [], issuedProducer := [], issuedSource := [], turns := [], clock := 0, allocDraws := [],
    drawNo := 0, trace := [] }

/-- Power-on reset of a machine with the parameters `p` (R50, R290). What does not exist before INIT is empty (log
entry 8); the latched configuration, which R50 leaves unspecified, is zero (log entry 7). -/
def State.resetWith (p : Params) : State :=
  { params := p
    lifecycle := .uninit, fault := 0
    phase := .frontPorch, vctr := 0, frame := 0
    lateCnt := 0, errCnt := 0
    audioEn := false, audioOk := false, cts := 0, nval := 0, audFrameIdx := 0
    irqCore := 0xFF, irqEn := false
    cfgRepeatK := 1, cfgBandFirst := 0, cfgBandCount := 0, cfgScanlineEmu := 0, cfgSampleRate := 1
    tt := { vFrontPorch := 0, vSyncWidth := 0, vBackPorch := 0, vActiveLines := 0, hFrontPorch := 0, hSyncWidth := 0,
            hBackPorch := 0, hActivePixels := 0, hSyncPolarity := false, vSyncPolarity := false, pixelClockHz := 0 }
    k := 0, bandFirst := 0, bandEnd := 0, scanlineEmu := 0, rateCode := 0
    allocated := false
    freeq := [], validq := [], pfreeq := [], pvalidq := []
    cur := none, rel0 := none, rel1 := none, prodBufs := [], prodPair := none
    token := [], filled := []
    mem := Memory.empty
    ringWr := 0, ringRd := 0
    prog := none, laneLine := none
    control := Port.reset, producer := Port.reset, source := Port.reset
    bus := Bus.reset
    env := Env.empty }

/-- The machine right after power-on reset (R50, R290), with any legal parameters (log entry 1). -/
def State.reset : State :=
  State.resetWith Config.params

end Sys2Proof.Machine
end

