-- ==== Sys2Proof/Machine/Ops.lean ====
section
/-! DEFINITION. The named operations over memory, ports, queues and the fault state. -/

namespace Sys2Proof.Machine

/-! ## Bytes and cells (R61, R62) -/

/-- The `n` bytes of a value, least significant first (R62). -/
def leBytes : Nat → Nat → List Byte
  | 0, _ => []
  | n + 1, v => BitVec.ofNat 8 v :: leBytes n (v / 256)

/-- The value of bytes given least significant first (R62). -/
def ofLeBytes : List Byte → Nat
  | [] => 0
  | b :: rest => b.toNat + 256 * ofLeBytes rest

/-- The byte at an offset of a backing store; `none` where nothing has written it (log entry 9). -/
def cellRead : List Host.Cell → Nat → Option Byte
  | [], _ => none
  | (a, b) :: rest, off => if a = off then some b else cellRead rest off

/-- The store with one byte written, its offsets still rising. -/
def cellWrite : List Host.Cell → Nat → Byte → List Host.Cell
  | [], off, v => [(off, v)]
  | (a, b) :: rest, off, v =>
      if off < a then (off, v) :: (a, b) :: rest
      else if off = a then (off, v) :: rest
      else (a, b) :: cellWrite rest off v

/-- The `n` bytes from an offset on; `none` if one of them is unwritten. -/
def cellsRead (cells : List Host.Cell) : Nat → Nat → Option (List Byte)
  | _, 0 => some []
  | off, n + 1 =>
      match cellRead cells off, cellsRead cells (off + 1) n with
      | some b, some rest => some (b :: rest)
      | _, _ => none

/-- The store with a run of bytes written from an offset on. -/
def cellsWrite : List Host.Cell → Nat → List Byte → List Host.Cell
  | cells, _, [] => cells
  | cells, off, b :: rest => cellsWrite (cellWrite cells off b) (off + 1) rest

/-- The canonical form of a backing store: offsets strictly rising. An unlisted byte reads as no value, so no entry can
equal one. -/
abbrev CellsWf (cells : List Host.Cell) : Prop :=
  cells.Pairwise fun a b => a.1 < b.1

/-- The canonical form of the memory. -/
abbrev Memory.wf (m : Memory) : Prop :=
  CellsWf m.buf ∧ CellsWf m.pair ∧ CellsWf m.ring ∧ CellsWf m.tplmem ∧ CellsWf m.static

/-! ## Memory objects (R60, R61) -/

/-- The bytes of one island stream in memory: `L` lanes, `ISL_STRIDE` apart (R124; log entry 10). -/
def streamBytes (p : Params) : Nat :=
  p.l * p.islStride

/-- The size of a memory object in bytes (R60). -/
def objSize (p : Params) : MemObj → Nat
  | .buf _ => p.bufBytes
  | .pair _ => 2 * streamBytes p
  | .ring => 4 * p.c
  | .tplmem => 5 * p.l * 4 * 16
  | .static => 5 * streamBytes p

/-- Where a memory object begins in the backing store of its kind (R63). -/
def objBase (p : Params) : MemObj → Nat
  | .buf h => h.toNat * p.bufBytes
  | .pair q => q.toNat * (2 * streamBytes p)
  | .ring | .tplmem | .static => 0

/-- The backing store of a memory object's kind. -/
def Memory.cells (m : Memory) : MemObj → List Host.Cell
  | .buf _ => m.buf
  | .pair _ => m.pair
  | .ring => m.ring
  | .tplmem => m.tplmem
  | .static => m.static

/-- The memory with the backing store of one kind replaced. -/
def Memory.setCells (m : Memory) (o : MemObj) (cells : List Host.Cell) : Memory :=
  match o with
  | .buf _ => { m with buf := cells }
  | .pair _ => { m with pair := cells }
  | .ring => { m with ring := cells }
  | .tplmem => { m with tplmem := cells }
  | .static => { m with static := cells }

/-- `MemRead(obj, off, n)` (R61), the value its little-endian bytes make (R62); `none` if a byte is unwritten, or the run does
not lie in the object, an access no rule forms (R61). -/
def memRead (p : Params) (m : Memory) (o : MemObj) (off n : Nat) : Option Nat :=
  if off + n ≤ objSize p o then (cellsRead (m.cells o) (objBase p o + off) n).map ofLeBytes else none

/-- `MemWrite(obj, off, n, v)` (R61), little-endian (R62); a run that does not lie in the object, which no rule forms (R61),
is not written. -/
def memWrite (p : Params) (m : Memory) (o : MemObj) (off n v : Nat) : Memory :=
  if off + n ≤ objSize p o then m.setCells o (cellsWrite (m.cells o) (objBase p o + off) (leBytes n v)) else m

/-- One byte of a memory object; `none` outside the object and where nothing has written it. -/
def State.byteAt (s : State) (o : MemObj) (off : Nat) : Option Byte :=
  if off < objSize s.params o then cellRead (s.mem.cells o) (objBase s.params o + off) else none

/-- `MemRead` on the machine's memory. -/
def State.read (s : State) (o : MemObj) (off n : Nat) : Option Nat :=
  memRead s.params s.mem o off n

/-- `MemWrite` on the machine's memory. -/
def State.write (s : State) (o : MemObj) (off n v : Nat) : State :=
  { s with mem := memWrite s.params s.mem o off n v }

/-! ## Codes (R26, R86, R263) -/

/-- The code of a lifecycle state (R26). -/
def Lifecycle.code : Lifecycle → BitVec 3
  | .uninit => 0
  | .initialized => 1
  | .started => 2
  | .stopped => 3
  | .destroyed => 4
  | .halted => 5

/-- The code of a result status (R86). -/
def Status.code : Status → BitVec 8
  | .ok => 0x00
  | .falseResult => 0x01
  | .illegal => 0x02
  | .wrongState => 0x03
  | .wrongContext => 0x04
  | .badArg => 0x05
  | .audioUnavailable => 0x06
  | .halted => 0x07

/-- The code of a fault (R263). -/
def FaultCode.code : FaultCode → BitVec 8
  | .poolExhausted => 0x01
  | .ownership => 0x02
  | .queueOverflow => 0x03
  | .ringOverrun => 0x04
  | .ringUnderrun => 0x05
  | .unwrittenSlot => 0x06
  | .reclaimWhileOwned => 0x07
  | .teardownWrongContext => 0x08
  | .islandRace => 0x09
  | .unfilledSubmit => 0x0A

/-! ## Ports (R45, R80) -/

/-- The registers of a port. -/
def State.port (s : State) : PortId → Port
  | .control => s.control
  | .producer => s.producer
  | .source => s.source

/-- The machine with a port's registers replaced. -/
def State.setPort (s : State) (p : PortId) (q : Port) : State :=
  match p with
  | .control => { s with control := q }
  | .producer => { s with producer := q }
  | .source => { s with source := q }

/-- The registers of the port whose command is being executed; its `D0`..`D3` are the command's data operands. -/
def State.issuer (s : State) : Port :=
  s.port s.bus.port

/-- The core that issued the command being executed, as an 8-bit id (R80). -/
def State.issuingCore (s : State) : BitVec 8 :=
  BitVec.ofNat 8 s.bus.cmd.core.val

/-- A command completes: `RES_STATUS` and `RES_VALUE` of its port are written (R86), and the port holds it no more. -/
def Port.complete (q : Port) (st : Status) (v : Word) : Port :=
  { q with resStatus := st.code, resValue := v, held := none }

/-- `return S(st, v)` on the issuing port (R11, R86). -/
def State.reply (s : State) (st : Status) (v : Word) : State :=
  s.setPort s.bus.port (s.issuer.complete st v)

/-- `hold`: the command does not complete and its port stays busy with it (R11, R80). -/
def State.hold (s : State) : State :=
  s.setPort s.bus.port { s.issuer with held := some s.bus.cmd }

/-- A command is issued: its data registers are those of its port (R80), and it is the one being executed. -/
def State.latch (s : State) (p : PortId) (c : Command) : State :=
  { s.setPort p { s.port p with d0 := c.d0, d1 := c.d1, d2 := c.d2, d3 := c.d3 } with bus := { port := p, cmd := c } }

/-! ## Raising a fault (R264) -/

/-- A command another port holds completes with `S(HALTED, FAULT)` (R264). -/
def Port.release (q : Port) (fault : BitVec 8) : Port :=
  match q.held with
  | none => q
  | some _ => q.complete .halted (fault.setWidth 32)

/-- What `raise Fault(code)` leaves, but for the result on the raising port (R264). It is applied to the state before the
raising step, whose writes are thereby discarded. There is no return from a fault but power-on reset. -/
def State.halt (s : State) (c : FaultCode) : State :=
  let f := if s.fault = 0 then c.code else s.fault
  { s with
    fault := f
    lifecycle := .halted
    irqEn := false
    prog := none
    laneLine := none
    control := s.control.release f
    producer := s.producer.release f
    source := s.source.release f }

/-- `raise Fault(code)` by a command: the ENGINE halts and the raising port gets `S(HALTED, code)` (R264). -/
def State.raise (s : State) (c : FaultCode) : State :=
  (s.halt c).reply .halted (c.code.setWidth 32)

/-! ## How a command ends -/

/-- The ways the rule of a command ends: a result on a state, a hold, or a fault (R11). -/
inductive Reply where
  | done (st : Status) (v : Word) (s : State)
  | hold
  | raise (c : FaultCode)

/-- The rule `r` refuses by status: no state changes (R265). -/
def State.refuse (s : State) (st : Status) (v : Word) : Reply :=
  .done st v s

/-- The state a command leaves that was issued on the state `s`. -/
def State.answer (s : State) : Reply → State
  | .done st v t => t.reply st v
  | .hold => s.hold
  | .raise c => s.raise c

/-- A command's own rule after the first of the common checks: while HALTED it completes with `S(HALTED, FAULT)`
(R265). -/
def command (rule : State → Reply) (s : State) : Host.Outcome State Fault Refusal :=
  .next (s.answer
    (if s.lifecycle = .halted then s.refuse .halted (s.fault.setWidth 32) else rule s))

/-- The lifecycle states in which the pools, queues, ring and templates exist (R27) and the commands on them are
accepted (R240). -/
def State.live (s : State) : Bool :=
  match s.lifecycle with
  | .initialized | .started | .stopped => true
  | .uninit | .destroyed | .halted => false

/-- The lifecycle check of the commands on the pools and the ring: `WRONG_STATE` outside the live states (R240). -/
def whenLive (rule : State → Reply) (s : State) : Reply :=
  if s.live then rule s else s.refuse .wrongState 0

/-- A rule that may raise a fault on its way and then returns `S(OK, 0)`. -/
def okOrRaise : Except FaultCode State → Reply
  | .ok t => .done .ok 0 t
  | .error c => .raise c

/-! ## Queues (R27, R28) -/

/-- `push(FREEQ, h)`; on a FIFO that holds its capacity it raises (R28). -/
def pushFree (h : Handle) (s : State) : Except FaultCode State :=
  if s.freeq.length < s.params.n then .ok { s with freeq := s.freeq ++ [h] } else .error .queueOverflow

/-- `push(VALIDQ, h)` (R28). -/
def pushValid (h : Handle) (s : State) : Except FaultCode State :=
  if s.validq.length < s.params.n then .ok { s with validq := s.validq ++ [h] } else .error .queueOverflow

/-- `push(PFREEQ, p)` (R28). -/
def pushPairFree (p : Handle) (s : State) : Except FaultCode State :=
  if s.pfreeq.length < s.params.m then .ok { s with pfreeq := s.pfreeq ++ [p] } else .error .queueOverflow

/-- `push(PVALIDQ, p)` (R28). -/
def pushPairValid (p : Handle) (s : State) : Except FaultCode State :=
  if s.pvalidq.length < s.params.m then .ok { s with pvalidq := s.pvalidq ++ [p] } else .error .queueOverflow

/-- `push(FREEQ, h)` for each handle of a list, in order. -/
def pushFreeAll : List Handle → State → Except FaultCode State
  | [], s => .ok s
  | h :: rest, s => (pushFree h s).bind (pushFreeAll rest)

/-- `push(PFREEQ, p)` for each handle of a list, in order. -/
def pushPairFreeAll : List Handle → State → Except FaultCode State
  | [], s => .ok s
  | p :: rest, s => (pushPairFree p s).bind (pushPairFreeAll rest)

/-- A set of handles with one more (R30), kept strictly rising. -/
def insertHandle (h : Handle) : List Handle → List Handle
  | [] => [h]
  | a :: rest =>
      if h.toNat < a.toNat then h :: a :: rest
      else if h = a then a :: rest
      else a :: insertHandle h rest

/-- A set of handles with one less (R30). -/
def removeHandle (h : Handle) (hs : List Handle) : List Handle :=
  hs.filter (· ≠ h)

end Sys2Proof.Machine
end

