-- ==== Sys2Proof/Machine/Operands.lean ====
section
/-! DEFINITION. Operands of the commands: configuration registers, diagnostic selectors, handles, ring offsets and slots,
and the record encodings of R89 to R91. -/

namespace Sys2Proof.Machine

/-! ## Record encodings -/

/-- The code of a phase (R22). -/
def Phase.code : Phase → BitVec 2
  | .frontPorch => 0
  | .sync => 1
  | .backPorch => 2
  | .active => 3

/-- The code of a template (R90). -/
def Template.code : Template → BitVec 3
  | .active => 0
  | .blanked => 1
  | .vsync => 2
  | .vnosync => 3
  | .error => 4

/-- The code of an island source (R91): kind in bits 15..12, polarity in bit 8, pair handle in bits 7..0. -/
def IslandSrc.code : IslandSrc → Half
  | .null pol => BitVec.ofNat 16 (pol.toNat * 0x100)
  | .avi => 0x1000
  | .ainfo => 0x2000
  | .acr => 0x3000
  | .pair p pol => BitVec.ofNat 16 (0x4000 + pol.toNat * 0x100 + p.toNat)

/-- A transfer descriptor (R89). -/
structure Descriptor where
  src   : Word
  count : Half
  incr  : Bool
  irq   : Bool
  patch : BitVec 2
  lane  : Byte
  last  : Bool
  deriving DecidableEq, Repr

/-- Word `i` of a descriptor (R89). -/
def Descriptor.word (d : Descriptor) : Nat → Word
  | 0 => d.src
  | 1 => BitVec.ofNat 32
      (d.count.toNat + d.incr.toNat * 2 ^ 16 + d.irq.toNat * 2 ^ 17 + d.patch.toNat * 2 ^ 18)
  | 2 => d.lane.setWidth 32
  | _ => BitVec.ofNat 32 d.last.toNat

/-- The place of `TPL[t][l][s]` in `TPLMEM`, in descriptors: by template, then lane, then segment. The spec gives their number
(R60) and their words (R89) and no order; this one is the model's choice (log entry 25). -/
def tplIndex (p : Params) (t : Template) (l s : Nat) : Nat :=
  (t.code.toNat * p.l + l) * 4 + s

/-- Word `i` of `TPL[t][l][s]` as it stands in memory (R37, R89); `none` before INIT. -/
def State.tplWord (s : State) (t : Template) (l seg i : Nat) : Option Word :=
  (s.read .tplmem (16 * tplIndex s.params t l seg + 4 * i) 4).map (BitVec.ofNat 32)

/-! ## Configuration registers (R41, R93) -/

/-- `CFG[idx] <- v` for an index of 0 to 4 (R41); a larger one names no register. -/
def State.setCfg (s : State) (idx : Byte) (v : Half) : State :=
  match idx.toNat with
  | 0 => { s with cfgRepeatK := v }
  | 1 => { s with cfgBandFirst := v }
  | 2 => { s with cfgBandCount := v }
  | 3 => { s with cfgScanlineEmu := v }
  | 4 => { s with cfgSampleRate := v }
  | _ => s

/-! ## Diagnostic selectors (R47, R92) -/

/-- The register a selector names, zero-extended to 32 bits (R47, R239); `none` above 10 (R92). -/
def State.diag (s : State) (sel : Byte) : Option Word :=
  match sel.toNat with
  | 0 => some s.lateCnt
  | 1 => some s.errCnt
  | 2 => some s.frame
  | 3 => some (BitVec.ofNat 32 s.audioEn.toNat)
  | 4 => some (s.lifecycle.code.setWidth 32)
  | 5 => some (BitVec.ofNat 32 (s.vctr.toNat * 2 ^ 16 + (Phase.code s.phase).toNat))
  | 6 => some (s.fault.setWidth 32)
  | 7 => some (BitVec.ofNat 32 s.audioOk.toNat)
  | 8 => some (s.cts.setWidth 32)
  | 9 => some (s.nval.setWidth 32)
  | 10 => some (s.irqCore.setWidth 32)
  | _ => none

/-! ## Scanline buffers (R31) -/

/-- `TOKEN[h]` (R31). -/
def State.tokenOf (s : State) (h : Handle) : Half :=
  s.token.getD h.toNat 0

/-- `TOKEN[h] <- tok` (R153). -/
def State.setToken (s : State) (h : Handle) (tok : Half) : State :=
  { s with token := s.token.set h.toNat tok }

/-- `CONTENT[h]` (R31), the value of the bytes of `BUF[h]`; `none` is the spec's `unwritten`. -/
def State.content (s : State) (h : Handle) : Option Nat :=
  s.read (.buf h) 0 s.params.bufBytes

/-- `ENC[p][pol]` (R34); `none` is the spec's `unwritten`. -/
def State.enc (s : State) (p : Handle) (pol : Bool) : Option Nat :=
  s.read (.pair p) (pol.toNat * streamBytes s.params) (streamBytes s.params)

/-- `pair p`'s stream `pol` is encoded: `ENC[p][pol] <- stream`, a write into `PAIR[p]` (R34, R61). -/
def State.setEnc (s : State) (p : Handle) (pol : Bool) (stream : Nat) : State :=
  s.write (.pair p) (pol.toNat * streamBytes s.params) (streamBytes s.params) stream

/-- The static streams in the order they stand in `STATIC` (R36). -/
inductive StaticId where
  | null (pol : Bool)
  | avi
  | ainfo
  | acr
  deriving DecidableEq, Repr

/-- The place of a static stream in `STATIC`, in streams. -/
def StaticId.index : StaticId → Nat
  | .null pol => pol.toNat
  | .avi => 2
  | .ainfo => 3
  | .acr => 4

/-- A static stream (R36); `none` where it is not built. -/
def State.staticStream (s : State) (i : StaticId) : Option Nat :=
  s.read .static (i.index * streamBytes s.params) (streamBytes s.params)

/-- A static stream is computed (R176 to R178). -/
def State.setStatic (s : State) (i : StaticId) (stream : Nat) : State :=
  s.write .static (i.index * streamBytes s.params) (streamBytes s.params) stream

/-! ## Ring (R35, R211) -/

/-- `C - 1`, the index mask of the ring (R211). -/
def ringMask (p : Params) : Half :=
  BitVec.ofNat 16 (p.c - 1)

/-- `read_size()`: frames published and not yet consumed (R211). -/
def State.readSize (s : State) : Half :=
  (s.ringWr - s.ringRd) &&& ringMask s.params

/-- `write_size()`: slots the writer may still fill (R211). -/
def State.writeSize (s : State) : Half :=
  (s.ringRd - s.ringWr - 1) &&& ringMask s.params

/-- The slot `k` beyond an offset, and the offset advanced by `k`: `(off + k) & (C - 1)` (R213, R214, R217, R218). -/
def ringSlotAt (p : Params) (off k : Half) : Half :=
  (off + k) &&& ringMask p

/-- `RING_SLOT[i]` (R35), `MemRead(RING, 4*i, 4)`; `none` while `WRITTEN[i] = 0`. -/
def State.ringSlot (s : State) (i : Half) : Option Word :=
  (s.read .ring (4 * i.toNat) 4).map (BitVec.ofNat 32)

/-- `RING_SLOT[i] <- f; WRITTEN[i] <- 1` (R212, R213): `MemWrite(RING, 4*i, 4, f)`. -/
def State.setRingSlot (s : State) (i : Half) (f : Word) : State :=
  s.write .ring (4 * i.toNat) 4 f.toNat

end Sys2Proof.Machine
end

