-- ==== Sys2Proof/Machine/Flags.lean ====
section
/-! DEFINITION. The flags of R49 and the derived quantities of R48: `FILLED[h]`, `WRITTEN[i]`, the vertical-sync flag and
level, the band length and the number of source lines. `AUDIO_EN`, `AUDIO_OK` and `IRQ_EN` are fields of the state. -/

namespace Sys2Proof.Machine

/-- `FILLED[h]` (R31). -/
def State.isFilled (s : State) (h : Handle) : Bool :=
  s.filled.getD h.toNat false

/-- `FILLED[h] <- b` (R151, R152). -/
def State.setFilled (s : State) (h : Handle) (b : Bool) : State :=
  { s with filled := s.filled.set h.toNat b }

/-- `WRITTEN[i]` (R35): the slot has been written since INIT. -/
def State.written (s : State) (i : Half) : Bool :=
  (s.ringSlot i).isSome

/-- `vs_asserted`, and the polarity index `pol` (R48, R106, R174). -/
def State.vsAsserted (s : State) : Bool :=
  s.phase == .sync

/-- The physical vertical-sync level for a polarity index (R106): the mode's polarity where asserted, its complement
elsewhere. -/
def vsLevel (tt : TimingTable) (pol : Bool) : Bool :=
  if pol then tt.vSyncPolarity else !tt.vSyncPolarity

/-- `BAND_LEN` (R48). -/
def State.bandLen (s : State) : Nat :=
  s.bandEnd.toNat - s.bandFirst.toNat

/-- `A_SRC`, the number of distinct source lines of a frame (R48). -/
def State.aSrc (s : State) : Nat :=
  (s.bandLen + s.k.toNat - 1) / s.k.toNat

end Sys2Proof.Machine
end

