-- ==== Sys2Proof/Machine/Packets.lean ====
section
/-! DEFINITION. The packet formatter (R187 to R197). The byte layouts are the spec's defaults from general knowledge of
the protocol (log entry 12). -/

namespace Sys2Proof.Machine

/-- One bit of `ecc8` (R194): the error register after the input bit `b`. -/
def eccBit (e : Byte) (b : Bool) : Byte :=
  if b != e.getLsbD 0 then (e >>> 1) ^^^ 0x83 else e >>> 1

/-- One byte of `ecc8`, least significant bit first (R194). -/
def eccByte (e b : Byte) : Byte :=
  (List.range 8).foldl (fun e i => eccBit e (b.getLsbD i)) e

/-- The default algorithm of `ecc8` (R194). -/
def bchEcc (bytes : List Byte) : Byte :=
  bytes.foldl eccByte 0

/-- `ecc8`, the error-correction byte of a list of bytes, a parameter (R9, R194; log entry 13). -/
def ecc8 (p : Params) (bytes : List Byte) : Byte :=
  match p.ecc with
  | .bch => bchEcc bytes
  | .other code => Config.otherEcc code bytes

/-- A data-island packet of 36 bytes from its three header bytes and its four subpackets of seven (R187). -/
def packet (p : Params) (header : List Byte) (subpackets : List (List Byte)) : List Byte :=
  header ++ [ecc8 p header] ++ (subpackets.map fun sb => sb ++ [ecc8 p sb]).flatten

/-- The null packet (R188): all 36 bytes are 0. -/
def nullPacket : List Byte :=
  List.replicate 36 0

/-- The clock regeneration packet (R189). -/
def acrPacket (p : Params) (cts nval : BitVec 20) : List Byte :=
  packet p [0x01, 0x00, 0x00] (List.replicate 4
    [0, (cts.extractLsb' 16 4).setWidth 8, cts.extractLsb' 8 8, cts.extractLsb' 0 8,
      (nval.extractLsb' 16 4).setWidth 8, nval.extractLsb' 8 8, nval.extractLsb' 0 8])

/-- `PB0` of an InfoFrame: the header, `PB0` and the payload sum to 0 modulo 256 (R195). -/
def infoChecksum (header payload : List Byte) : Byte :=
  -((header ++ payload).foldl (· + ·) 0)

/-- An InfoFrame packet from its header and its payload from `PB1` on, the bytes beyond it zero (R195). -/
def infoFrame (p : Params) (header payload : List Byte) : List Byte :=
  let pb := infoChecksum header payload :: payload
  packet p header ((List.range 4).map fun k => (List.range 7).map fun j => pb.getD (7 * k + j) 0)

/-- The AVI InfoFrame (R196): length 13. -/
def aviPacket (p : Params) : List Byte :=
  infoFrame p [0x82, 0x02, 0x0D] (p.aviPb.take 13)

/-- The Audio InfoFrame (R197): length 10. -/
def ainfoPacket (p : Params) : List Byte :=
  infoFrame p [0x84, 0x01, 0x0A] (p.ainfoPb.take 10)

/-- The number of ones of a 16-bit sample (R192). -/
def ones (v : Half) : Nat :=
  (List.range 16).countP fun i => v.getLsbD i

/-- The parity bit of a channel (R192): with `V = U = 0`, the sample, `C` and `P` hold an even number of ones. The 24-bit
sample is the 16-bit one followed by eight zeros (R191), which add none. -/
def parityBit (sample : Half) (c : Bool) : Bool :=
  (ones sample + c.toNat) % 2 == 1

/-- `SB6` of an audio sample subpacket (R191): C and P of the left channel in bits 2 and 3, of the right in 6 and 7. -/
def statusByte (left right : Half) (c : Bool) : Byte :=
  BitVec.ofNat 8 (c.toNat * 4 + (parityBit left c).toNat * 8 + c.toNat * 64 + (parityBit right c).toNat * 128)

/-- An audio sample subpacket (R191): the left sample in bits 15..0 of the frame, the right in 31..16. -/
def audioSubpacket (frame : Word) (c : Bool) : List Byte :=
  let left : Half := frame.extractLsb' 0 16
  let right : Half := frame.extractLsb' 16 16
  [0, left.extractLsb' 0 8, left.extractLsb' 8 8, 0, right.extractLsb' 0 8, right.extractLsb' 8 8,
    statusByte left right c]

/-- The position in the 192-frame block of frame `k` of a submit (R190, R193). -/
def blockPos (idx : BitVec 8) (k : Nat) : Nat :=
  (idx.toNat + k) % 192

/-- `HB2` of an audio sample packet (R190): flag B of subpacket `k`, bit `4 + k`, where a block begins. -/
def blockFlags (idx : BitVec 8) : Byte :=
  BitVec.ofNat 8
    (((List.range 4).map fun k => if blockPos idx k = 0 then 2 ^ (4 + k) else 0).foldl (· + ·) 0)

/-- The audio sample packet of four frames (R190, R191). -/
def audioSamplePacket (p : Params) (frames : List Word) (idx : BitVec 8) : List Byte :=
  packet p [0x02, 0x0F, blockFlags idx]
    ((List.range 4).map fun k => audioSubpacket (frames.getD k 0) (p.csBits.getLsbD (blockPos idx k)))

end Sys2Proof.Machine
end

