-- ==== Sys2Proof/Machine/Timing.lean ====
section
/-! DEFINITION. The timing state machine (40_timing.md). -/

namespace Sys2Proof.Machine

/-- The phase after a phase (R101). -/
def Phase.next : Phase → Phase
  | .frontPorch => .sync
  | .sync => .backPorch
  | .backPorch => .active
  | .active => .frontPorch

/-- `len(PHASE)` in lines (R102). -/
def phaseLen (tt : TimingTable) : Phase → Half
  | .frontPorch => tt.vFrontPorch
  | .sync => tt.vSyncWidth
  | .backPorch => tt.vBackPorch
  | .active => tt.vActiveLines

/-- `F`, the ticks of a frame (R102). -/
def frameTicks (tt : TimingTable) : Nat :=
  tt.vFrontPorch.toNat + tt.vSyncWidth.toNat + tt.vBackPorch.toNat + tt.vActiveLines.toNat

/-- `h_total`, the pixel clocks of a line (R272). -/
def lineTicks (tt : TimingTable) : Nat :=
  tt.hFrontPorch.toNat + tt.hSyncWidth.toNat + tt.hBackPorch.toNat + tt.hActivePixels.toNat

/-- `advance` (R103, R104): the next line, at the end of a phase the next phase, at the end of ACTIVE the next frame. -/
def advance (s : State) : State :=
  if s.vctr.toNat + 1 = (phaseLen s.tt s.phase).toNat then
    { s with
      frame := if s.phase = .active then s.frame + 1 else s.frame
      phase := Phase.next s.phase
      vctr := 0 }
  else { s with vctr := s.vctr + 1 }

/-- A timing table is valid: no phase and no horizontal length is zero (R25). -/
def TimingTable.valid (tt : TimingTable) : Bool :=
  1 ≤ tt.vFrontPorch.toNat && 1 ≤ tt.vSyncWidth.toNat && 1 ≤ tt.vBackPorch.toNat && 1 ≤ tt.vActiveLines.toNat
    && 1 ≤ tt.hFrontPorch.toNat && 1 ≤ tt.hSyncWidth.toNat && 1 ≤ tt.hBackPorch.toNat
    && 1 ≤ tt.hActivePixels.toNat

end Sys2Proof.Machine
end

