-- ==== Sys2Proof/Machine/Island.lean ====
section
/-! DEFINITION. The audio data-island subsystem on the IRQ side and at INIT: where a stream stands, the streams computed
at INIT, the clock-regeneration stamp, and the choice of an island source (43_audio.md). -/

namespace Sys2Proof.Machine

/-- `stream(isl)` (R124): the memory object an island source stands in and its offset there. -/
def streamPlace (p : Params) : IslandSrc → MemObj × Nat
  | .null pol => (.static, (StaticId.null pol).index * streamBytes p)
  | .avi => (.static, StaticId.avi.index * streamBytes p)
  | .ainfo => (.static, StaticId.ainfo.index * streamBytes p)
  | .acr => (.static, StaticId.acr.index * streamBytes p)
  | .pair h pol => (.pair h, pol.toNat * streamBytes p)

/-- The parameter `Templates` for a timing table. -/
def templateSetFor (p : Params) (tt : TimingTable) : Option TemplateSet :=
  p.templates.find? fun t => t.table == tt

/-- `hs_level_island` (R176): the level of horizontal sync in the island segment, at the polarity of the table (R24), asserted
there or not as `Templates` fixes it (log entry 14). -/
def hsLevelIsland (p : Params) (tt : TimingTable) : Bool :=
  if ((templateSetFor p tt).map TemplateSet.hsyncInIsland).getD false then tt.hSyncPolarity else !tt.hSyncPolarity

/-- `island_encode` of a packet for a polarity index, at the levels the mode gives it (R106, R174, R176). -/
def encodeIsland (p : Params) (tt : TimingTable) (bytes : List Byte) (pol : Bool) : Nat :=
  Config.islandEncode bytes (vsLevel tt pol) (hsLevelIsland p tt)

/-- The stamp formula (R183), exact, the quotient's floor. -/
def stampOf (pixelClock rate constant : Nat) : Nat :=
  pixelClock * constant / (rate * 128)

/-- `(CTS, NVAL)` where the configured audio is valid (R184): the rate code is defined, there is a pixel clock, and the
stamp fits its field. -/
def audioValues (p : Params) (tt : TimingTable) (code : Half) : Option (BitVec 20 × BitVec 20) :=
  match p.rates.find? (fun r => r.code == code) with
  | none => none
  | some r =>
      let stamp := stampOf tt.pixelClockHz.toNat r.rate r.constant.toNat
      if 0 < tt.pixelClockHz.toNat ∧ 1 ≤ stamp ∧ stamp ≤ 2 ^ 20 - 1 then
        some (BitVec.ofNat 20 stamp, r.constant)
      else none

/-- INIT computes `AUDIO_OK`, `CTS` and `NVAL` from the latched table and rate code (R183, R184). -/
def setAudioValues (s : State) : State :=
  match audioValues s.params s.tt s.rateCode with
  | some (cts, n) => { s with audioOk := true, cts := cts, nval := n }
  | none => { s with audioOk := false, cts := 0, nval := 0 }

/-- INIT computes the static streams (R176 to R178), `ACR_S` only when `AUDIO_OK = 1`. -/
def buildStreams (s : State) : State :=
  let s1 := s.setStatic (.null false) (encodeIsland s.params s.tt nullPacket false)
  let s2 := s1.setStatic (.null true) (encodeIsland s.params s.tt nullPacket true)
  let s3 := s2.setStatic .avi (encodeIsland s.params s.tt (aviPacket s.params) false)
  let s4 := s3.setStatic .ainfo (encodeIsland s.params s.tt (ainfoPacket s.params) false)
  if s.audioOk then s4.setStatic .acr (encodeIsland s.params s.tt (acrPacket s.params s.cts s.nval) false) else s4

/-- `island_select(g)` (R173): the gate first, then the packets of FRONT_PORCH lines 0 and 1, then a pair, else null. A
pair taken goes to `PFREEQ` at once (R175). -/
def islandSelect (g : Bool) (s : State) : Except FaultCode (State × IslandSrc) :=
  if !g then .ok (s, .null s.vsAsserted)
  else if s.phase = .frontPorch ∧ s.vctr = 0 then
    .ok (s, if s.frame.toNat % 2 = 0 then .avi else .ainfo)
  else if s.phase = .frontPorch ∧ s.vctr = 1 then .ok (s, .acr)
  else
    match s.pvalidq with
    | [] => .ok (s, .null s.vsAsserted)
    | p :: rest =>
        match pushPairFree p { s with pvalidq := rest } with
        | .ok t => .ok (t, .pair p s.vsAsserted)
        | .error c => .error c

end Sys2Proof.Machine
end

