-- ==== Sys2Proof/Machine/Audio.lean ====
section
/-! DEFINITION. The audio commands (43_audio.md rules R180, R181, R185, R186). -/

namespace Sys2Proof.Machine

/-- The rule of `SET_AUDIO_ENABLED` (R180). -/
def setAudioEnabledRule (b : Byte) (s : State) : Reply :=
  if 1 < b.toNat then s.refuse .badArg 0
  else if b = 1 ∧ s.audioOk = false then s.refuse .audioUnavailable 0
  else .done .ok 0 { s with audioEn := b == 1 }

/-- `SET_AUDIO_ENABLED` (R180). -/
def execSetAudioEnabled (b : Byte) (s : State) : Host.Outcome State Fault Refusal :=
  command (whenLive (setAudioEnabledRule b)) s

/-- The rule of `ACQUIRE_FREE_AUDIO_SLOT` (R181): the pair already reserved, or the head of `PFREEQ`, or a hold while
there is none. -/
def acquireFreeAudioSlotRule (s : State) : Reply :=
  match s.prodPair, s.pfreeq with
  | some p, _ => .done .ok (p.setWidth 32) s
  | none, [] => .hold
  | none, p :: rest => .done .ok (p.setWidth 32) { s with pfreeq := rest, prodPair := some p }

/-- `ACQUIRE_FREE_AUDIO_SLOT` (R181). -/
def execAcquireFreeAudioSlot (s : State) : Host.Outcome State Fault Refusal :=
  command (whenLive acquireFreeAudioSlotRule) s

/-- The pair a submit writes, and the machine with it taken (R185): the reserved one, else the head of `PFREEQ`. -/
def takePair (s : State) : Option (Handle × State) :=
  match s.prodPair, s.pfreeq with
  | some p, _ => some (p, s)
  | none, [] => none
  | none, p :: rest => some (p, { s with pfreeq := rest })

/-- The installed program names `PAIR(p, ·)`: the lanes have not read that stream yet (R186). -/
def State.namedByProg (s : State) (p : Handle) : Bool :=
  match s.prog with
  | some { island := .pair q _, .. } => q == p
  | some _ => false
  | none => false

/-- The four frames of a submit: `D0`..`D3` of the issuing port (R185). -/
def State.frames (s : State) : List Word :=
  [s.issuer.d0, s.issuer.d1, s.issuer.d2, s.issuer.d3]

/-- Both polarity encodings of a packet go to a pair (R185). -/
def encodePair (s : State) (p : Handle) (bytes : List Byte) : State :=
  (s.setEnc p false (encodeIsland s.params s.tt bytes false)).setEnc p true
    (encodeIsland s.params s.tt bytes true)

/-- The rule of `SUBMIT_AUDIO_SAMPLES` (R185). -/
def submitAudioSamplesRule (s : State) : Reply :=
  if s.audioOk = false then s.refuse .falseResult 0
  else
    match takePair s with
    | none => s.refuse .falseResult 0
    | some (p, t) =>
        if t.namedByProg p then .raise .islandRace
        else
          let u := encodePair t p (audioSamplePacket t.params t.frames t.audFrameIdx)
          match pushPairValid p
              { u with audFrameIdx := BitVec.ofNat 8 ((u.audFrameIdx.toNat + 4) % 192), prodPair := none } with
          | .ok v => .done .ok 1 v
          | .error c => .raise c

/-- `SUBMIT_AUDIO_SAMPLES` (R185). -/
def execSubmitAudioSamples (s : State) : Host.Outcome State Fault Refusal :=
  command (whenLive submitAudioSamplesRule) s

end Sys2Proof.Machine
end

