-- ==== Sys2Proof/Machine/Builder.lean ====
section
/-! DEFINITION. The scanline descriptor builder (41_builder.md): templates, patches, the release pipeline, the class of an
ACTIVE line, acquisition, template selection, install, and the line program of a tick. -/

namespace Sys2Proof.Machine

/-! ## Templates (R122) -/

/-- The segments `Templates` gives for a timing table. -/
def segmentsFor (p : Params) (tt : TimingTable) : List Segment :=
  ((templateSetFor p tt).map TemplateSet.segments).getD []

/-- The fixed fields of `TPL[t][l][s]`. -/
def segmentOf (p : Params) (tt : TimingTable) (t : Template) (l s : Nat) : Segment :=
  (segmentsFor p tt).getD (tplIndex p t l s) { src := 0, count := 0, symbol := 0 }

/-- The `PATCH` field of a descriptor (R89, R122): segment 1 takes the island source, segment 3 of `T_ACTIVE` the active
source on every lane but `SYNC_LANE`. -/
def patchKind (t : Template) (l s : Nat) : BitVec 2 :=
  if s = 1 then 2
  else if s = 3 ∧ t = .active ∧ l ≠ Config.syncLane then 1
  else 0

/-- `TPL[t][l][s]` as INIT builds it (R122). -/
def buildDescriptor (p : Params) (tt : TimingTable) (t : Template) (l s : Nat) : Descriptor :=
  { src := (segmentOf p tt t l s).src
    count := (segmentOf p tt t l s).count
    incr := patchKind t l s != 0
    irq := s == 3 && l == Config.syncLane
    patch := patchKind t l s
    lane := BitVec.ofNat 8 l
    last := s == 3 }

/-- The templates in the order of their ids (R90). -/
def allTemplates : List Template :=
  [.active, .blanked, .vsync, .vnosync, .error]

/-- A descriptor is written to `TPLMEM`, its four words in order (R89). -/
def writeDescriptor (s : State) (t : Template) (l seg : Nat) (d : Descriptor) : State :=
  (List.range 4).foldl
    (fun s i => s.write .tplmem (16 * tplIndex s.params t l seg + 4 * i) 4 (d.word i).toNat) s

/-- `TPL <- build(Templates, TT)` (R122, R234). -/
def buildTemplates (s : State) : State :=
  allTemplates.foldl (fun s t =>
    (List.range s.params.l).foldl (fun s l =>
      (List.range 4).foldl (fun s seg =>
        writeDescriptor s t l seg (buildDescriptor s.params s.tt t l seg)) s) s) s

/-! ## Patches (R123, R124) -/

/-- `TPL[t][l][s].SRC <- a` (R124). -/
def patchSrc (s : State) (t : Template) (l seg : Nat) (a : Word) : State :=
  s.write .tplmem (16 * tplIndex s.params t l seg) 4 a.toNat

/-- The lanes that carry pixels, in increasing order (R124). -/
def pictureLanes (p : Params) : List Nat :=
  (List.range p.l).filter (· ≠ Config.syncLane)

/-- `patch_active(h)` (R124): the `j`-th picture lane reads `BUF[h]` from `j * LANE_STRIDE` on. -/
def patchActive (h : Handle) (s : State) : State :=
  (pictureLanes s.params).zipIdx.foldl
    (fun s lj => patchSrc s .active lj.1 3 (Config.addr (.buf h) (lj.2 * s.params.laneStride))) s

/-- `patch_island(t, isl)` (R124): lane `l` reads the stream from `l * ISL_STRIDE` on. -/
def patchIsland (t : Template) (isl : IslandSrc) (s : State) : State :=
  (List.range s.params.l).foldl
    (fun s l => patchSrc s t l 1
      (Config.addr (streamPlace s.params isl).1 ((streamPlace s.params isl).2 + l * s.params.islStride))) s

/-! ## Release pipeline (R125) -/

/-- `release_step` (R125). -/
def releaseStep (s : State) : Except FaultCode State :=
  match s.rel1 with
  | none => .ok { s with rel1 := s.rel0, rel0 := none }
  | some h =>
      match pushFree h s with
      | .ok t => .ok { t with rel1 := t.rel0, rel0 := none }
      | .error c => .error c

/-! ## The class of an ACTIVE line (R126) -/

/-- What `classify` says of a line (R126). -/
structure LineClass where
  inBand   : Bool
  blanked  : Bool
  src      : Nat
  groupEnd : Bool
  deriving DecidableEq, Repr

/-- `classify` for ACTIVE line `a` (R126). -/
def classifyLine (s : State) (a : Nat) : LineClass :=
  let inBand := decide (s.bandFirst.toNat ≤ a ∧ a < s.bandEnd.toNat)
  let rel := a - s.bandFirst.toNat
  { inBand := inBand
    blanked := !inBand || (s.scanlineEmu == 1 && rel % 2 == 1)
    src := rel / s.k.toNat
    groupEnd := inBand && (rel % s.k.toNat == s.k.toNat - 1 || a + 1 == s.bandEnd.toNat) }

/-- `classify` for the current line (R126). -/
def classify (s : State) : LineClass :=
  classifyLine s s.vctr.toNat

/-! ## Acquisition (R128) -/

/-- `acquire(src)`, the first argument the iterations left (R128). -/
def acquire : Nat → Nat → State → Except FaultCode State
  | 0, _, s => .ok s
  | n + 1, src, s =>
      match s.validq with
      | [] => .ok s
      | h :: rest =>
          if (s.tokenOf h).toNat = src then .ok { s with validq := rest, cur := some h }
          else
            match pushFree h { s with validq := rest } with
            | .ok t => acquire n src { t with lateCnt := t.lateCnt + 1 }
            | .error c => .error c

/-! ## Template selection (R129) -/

/-- What `video_select` returns, with the state it leaves. -/
structure Selection where
  state    : State
  template : Template
  buf      : Option Handle

/-- At the end of a group the buffer held moves to the release pipeline (R129, R131). -/
def endGroup (c : LineClass) (s : State) : State :=
  if c.groupEnd then
    match s.cur with
    | some h => { s with rel0 := some h, cur := none }
    | none => s
  else s

/-- An unblanked line with the buffer of its group, or the fallback line counted as an error (R129, R130). -/
def showLine (c : LineClass) (s : State) : Selection :=
  match s.cur with
  | some h => { state := endGroup c s, template := .active, buf := some h }
  | none => { state := endGroup c { s with errCnt := s.errCnt + 1 }, template := .error, buf := none }

/-- `video_select` (R129). -/
def videoSelect (s : State) : Except FaultCode Selection :=
  match s.phase with
  | .sync => .ok { state := s, template := .vsync, buf := none }
  | .frontPorch | .backPorch => .ok { state := s, template := .vnosync, buf := none }
  | .active =>
      if (classify s).blanked then
        .ok { state := endGroup (classify s) s, template := .blanked, buf := none }
      else
        match s.cur with
        | some _ => .ok (showLine (classify s) s)
        | none =>
            match acquire s.params.n (classify s).src s with
            | .ok t => .ok (showLine (classify s) t)
            | .error c => .error c

/-! ## Install (R132) -/

/-- The line program for the current position (R38, R132). -/
def programOf (s : State) (t : Template) (buf : Option Handle) (isl : IslandSrc) : LineProgram :=
  { template := t, buf := buf, island := isl, phase := s.phase, vctr := s.vctr, frame := s.frame }

/-- `emit Line(p)` (R137). -/
def emitLine (p : LineProgram) (s : State) : State :=
  { s with env := { s.env with trace := s.env.trace ++ [p] } }

/-- `install(tpl, buf, isl)` (R132). -/
def install (t : Template) (buf : Option Handle) (isl : IslandSrc) (s : State) : State :=
  let s1 := match buf with
    | some h => patchActive h s
    | none => s
  let s2 := patchIsland t isl s1
  emitLine (programOf s t buf isl) { s2 with prog := some (programOf s t buf isl) }

/-- Steps 4 to 7 of TICK, and the same four of START: the gate sampled once (R172), the template, the island, the
install (R108, R236). -/
def buildLine (s : State) : Except FaultCode State :=
  match videoSelect s with
  | .error c => .error c
  | .ok v =>
      match islandSelect s.audioEn v.state with
      | .error c => .error c
      | .ok (t, isl) => .ok (install v.template v.buf isl t)

end Sys2Proof.Machine
end

