-- ==== Sys2Proof/Machine/Lifecycle.lean ====
section
/-! DEFINITION. The lifecycle, configuration and diagnostic commands (45_lifecycle.md). -/

namespace Sys2Proof.Machine

/-! ## Configuration and diagnostics -/

/-- The rule of `WRITE_CFG` (R231). -/
def writeCfgRule (idx : Byte) (v : Half) (s : State) : Reply :=
  if 4 < idx.toNat then s.refuse .badArg 0 else .done .ok 0 (s.setCfg idx v)

/-- `WRITE_CFG` (R231). -/
def execWriteCfg (idx : Byte) (v : Half) (s : State) : Host.Outcome State Fault Refusal :=
  command (writeCfgRule idx v) s

/-- The rule of `READ_DIAG` (R239). -/
def readDiagRule (sel : Byte) (s : State) : Reply :=
  match s.diag sel with
  | none => s.refuse .badArg 0
  | some v => .done .ok v s

/-- `READ_DIAG` (R239), the one command accepted while HALTED (R265). -/
def execReadDiag (sel : Byte) (s : State) : Host.Outcome State Fault Refusal :=
  .next (s.answer (readDiagRule sel s))

/-! ## INIT -/

/-- `ModeTable(mode)` (R9). -/
def modeTable (p : Params) (mode : Byte) : Option TimingTable :=
  (p.modes.find? fun md => md.id == mode).map Mode.table

/-- INIT's check of the configuration registers against a valid table (R233, checks 3 to 6). -/
def cfgAccepted (s : State) (tt : TimingTable) : Bool :=
  1 ≤ s.cfgRepeatK.toNat && s.cfgRepeatK.toNat ≤ 255
    && s.cfgBandFirst.toNat < tt.vActiveLines.toNat
    && s.cfgBandFirst.toNat + s.cfgBandCount.toNat ≤ tt.vActiveLines.toNat
    && s.cfgScanlineEmu.toNat ≤ 1

/-- The table of the mode INIT accepts (R233): a known mode, a valid table, an accepted configuration. -/
def acceptedTable (s : State) (mode : Byte) : Option TimingTable :=
  match modeTable s.params mode with
  | none => none
  | some tt => if TimingTable.valid tt && cfgAccepted s tt then some tt else none

/-- `alloc_ok` for the coming INIT: the platform's draw, a free value where none is given (R9, log entry 5). -/
def State.allocDraw (s : State) : Bool :=
  match s.env.allocDraws with
  | b :: _ => b
  | [] => Config.allocOk s.env.drawNo

/-- INIT latches the mode's table and the configuration registers (R234, R42). -/
def latchConfig (tt : TimingTable) (s : State) : State :=
  { s with
    tt := tt
    k := s.cfgRepeatK
    bandFirst := s.cfgBandFirst
    bandEnd := if s.cfgBandCount = 0 then tt.vActiveLines else s.cfgBandFirst + s.cfgBandCount
    scanlineEmu := s.cfgScanlineEmu
    rateCode := s.cfgSampleRate }

/-- INIT allocates the memory objects and the pools (R234). `TOKEN` gets free values (log entry 6); nothing is written
in a fresh object, so contents, encodings and ring slots are `unwritten`. -/
def allocatePools (s : State) : State :=
  { s with
    allocated := true
    freeq := (List.range s.params.n).map (BitVec.ofNat 8), validq := []
    pfreeq := (List.range s.params.m).map (BitVec.ofNat 8), pvalidq := []
    cur := none, rel0 := none, rel1 := none, prodBufs := [], prodPair := none
    token := (List.range s.params.n).map (Config.freeToken s.env.drawNo)
    filled := List.replicate s.params.n false
    mem := Memory.empty
    ringWr := 0, ringRd := 0
    env := { s.env with allocDraws := s.env.allocDraws.tail, drawNo := s.env.drawNo + 1 } }

/-- INIT clears the position, the counters, the gate and the interrupt registers (R234). -/
def clearRun (s : State) : State :=
  { s with
    prog := none, laneLine := none
    phase := .frontPorch, vctr := 0, frame := 0
    lateCnt := 0, errCnt := 0
    audioEn := false
    audFrameIdx := 0
    irqCore := 0xFF, irqEn := false }

/-- INIT's effects (R234): the steps touch different state, but for the templates and streams, which read the latched
table and the audio values. -/
def initEffects (tt : TimingTable) (s : State) : State :=
  buildStreams (setAudioValues (buildTemplates (clearRun (allocatePools (latchConfig tt s)))))

/-- The rule of `INIT` (R232). -/
def initRule (mode : Byte) (s : State) : Reply :=
  if s.lifecycle = .uninit ∨ s.lifecycle = .destroyed then
    match acceptedTable s mode with
    | none => s.refuse .badArg 0
    | some tt =>
        if s.allocDraw then
          let t := initEffects tt s
          .done .ok (BitVec.ofNat 32 t.audioOk.toNat) { t with lifecycle := .initialized }
        else .raise .poolExhausted
  else s.refuse .wrongState 0

/-- `INIT` (R232). -/
def execInit (mode : Byte) (s : State) : Host.Outcome State Fault Refusal :=
  command (initRule mode) s

/-! ## REGISTER_IRQ, START -/

/-- The lifecycle states `REGISTER_IRQ` and `START` accept (R235, R236). -/
def State.atRest (s : State) : Bool :=
  s.lifecycle == .initialized || s.lifecycle == .stopped

/-- The rule of `REGISTER_IRQ` (R235). -/
def registerIrqRule (core : Byte) (s : State) : Reply :=
  if s.atRest then
    if Config.ncores ≤ core.toNat then s.refuse .badArg 0
    else .done .ok 0 { s with irqCore := core }
  else s.refuse .wrongState 0

/-- `REGISTER_IRQ` (R235). -/
def execRegisterIrq (core : Byte) (s : State) : Host.Outcome State Fault Refusal :=
  command (registerIrqRule core) s

/-- START's effects (R236): the first line, built at (FRONT_PORCH, 0) without `advance` (R107). -/
def startEffects (s : State) : Except FaultCode State :=
  match buildLine { s with phase := .frontPorch, vctr := 0 } with
  | .ok t => .ok { t with irqEn := true, lifecycle := .started }
  | .error c => .error c

/-- The rule of `START` (R236). -/
def startRule (s : State) : Reply :=
  if s.atRest then
    if s.irqCore = 0xFF then s.refuse .wrongState 0
    else if s.issuingCore ≠ s.irqCore then s.refuse .wrongContext 0
    else okOrRaise (startEffects s)
  else s.refuse .wrongState 0

/-- `START` (R236). -/
def execStart (s : State) : Host.Outcome State Fault Refusal :=
  command startRule s

/-! ## STOP, DESTROY -/

/-- The lanes are aborted: no program is streamed or waits (R138). -/
def abortLanes (s : State) : State :=
  { s with prog := none, laneLine := none }

/-- The buffers the IRQ agent holds, in the order STOP drains them (R237). -/
def State.inFlight (s : State) : List Handle :=
  s.rel1.toList ++ s.rel0.toList ++ s.cur.toList

/-- `stop_steps` (R237): interrupt off, lanes aborted, then the buffers in flight and the submitted buffers to `FREEQ`
and the submitted pairs to `PFREEQ`. -/
def stopSteps (s : State) : Except FaultCode State :=
  let s1 := abortLanes { s with irqEn := false }
  (pushFreeAll (s1.inFlight ++ s1.validq)
      { s1 with rel1 := none, rel0 := none, cur := none, validq := [] }).bind fun s2 =>
    pushPairFreeAll s2.pvalidq { s2 with pvalidq := [] }

/-- The rule of `STOP` (R237). -/
def stopRule (s : State) : Reply :=
  if s.lifecycle ≠ .started then .done .ok 0 s
  else if s.issuingCore ≠ s.irqCore then .raise .teardownWrongContext
  else
    match stopSteps s with
    | .ok t => .done .ok 0 { t with lifecycle := .stopped }
    | .error c => .raise c

/-- `STOP` (R237). -/
def execStop (s : State) : Host.Outcome State Fault Refusal :=
  command stopRule s

/-- DESTROY frees the memory objects and the queues (R238); what is not allocated is empty (log entry 8). -/
def freePools (s : State) : State :=
  { s with
    allocated := false
    freeq := [], validq := [], pfreeq := [], pvalidq := []
    token := [], filled := []
    mem := Memory.empty
    ringWr := 0, ringRd := 0
    irqCore := 0xFF, irqEn := false, audioEn := false
    lifecycle := .destroyed }

/-- The rule of `DESTROY` (R238). -/
def destroyRule (s : State) : Reply :=
  if s.lifecycle = .uninit ∨ s.lifecycle = .destroyed then .done .ok 0 s
  else if s.irqCore ≠ 0xFF ∧ s.issuingCore ≠ s.irqCore then .raise .teardownWrongContext
  else if s.prodBufs ≠ [] ∨ s.prodPair ≠ none then .raise .reclaimWhileOwned
  else
    match (if s.lifecycle = .started then stopSteps s else .ok s) with
    | .ok t => .done .ok 0 (freePools t)
    | .error c => .raise c

/-- `DESTROY` (R238). -/
def execDestroy (s : State) : Host.Outcome State Fault Refusal :=
  command destroyRule s

end Sys2Proof.Machine
end

