-- ==== Sys2Proof/Machine/Queue.lean ====
section
/-! DEFINITION. The PRODUCER's commands on the scanline buffer queue (42_queue.md). -/

namespace Sys2Proof.Machine

/-- The rule of `ACQUIRE_FREE_BUFFER` (R151): the head of `FREEQ`, or a hold while there is none. -/
def acquireFreeBufferRule (s : State) : Reply :=
  match s.freeq with
  | [] => .hold
  | h :: rest =>
      .done .ok (h.setWidth 32)
        (State.setFilled { s with freeq := rest, prodBufs := insertHandle h s.prodBufs } h false)

/-- `ACQUIRE_FREE_BUFFER` (R151). -/
def execAcquireFreeBuffer (s : State) : Host.Outcome State Fault Refusal :=
  command (whenLive acquireFreeBufferRule) s

/-- The rule of `FILL_BUFFER` (R152): the content, the payload of the command, goes to a buffer the PRODUCER owns. -/
def fillBufferRule (h : Handle) (s : State) : Reply :=
  if s.params.n ≤ h.toNat then s.refuse .badArg 0
  else if h ∉ s.prodBufs then .raise .ownership
  else .done .ok 0 ((s.write (.buf h) 0 s.params.bufBytes s.bus.cmd.content).setFilled h true)

/-- `FILL_BUFFER` (R152). -/
def execFillBuffer (h : Handle) (s : State) : Host.Outcome State Fault Refusal :=
  command (whenLive (fillBufferRule h)) s

/-- The rule of `SUBMIT_VALID_BUFFER` (R153): a filled buffer the PRODUCER owns goes to `VALIDQ` under its token. -/
def submitValidBufferRule (h : Handle) (token : Half) (s : State) : Reply :=
  if s.params.n ≤ h.toNat ∨ s.aSrc ≤ token.toNat then s.refuse .badArg 0
  else if h ∉ s.prodBufs then .raise .ownership
  else if s.isFilled h = false then .raise .unfilledSubmit
  else okOrRaise (pushValid h { s.setToken h token with prodBufs := removeHandle h s.prodBufs })

/-- `SUBMIT_VALID_BUFFER` (R153). -/
def execSubmitValidBuffer (h : Handle) (token : Half) (s : State) : Host.Outcome State Fault Refusal :=
  command (whenLive (submitValidBufferRule h token)) s

end Sys2Proof.Machine
end

