-- ==== Sys2Proof/Machine/Ring.lean ====
section
/-! DEFINITION. The commands of the audio sample ring (44_ring.md). The fences of R70 need nothing more: each command is
one atomic step (R71). -/

namespace Sys2Proof.Machine

/-- The rule of `RING_PUSH` (R212): a full ring drops the frame, else it is written and published. -/
def ringPushRule (s : State) : Reply :=
  if s.writeSize = 0 then s.refuse .falseResult 0
  else .done .ok 1 { s.setRingSlot s.ringWr s.issuer.d0 with ringWr := ringSlotAt s.params s.ringWr 1 }

/-- `RING_PUSH` (R212). -/
def execRingPush (s : State) : Host.Outcome State Fault Refusal :=
  command (whenLive ringPushRule) s

/-- The rule of `RING_WRITE_SLOT` (R213). -/
def ringWriteSlotRule (k : Half) (s : State) : Reply :=
  if s.writeSize.toNat ≤ k.toNat then .raise .ringOverrun
  else .done .ok 0 (s.setRingSlot (ringSlotAt s.params s.ringWr k) s.issuer.d0)

/-- `RING_WRITE_SLOT` (R213). -/
def execRingWriteSlot (k : Half) (s : State) : Host.Outcome State Fault Refusal :=
  command (whenLive (ringWriteSlotRule k)) s

/-- The rule of `RING_ADVANCE_WRITE` (R214). -/
def ringAdvanceWriteRule (n : Half) (s : State) : Reply :=
  if s.writeSize.toNat < n.toNat then .raise .ringOverrun
  else .done .ok 0 { s with ringWr := ringSlotAt s.params s.ringWr n }

/-- `RING_ADVANCE_WRITE` (R214). -/
def execRingAdvanceWrite (n : Half) (s : State) : Host.Outcome State Fault Refusal :=
  command (whenLive (ringAdvanceWriteRule n)) s

/-- The rule of `RING_WRITE_SIZE` (R215). -/
def ringWriteSizeRule (s : State) : Reply :=
  .done .ok (s.writeSize.setWidth 32) s

/-- `RING_WRITE_SIZE` (R215). -/
def execRingWriteSize (s : State) : Host.Outcome State Fault Refusal :=
  command (whenLive ringWriteSizeRule) s

/-- The rule of `RING_POP_AVAILABLE` (R216): it does not consume. -/
def ringPopAvailableRule (s : State) : Reply :=
  .done .ok (s.readSize.setWidth 32) s

/-- `RING_POP_AVAILABLE` (R216). -/
def execRingPopAvailable (s : State) : Host.Outcome State Fault Refusal :=
  command (whenLive ringPopAvailableRule) s

/-- The rule of `RING_READ_SLOT` (R217): a slot never written has no value, and reading it raises. -/
def ringReadSlotRule (k : Half) (s : State) : Reply :=
  if s.readSize.toNat ≤ k.toNat then .raise .ringUnderrun
  else
    match s.ringSlot (ringSlotAt s.params s.ringRd k) with
    | none => .raise .unwrittenSlot
    | some f => .done .ok f s

/-- `RING_READ_SLOT` (R217). -/
def execRingReadSlot (k : Half) (s : State) : Host.Outcome State Fault Refusal :=
  command (whenLive (ringReadSlotRule k)) s

/-- The rule of `RING_ADVANCE_READ` (R218). -/
def ringAdvanceReadRule (n : Half) (s : State) : Reply :=
  if s.readSize.toNat < n.toNat then .raise .ringUnderrun
  else .done .ok 0 { s with ringRd := ringSlotAt s.params s.ringRd n }

/-- `RING_ADVANCE_READ` (R218). -/
def execRingAdvanceRead (n : Half) (s : State) : Host.Outcome State Fault Refusal :=
  command (whenLive (ringAdvanceReadRule n)) s

end Sys2Proof.Machine
end

