-- ==== Sys2Proof/Machine/Tick.lean ====
section
/-! DEFINITION. The event `TICK` (R108). -/

namespace Sys2Proof.Machine

/-- The steps of `TICK` in the order of R108; a push on a full FIFO, which the pool invariants exclude, raises. -/
def tickSteps (s : State) : Except FaultCode State :=
  match releaseStep (advance { s with laneLine := s.prog }) with
  | .ok t => buildLine t
  | .error c => .error c

/-- `TICK` (R108): one atomic step of the IRQ agent, with no result on any port. -/
def execTick (s : State) : Host.Outcome State Fault Refusal :=
  .next (match tickSteps s with
    | .ok t => t
    | .error c => s.halt c)

/-- The LANES agent raises TICK only in these states (R109). -/
def State.ticking (s : State) : Bool :=
  s.lifecycle == .started && s.irqEn && s.prog.isSome

end Sys2Proof.Machine
end

