-- ==== Sys2Proof/Machine/Dispatch.lean ====
section
/-! DEFINITION. One arm per command (R83). -/

namespace Sys2Proof.Machine

def exec (i : Instr) (s : State) : Host.Outcome State Fault Refusal :=
  match i with
  | .init mode => Sys2Proof.Machine.execInit mode s
  | .registerIrq core => Sys2Proof.Machine.execRegisterIrq core s
  | .start => Sys2Proof.Machine.execStart s
  | .stop => Sys2Proof.Machine.execStop s
  | .destroy => Sys2Proof.Machine.execDestroy s
  | .writeCfg index value => Sys2Proof.Machine.execWriteCfg index value s
  | .acquireFreeBuffer => Sys2Proof.Machine.execAcquireFreeBuffer s
  | .fillBuffer h => Sys2Proof.Machine.execFillBuffer h s
  | .submitValidBuffer h token => Sys2Proof.Machine.execSubmitValidBuffer h token s
  | .acquireFreeAudioSlot => Sys2Proof.Machine.execAcquireFreeAudioSlot s
  | .submitAudioSamples => Sys2Proof.Machine.execSubmitAudioSamples s
  | .setAudioEnabled b => Sys2Proof.Machine.execSetAudioEnabled b s
  | .ringPopAvailable => Sys2Proof.Machine.execRingPopAvailable s
  | .ringReadSlot k => Sys2Proof.Machine.execRingReadSlot k s
  | .ringAdvanceRead n => Sys2Proof.Machine.execRingAdvanceRead n s
  | .ringPush => Sys2Proof.Machine.execRingPush s
  | .ringWriteSize => Sys2Proof.Machine.execRingWriteSize s
  | .ringWriteSlot k => Sys2Proof.Machine.execRingWriteSlot k s
  | .ringAdvanceWrite n => Sys2Proof.Machine.execRingAdvanceWrite n s
  | .readDiag selector => Sys2Proof.Machine.execReadDiag selector s
  | .tick => Sys2Proof.Machine.execTick s

end Sys2Proof.Machine
end

