-- ==== Sys2Proof/Machine/Issue.lean ====
section
/-! DEFINITION. How a step comes about: whose turn it is, the command that turn takes and its delivery to a port, the
decoding of its word, and the placing of a word for the next step (R69, R80, R84, R265; log entries 2, 3, 4). -/

namespace Sys2Proof.Machine

/-! ## Turns -/

/-- Whose step comes next: the first turn given, else a free value (log entry 2). -/
def State.turn (s : State) : Turn :=
  match s.env.turns with
  | t :: _ => t
  | [] => Config.arbiter s.env.clock

/-- A turn is taken: the input is consumed and the count of steps advances. -/
def State.takeTurn (s : State) : State :=
  { s with env := { s.env with turns := s.env.turns.tail, clock := s.env.clock + 1 } }

/-- The turn of a port's issuing agent. -/
def PortId.turn : PortId → Turn
  | .control => .control
  | .producer => .producer
  | .source => .source

/-! ## Issued commands -/

/-- The commands issued on a port and not yet taken, in issue order (R80). -/
def State.issued (s : State) : PortId → List Command
  | .control => s.env.issuedControl
  | .producer => s.env.issuedProducer
  | .source => s.env.issuedSource

/-- The machine with the commands issued on a port replaced. -/
def State.setIssued (s : State) (p : PortId) (cs : List Command) : State :=
  match p with
  | .control => { s with env := { s.env with issuedControl := cs } }
  | .producer => { s with env := { s.env with issuedProducer := cs } }
  | .source => { s with env := { s.env with issuedSource := cs } }

/-- A word the decoder rejects: `S(HALTED, FAULT)` while HALTED (R265 check 1), else `S(ILLEGAL, 0)` (R85). -/
def rejectWord (s : State) : Host.Outcome State Fault Refusal :=
  command (fun s => s.refuse .illegal 0) s

/-- A command is delivered to its port, decoded, and executed (R80, R84, R265). -/
def runCommand (p : PortId) (c : Command) (s : State) : Host.Outcome State Fault Refusal :=
  match decode (.port p) c.word with
  | .ok i => exec i (s.latch p c)
  | .error _ => rejectWord (s.latch p c)

/-- The step of a port's issuing agent: the command the port holds is tried again (it completes, or holds on and nothing
changes), else the next issued one is taken; with neither, the agent does nothing (R80). That a held command looks at the
state of its agent's next turn, so that a DESTROY and an INIT before it let it complete from the new pools, is the model's
choice (log entry 4). -/
def portStep (p : PortId) (s : State) : Host.Outcome State Fault Refusal :=
  match (s.port p).held with
  | some c => runCommand p c s
  | none =>
      match s.issued p with
      | [] => .next s
      | c :: rest => runCommand p c (s.setIssued p rest)

/-- The step of the LANES agent: TICK, executed by the IRQ agent at once, where R109 admits it. -/
def lanesStep (s : State) : Host.Outcome State Fault Refusal :=
  if s.ticking then exec .tick s else .next s

/-- The allocation result is drawn (R9; log entry 5). -/
def Env.nextDraw (e : Env) : Env :=
  { e with allocDraws := e.allocDraws.tail, drawNo := e.drawNo + 1 }

/-- Power-on reset (R290, R291): every register and memory object as R50 says, held commands ended without a result. The
parameters stay, and so does what stands outside the ENGINE (log entry 17); the draw of an INIT whose allocation failed is
used up (R9; log entry 5). -/
def State.powerOn (s : State) : State :=
  { State.resetWith s.params with env := if s.fault = FaultCode.poolExhausted.code then s.env.nextDraw else s.env }

/-- The step of a turn. -/
def turnStep (t : Turn) (s : State) : Host.Outcome State Fault Refusal :=
  match t with
  | .control => portStep .control s
  | .producer => portStep .producer s
  | .source => portStep .source s
  | .lanes => lanesStep s
  | .powerOn => .next s.powerOn

/-! ## Placing a word for the next step -/

/-- A command with this word as core 0 would issue it on a port, the port's data registers as they are. -/
def commandFor (s : State) (p : PortId) (w : Word) : Command :=
  { core := 0, word := w, d0 := (s.port p).d0, d1 := (s.port p).d1, d2 := (s.port p).d2, d3 := (s.port p).d3,
    content := 0 }

/-- A command of a pseudo-instruction's expansion (R88) as a core issues it on a port. -/
def pseudoCommand (s : State) (p : PortId) (core : CoreId) (c : PseudoCommand) : Command :=
  let plain := { commandFor s p (encode c.instr) with core := core, content := c.content.getD 0 }
  match c.frames with
  | none => plain
  | some (d0, d1, d2, d3) => { plain with d0 := d0, d1 := d1, d2 := d2, d3 := d3 }

/-- A turn comes first. -/
def State.withTurn (s : State) (t : Turn) : State :=
  { s with env := { s.env with turns := t :: s.env.turns } }

/-- A word is the next command of a port, and that port's agent is next; a port that is busy is freed. -/
def placeOnPort (s : State) (p : PortId) (w : Word) : State :=
  let t := s.setPort p { s.port p with held := none }
  (t.setIssued p (commandFor s p w :: s.issued p)).withTurn (PortId.turn p)

/-- TICK is next: the state is one in which the LANES agent raises it (R109; log entry 19). -/
def placeTick (s : State) : State :=
  State.withTurn
    { s with
      lifecycle := .started
      irqEn := true
      prog := some (s.prog.getD (programOf s .vnosync none (.null s.vsAsserted))) }
    .lanes

/-- A word of the opcode table is what the next step runs, on the first origin that may issue it (log entry 3). -/
def placeWord (s : State) (nbits w : Nat) : State :=
  let word : Word := BitVec.ofNat 32 (w % 2 ^ nbits)
  match originOf word with
  | some (.port p) => placeOnPort s p word
  | some .lanes => placeTick s
  | none => placeOnPort s .control word

end Sys2Proof.Machine
end

