-- ==== Sys2Proof/Machine/Step.lean ====
section
/-! DEFINITION. One step of the machine: the turn that is next takes its step (R69). -/

namespace Sys2Proof.Machine

/-- One atomic step of one agent (R69). -/
def step (s : State) : Host.Outcome State Fault Refusal :=
  turnStep s.turn s.takeTurn

/-- `s` with an instruction of the opcode table placed so that the next step runs it (log entry 3). -/
def State.withFetchWord (s : State) (nbits w : Nat) : State :=
  placeWord s nbits w

end Sys2Proof.Machine
end

