-- ==== Sys2Proof/Safety.lean ====
section
/-! DEFINITION. What holds in a safe run of the ENGINE: the pool invariants (R32, R33), the lifecycle (R26, R43, R44), the
position (R102), the ring offsets (R35), the memory's form, and the line a held buffer is shown on (R127, R131). With them the
terms of the statements: a hold, the bytes of a packet, patched fields, runs of ticks. -/

namespace Sys2Proof.Machine

/-- The handles 0 to `n - 1`. -/
def handlesBelow (n : Nat) : List Handle :=
  (List.range n).map (BitVec.ofNat 8)

/-- The scanline buffers in the five sets of R32: free, valid, current, pending release, producer. -/
def State.owned (s : State) : List Handle :=
  s.freeq ++ s.validq ++ s.cur.toList ++ s.rel0.toList ++ s.rel1.toList ++ s.prodBufs

/-- The pairs in the three sets of R33: free, valid, producer. -/
def State.pairsOwned (s : State) : List Handle :=
  s.pfreeq ++ s.pvalidq ++ s.prodPair.toList

/-- The pool invariants (R32, R33): each handle stands in exactly one place, once; every buffer has its token and its
filled flag (R31). -/
abbrev PoolInv (s : State) : Prop :=
  s.params.legal = true ∧
    (s.allocated = true →
      s.owned.Perm (handlesBelow s.params.n) ∧ s.pairsOwned.Perm (handlesBelow s.params.m) ∧
        s.token.length = s.params.n ∧ s.filled.length = s.params.n)

/-- What the lifecycle state says of the rest (R26, R27, R38, R43, R44, R173, R237). -/
abbrev LifecycleInv (s : State) : Prop :=
  (s.live = true → s.allocated = true) ∧
    (s.lifecycle = .uninit ∨ s.lifecycle = .destroyed → s.allocated = false) ∧
    (s.irqEn = true ↔ s.lifecycle = .started) ∧
    (s.prog ≠ none ↔ s.lifecycle = .started) ∧
    (s.laneLine ≠ none → s.lifecycle = .started) ∧
    (s.lifecycle = .started → s.irqCore ≠ 0xFF) ∧
    (s.fault = 0 ↔ s.lifecycle ≠ .halted) ∧
    (s.lifecycle ≠ .started ∧ s.lifecycle ≠ .halted → s.cur = none ∧ s.rel0 = none ∧ s.rel1 = none) ∧
    (s.audioEn = true → s.audioOk = true)

/-- The latched configuration is one INIT accepts (R25, R233). -/
abbrev ConfigValid (s : State) : Prop :=
  TimingTable.valid s.tt = true ∧ 1 ≤ s.k.toNat ∧ s.k.toNat ≤ 255 ∧
    s.bandFirst.toNat < s.bandEnd.toNat ∧ s.bandEnd.toNat ≤ s.tt.vActiveLines.toNat ∧ s.scanlineEmu.toNat ≤ 1

/-- The position invariant of R102, with the configuration it rests on. -/
abbrev PositionInv (s : State) : Prop :=
  (s.allocated = true → ConfigValid s) ∧
    (s.lifecycle = .started → s.vctr.toNat < (phaseLen s.tt s.phase).toNat)

/-- The ring offsets stay below `C` (R35). -/
abbrev RingInv (s : State) : Prop :=
  s.params.legal = true ∧ s.ringWr.toNat < s.params.c ∧ s.ringRd.toNat < s.params.c

/-- A buffer held in `CUR` is held on an in-band ACTIVE line of its own group, before the group's last (R127, R131). -/
abbrev DisplayInv (s : State) : Prop :=
  s.lifecycle = .started → ∀ h ∈ s.cur,
    s.phase = .active ∧ (classify s).inBand = true ∧ (classify s).groupEnd = false ∧
      (s.tokenOf h).toNat = (classify s).src

/-- The configuration registers INIT accepts for a table (R233, checks 2 to 6). -/
abbrev InitAccepts (s : State) (tt : TimingTable) : Prop :=
  TimingTable.valid tt = true ∧ 1 ≤ s.cfgRepeatK.toNat ∧ s.cfgRepeatK.toNat ≤ 255 ∧
    s.cfgBandFirst.toNat < tt.vActiveLines.toNat ∧
    s.cfgBandFirst.toNat + s.cfgBandCount.toNat ≤ tt.vActiveLines.toNat ∧ s.cfgScanlineEmu.toNat ≤ 1

/-- The bus address lane `l` reads an island source from (R124). -/
def islandAddr (p : Params) (isl : IslandSrc) (l : Nat) : Word :=
  Config.addr (streamPlace p isl).1 ((streamPlace p isl).2 + l * p.islStride)

/-- The bytes of the island-source fields of a template (R123): word 0 of segment 1 of each lane (their place in `TPLMEM`:
log entry 25). -/
abbrev inIslandField (p : Params) (t : Template) (o : MemObj) (off : Nat) : Prop :=
  o = .tplmem ∧ ∃ l, l < p.l ∧ 16 * tplIndex p t l 1 ≤ off ∧ off < 16 * tplIndex p t l 1 + 4

/-- The bytes of the active-source fields (R123): word 0 of segment 3 of `T_ACTIVE` on each lane but `SYNC_LANE` (their
place in `TPLMEM`: log entry 25). -/
abbrev inActiveField (p : Params) (o : MemObj) (off : Nat) : Prop :=
  o = .tplmem ∧ ∃ l, 0 < l ∧ l < p.l ∧ 16 * tplIndex p .active l 3 ≤ off ∧ off < 16 * tplIndex p .active l 3 + 4

/-- The bytes of a ring slot (R212). -/
abbrev inRingSlot (i : Half) (o : MemObj) (off : Nat) : Prop :=
  o = .ring ∧ 4 * i.toNat ≤ off ∧ off < 4 * i.toNat + 4

/-- A command that holds (R11, R80): the port keeps it, and its result and data registers stay; nothing else changes. -/
abbrev Holds (s t : State) : Prop :=
  t = { s with control := t.control, producer := t.producer, source := t.source } ∧
    t.port s.bus.port = { s.port s.bus.port with held := some s.bus.cmd } ∧
    ∀ p, p ≠ s.bus.port → t.port p = s.port p

/-- The 36 bytes of a packet: its header and its four subpackets, each with its error-correction byte (R187). -/
abbrev PacketBytes (p : Params) (hb sb0 sb1 sb2 sb3 pkt : List Byte) : Prop :=
  pkt = hb ++ [ecc8 p hb] ++ (sb0 ++ [ecc8 p sb0]) ++ (sb1 ++ [ecc8 p sb1]) ++ (sb2 ++ [ecc8 p sb2]) ++
    (sb3 ++ [ecc8 p sb3])

/-- The seven bytes of an audio sample subpacket (R191): the left sample in bits 15..0 of the frame, the right in 31..16,
`V = U = 0`, the channel status `C`, and with the bits of its side each sample holds an even number of ones (R192). -/
abbrev SampleBytes (frame : Word) (c : Bool) (sb : List Byte) : Prop :=
  ∃ st : Byte,
    sb = [0, frame.extractLsb' 0 8, frame.extractLsb' 8 8, 0, frame.extractLsb' 16 8, frame.extractLsb' 24 8, st] ∧
    st.getLsbD 0 = false ∧ st.getLsbD 1 = false ∧ st.getLsbD 4 = false ∧ st.getLsbD 5 = false ∧
    st.getLsbD 2 = c ∧ st.getLsbD 6 = c ∧
    ((List.range 16).countP (fun i => frame.getLsbD i) + (List.range 4).countP (fun i => st.getLsbD i)) % 2 = 0 ∧
    ((List.range 16).countP (fun i => frame.getLsbD (16 + i)) + (List.range 4).countP (fun i => st.getLsbD (4 + i))) % 2 = 0

/-- The audio sample packet of four frames, the first at place `idx` of the 192-frame block (R190, R191, R193). -/
abbrev SamplePacket (p : Params) (f0 f1 f2 f3 : Word) (idx : Nat) (pkt : List Byte) : Prop :=
  ∃ (flags : Byte) (sb0 sb1 sb2 sb3 : List Byte),
    PacketBytes p [0x02, 0x0F, flags] sb0 sb1 sb2 sb3 pkt ∧
    flags.extractLsb' 0 4 = 0 ∧ (∀ k, k < 4 → flags.getLsbD (4 + k) = decide ((idx + k) % 192 = 0)) ∧
    SampleBytes f0 (p.csBits.getLsbD (idx % 192)) sb0 ∧ SampleBytes f1 (p.csBits.getLsbD ((idx + 1) % 192)) sb1 ∧
    SampleBytes f2 (p.csBits.getLsbD ((idx + 2) % 192)) sb2 ∧ SampleBytes f3 (p.csBits.getLsbD ((idx + 3) % 192)) sb3

/-- The clock regeneration packet: four subpackets alike, the nibbles and bytes of `CTS` and `N` (R189). -/
abbrev StampPacket (p : Params) (cts nval : BitVec 20) (pkt : List Byte) : Prop :=
  ∃ c2 c1 c0 n2 n1 n0 : Byte,
    c2.toNat * 2 ^ 16 + c1.toNat * 2 ^ 8 + c0.toNat = cts.toNat ∧
    n2.toNat * 2 ^ 16 + n1.toNat * 2 ^ 8 + n0.toNat = nval.toNat ∧
    let sb : List Byte := [0, c2, c1, c0, n2, n1, n0]
    PacketBytes p [0x01, 0x00, 0x00] sb sb sb sb pkt

/-- An InfoFrame: `PB0` makes all its bytes but the error correction sum to 0 modulo 256, `PB1` on is the payload, and the
bytes beyond it are 0 (R195). -/
abbrev InfoPacket (p : Params) (header payload pkt : List Byte) : Prop :=
  ∃ pb0 : Byte,
    ((header ++ pb0 :: payload).map BitVec.toNat).sum % 256 = 0 ∧
    let pb := pb0 :: payload ++ List.replicate (27 - payload.length) 0
    PacketBytes p header (pb.take 7) ((pb.drop 7).take 7) ((pb.drop 14).take 7) (pb.drop 21) pkt

/-- One step of a started ENGINE after another: `n` ticks, with nothing between them. -/
def ticks : Nat → State → Option State
  | 0, s => some s
  | n + 1, s =>
      match exec .tick s with
      | .next t => ticks n t
      | .fault _ => none
      | .refused _ => none

end Sys2Proof.Machine
end

