-- ==== Sys2Proof/Certificates/Slice0/Obligations.lean ====
section
/-! DEFINITION. The statements for the provers. A result is written `S(st, v)` in the spec and `reply st v` here; the state
before the reply is a record update of `s`, so each such statement says the whole frame of its command. -/

open Sys2Proof Sys2Proof.Machine

/-! ## Encoding and decoding -/

/-- R83, R87: the words of one command of each family, the operands read where the format puts them. -/
def Obligations.SpecWordsDecode : Prop :=
  decode (.port .control) 0x00000101 = .ok (.init 1) ∧
  decode (.port .control) 0x00000102 = .ok (.registerIrq 1) ∧
  decode (.port .control) 0x00020006 = .ok (.writeCfg 0 2) ∧
  decode (.port .producer) 0x00000010 = .ok .acquireFreeBuffer ∧
  decode (.port .producer) 0x00050312 = .ok (.submitValidBuffer 3 5) ∧
  decode (.port .producer) 0x00000115 = .ok (.setAudioEnabled 1) ∧
  decode (.port .producer) 0x00040022 = .ok (.ringAdvanceRead 4) ∧
  decode (.port .source) 0x00000028 = .ok .ringPush ∧
  decode (.port .source) 0x00000230 = .ok (.readDiag 2) ∧
  decode .lanes 0x00000040 = .ok .tick ∧
  encode (.submitValidBuffer 3 5) = 0x00050312

/-- R81 to R84, R87: the decoder reads back every command from the word the encoder gives it, with every operand, at each
origin that may issue it. -/
def Obligations.DecodeInvertsEncode : Prop :=
  ∀ (o : Origin) (i : Instr), i.wellFormed o = true → decode o (encode i) = .ok i

/-- R94: on a port, a word is the encoding of exactly one command that port may issue, and decodes to it, or it is the
encoding of none, and is illegal. -/
def Obligations.EveryWordIsOneCommandOrIllegal : Prop :=
  ∀ (p : PortId) (w : Word),
    (∃! i : Instr, decode (.port p) w = .ok i ∧ encode i = w ∧ i.wellFormed (.port p) = true ∧ i ≠ .tick) ∨
    ((∃ e, decode (.port p) w = .error e) ∧ ∀ i : Instr, i.wellFormed (.port p) = true → encode i ≠ w)

/-- R85: the reserved opcodes are exactly those listed, and a word that is reserved or illegal in another way completes with
`S(ILLEGAL, 0)` and changes nothing else. -/
def Obligations.IllegalWordsCompleteAtOnce : Prop :=
  (∀ (o : Origin) (w : Word),
    decode o w = .error .reservedOpcode ↔
      (opField w).toNat = 0x00 ∨ (0x07 ≤ (opField w).toNat ∧ (opField w).toNat ≤ 0x0F) ∨
      (0x16 ≤ (opField w).toNat ∧ (opField w).toNat ≤ 0x1F) ∨
      (0x23 ≤ (opField w).toNat ∧ (opField w).toNat ≤ 0x27) ∨
      (0x2C ≤ (opField w).toNat ∧ (opField w).toNat ≤ 0x2F) ∨
      (0x31 ≤ (opField w).toNat ∧ (opField w).toNat ≤ 0x3F) ∨ 0x41 ≤ (opField w).toNat) ∧
  ∀ (p : PortId) (c : Command) (s : State) (e : Reject),
    s.lifecycle ≠ .halted → decode (.port p) c.word = .error e →
      runCommand p c s = .next ((s.latch p c).reply .illegal 0)

/-! ## Steps -/

/-- R80, R109: on the turn of a port's agent, the command the port holds, or else the oldest one issued on it, is executed
as its word decodes; its data registers are the port's, the turn is taken, the issued command is taken. A word that does not
decode completes with `S(ILLEGAL, 0)`, while HALTED with `S(HALTED, FAULT)` (R85, R265). With no command, the step only takes
the turn. On the LANES agent's turn, TICK runs in exactly the states that admit it. The turns are the
model's (log entries 2, 3, 4). -/
def Obligations.StepRunsDecodedCommand : Prop :=
  (∀ (p : PortId) (s : State), s.turn = PortId.turn p →
    let rejected (u : State) : State :=
      if s.lifecycle = .halted then u.reply .halted (s.fault.setWidth 32) else u.reply .illegal 0
    (∀ c i, (s.port p).held = some c → decode (.port p) c.word = .ok i →
      step s = exec i (s.takeTurn.latch p c)) ∧
    (∀ c rest i, (s.port p).held = none → s.issued p = c :: rest → decode (.port p) c.word = .ok i →
      step s = exec i ((s.takeTurn.setIssued p rest).latch p c)) ∧
    (∀ c e, (s.port p).held = some c → decode (.port p) c.word = .error e →
      step s = .next (rejected (s.takeTurn.latch p c))) ∧
    (∀ c rest e, (s.port p).held = none → s.issued p = c :: rest → decode (.port p) c.word = .error e →
      step s = .next (rejected ((s.takeTurn.setIssued p rest).latch p c))) ∧
    ((s.port p).held = none → s.issued p = [] → step s = .next s.takeTurn)) ∧
  ∀ s : State, s.turn = .lanes →
    (s.lifecycle = .started ∧ s.irqEn = true ∧ s.prog ≠ none → step s = exec .tick s.takeTurn) ∧
    (¬ (s.lifecycle = .started ∧ s.irqEn = true ∧ s.prog ≠ none) → step s = .next s.takeTurn)

/-- R265: the common checks in their order, for a command delivered to a port. -/
def Obligations.CommonChecksComeFirst : Prop :=
  ∀ (p : PortId) (c : Command) (s : State),
    (s.lifecycle = .halted → (∀ sel, decode (.port p) c.word ≠ .ok (.readDiag sel)) →
      runCommand p c s = .next ((s.latch p c).reply .halted (s.fault.setWidth 32))) ∧
    (s.lifecycle ≠ .halted → (∀ i, decode (.port p) c.word ≠ .ok i) →
      runCommand p c s = .next ((s.latch p c).reply .illegal 0)) ∧
    (∀ i, decode (.port p) c.word = .ok i → runCommand p c s = exec i (s.latch p c))

/-- R86: what a result is, and the status codes. -/
def Obligations.CompletionWritesTheResult : Prop :=
  (∀ (s : State) (st : Status) (v : Word),
    ((s.reply st v).port s.bus.port).resStatus = st.code ∧ ((s.reply st v).port s.bus.port).resValue = v ∧
    ((s.reply st v).port s.bus.port).held = none ∧
    ∀ p, p ≠ s.bus.port → (s.reply st v).port p = s.port p) ∧
  Status.ok.code = 0x00 ∧ Status.falseResult.code = 0x01 ∧ Status.illegal.code = 0x02 ∧
  Status.wrongState.code = 0x03 ∧ Status.wrongContext.code = 0x04 ∧ Status.badArg.code = 0x05 ∧
  Status.audioUnavailable.code = 0x06 ∧ Status.halted.code = 0x07

/-! ## Reset -/

/-- R50: the register values after power-on reset, and the refusal of the commands on what is not allocated. That what is not
allocated is held as `allocated = false` with no byte of memory written is the model's choice (log entries 8, 9). The latched
configuration is not mentioned: its values at reset are the model's (log entry 7). -/
def Obligations.ResetValues : Prop :=
  let r := State.reset
  (r.lifecycle = .uninit ∧ r.fault = 0 ∧ r.phase = .frontPorch ∧ r.vctr = 0 ∧ r.frame = 0 ∧
    r.lateCnt = 0 ∧ r.errCnt = 0 ∧ r.audioEn = false ∧ r.audioOk = false ∧ r.cts = 0 ∧ r.nval = 0 ∧
    r.irqCore = 0xFF ∧ r.irqEn = false ∧
    r.cfgRepeatK = 1 ∧ r.cfgBandFirst = 0 ∧ r.cfgBandCount = 0 ∧ r.cfgScanlineEmu = 0 ∧ r.cfgSampleRate = 1 ∧
    r.cur = none ∧ r.rel0 = none ∧ r.rel1 = none ∧ r.prog = none ∧ r.laneLine = none ∧ r.prodPair = none ∧
    r.prodBufs = [] ∧ r.allocated = false ∧ r.audFrameIdx = 0 ∧ (∀ o off, r.byteAt o off = none)) ∧
  (∀ p, (r.port p).d0 = 0 ∧ (r.port p).d1 = 0 ∧ (r.port p).d2 = 0 ∧ (r.port p).d3 = 0 ∧
    (r.port p).resStatus = 0 ∧ (r.port p).resValue = 0) ∧
  ∀ i : Instr, i.wellFormed (.port .producer) = true ∨ i.wellFormed (.port .source) = true →
    (∀ sel, i ≠ .readDiag sel) → exec i r = .next (r.reply .wrongState 0)

/-- R290, R291: power-on reset, from any state and HALTED among them, gives back the state after reset; the parameters and
what stands outside the ENGINE stay (log entries 5, 17). Nothing else leaves HALTED, and `FAULT` then keeps its value. -/
def Obligations.OnlyPowerOnLeavesHalted : Prop :=
  ∀ s : State,
    (s.turn = .powerOn → ∃ (draws : List Bool) (n : Nat), step s = .next
      { State.resetWith s.params with env := { s.takeTurn.env with allocDraws := draws, drawNo := n } }) ∧
    (s.turn ≠ .powerOn → s.lifecycle = .halted →
      ∃ t : State, step s = .next t ∧ t.lifecycle = .halted ∧ t.fault = s.fault)

/-! ## Faults -/

/-- R264, R263: what raising a fault leaves, by a command and by a TICK, which has no port and writes no result of its own.
Everything but the fault state, the interrupt enable, the lanes and the ports' results is as before. -/
def Obligations.RaiseHaltsTheEngine : Prop :=
  (∀ (s : State) (c : FaultCode),
    let t := s.raise c
    t = { s with fault := if s.fault = 0 then c.code else s.fault, lifecycle := .halted, irqEn := false, prog := none,
                 laneLine := none, control := t.control, producer := t.producer, source := t.source } ∧
    t.port s.bus.port = { s.port s.bus.port with
      resStatus := Status.halted.code, resValue := c.code.setWidth 32, held := none } ∧
    (∀ p, p ≠ s.bus.port → (s.port p).held = none → t.port p = s.port p) ∧
    ∀ p, p ≠ s.bus.port → (s.port p).held ≠ none → t.port p = { s.port p with
      resStatus := Status.halted.code, resValue := t.fault.setWidth 32, held := none }) ∧
  (∀ s t : State, s.lifecycle ≠ .halted → exec .tick s = .next t → t.lifecycle = .halted →
    t = { s with fault := if s.fault = 0 then FaultCode.queueOverflow.code else s.fault, lifecycle := .halted,
                 irqEn := false, prog := none, laneLine := none,
                 control := t.control, producer := t.producer, source := t.source } ∧
    (∀ p, (s.port p).held = none → t.port p = s.port p) ∧
    ∀ p, (s.port p).held ≠ none → t.port p = { s.port p with
      resStatus := Status.halted.code, resValue := t.fault.setWidth 32, held := none }) ∧
  FaultCode.poolExhausted.code = 0x01 ∧ FaultCode.ownership.code = 0x02 ∧ FaultCode.queueOverflow.code = 0x03 ∧
  FaultCode.ringOverrun.code = 0x04 ∧ FaultCode.ringUnderrun.code = 0x05 ∧ FaultCode.unwrittenSlot.code = 0x06 ∧
  FaultCode.reclaimWhileOwned.code = 0x07 ∧ FaultCode.teardownWrongContext.code = 0x08 ∧
  FaultCode.islandRace.code = 0x09 ∧ FaultCode.unfilledSubmit.code = 0x0A

/-- R44: `FAULT` is written only by raising a fault, which writes a code of R263 to it while it is 0, and is cleared only by
reset. -/
def Obligations.FaultIsSticky : Prop :=
  ∀ s t : State, step s = .next t → s.turn ≠ .powerOn → t.fault ≠ s.fault →
    s.fault = 0 ∧ t.lifecycle = .halted ∧ ∃ c : FaultCode, t.fault = c.code

/-- R86, R265: a command that completes with a status other than `OK` and `HALTED` changes no state, and its value is 0. -/
def Obligations.RefusalsChangeNothing : Prop :=
  ∀ (i : Instr) (s t : State), i ≠ .tick → exec i s = .next t → (t.port s.bus.port).held = none →
    (t.port s.bus.port).resStatus ≠ Status.ok.code → (t.port s.bus.port).resStatus ≠ Status.halted.code →
      ∃ st, t = s.reply st 0

/-- R240: the commands while the pools do not exist, and while the ENGINE is halted. -/
def Obligations.CommandsOutsideTheLiveStates : Prop :=
  ∀ s : State,
    (s.lifecycle = .uninit ∨ s.lifecycle = .destroyed →
      (∀ i : Instr, i.wellFormed (.port .producer) = true ∨ i.wellFormed (.port .source) = true →
        (∀ sel, i ≠ .readDiag sel) → exec i s = .next (s.reply .wrongState 0)) ∧
      exec .start s = .next (s.reply .wrongState 0) ∧
      (∀ c, exec (.registerIrq c) s = .next (s.reply .wrongState 0)) ∧
      exec .stop s = .next (s.reply .ok 0) ∧ exec .destroy s = .next (s.reply .ok 0) ∧
      (∀ idx v, 4 < idx.toNat ∨ exec (.writeCfg idx v) s = .next ((s.setCfg idx v).reply .ok 0)) ∧
      ∀ m, ∃ t : State, exec (.init m) s = .next t ∧ (t.port s.bus.port).resStatus ≠ Status.wrongState.code) ∧
    (s.lifecycle = .halted → ∀ (i : Instr) (p : PortId), i.wellFormed (.port p) = true → (∀ sel, i ≠ .readDiag sel) →
      exec i s = .next (s.reply .halted (s.fault.setWidth 32)))

/-! ## Configuration, diagnostics, lifecycle -/

/-- R231, R93: `WRITE_CFG` in every state but HALTED. -/
def Obligations.WriteCfgResult : Prop :=
  ∀ (s : State) (v : Half), s.lifecycle ≠ .halted →
    exec (.writeCfg 0 v) s = .next (({ s with cfgRepeatK := v } : State).reply .ok 0) ∧
    exec (.writeCfg 1 v) s = .next (({ s with cfgBandFirst := v } : State).reply .ok 0) ∧
    exec (.writeCfg 2 v) s = .next (({ s with cfgBandCount := v } : State).reply .ok 0) ∧
    exec (.writeCfg 3 v) s = .next (({ s with cfgScanlineEmu := v } : State).reply .ok 0) ∧
    exec (.writeCfg 4 v) s = .next (({ s with cfgSampleRate := v } : State).reply .ok 0) ∧
    ∀ idx : Byte, 4 < idx.toNat → exec (.writeCfg idx v) s = .next (s.reply .badArg 0)

/-- R239, R47, R92: `READ_DIAG` in every lifecycle state, and the codes of the lifecycle states and the phases (R26, R22). -/
def Obligations.ReadDiagResult : Prop :=
  (∀ s : State,
    exec (.readDiag 0) s = .next (s.reply .ok s.lateCnt) ∧
    exec (.readDiag 1) s = .next (s.reply .ok s.errCnt) ∧
    exec (.readDiag 2) s = .next (s.reply .ok s.frame) ∧
    exec (.readDiag 3) s = .next (s.reply .ok (if s.audioEn then 1 else 0)) ∧
    exec (.readDiag 4) s = .next (s.reply .ok (s.lifecycle.code.setWidth 32)) ∧
    (∃ v : Word, exec (.readDiag 5) s = .next (s.reply .ok v) ∧ v.extractLsb' 16 16 = s.vctr ∧
      v.extractLsb' 0 2 = Phase.code s.phase ∧ v.extractLsb' 2 14 = 0) ∧
    exec (.readDiag 6) s = .next (s.reply .ok (s.fault.setWidth 32)) ∧
    exec (.readDiag 7) s = .next (s.reply .ok (if s.audioOk then 1 else 0)) ∧
    exec (.readDiag 8) s = .next (s.reply .ok (s.cts.setWidth 32)) ∧
    exec (.readDiag 9) s = .next (s.reply .ok (s.nval.setWidth 32)) ∧
    exec (.readDiag 10) s = .next (s.reply .ok (s.irqCore.setWidth 32)) ∧
    ∀ sel : Byte, 10 < sel.toNat → exec (.readDiag sel) s = .next (s.reply .badArg 0)) ∧
  Lifecycle.uninit.code = 0 ∧ Lifecycle.initialized.code = 1 ∧ Lifecycle.started.code = 2 ∧
  Lifecycle.stopped.code = 3 ∧ Lifecycle.destroyed.code = 4 ∧ Lifecycle.halted.code = 5 ∧
  Phase.code .frontPorch = 0 ∧ Phase.code .sync = 1 ∧ Phase.code .backPorch = 2 ∧ Phase.code .active = 3

/-- R232, R233, R25: how `INIT` ends, by the state, the mode, the configuration registers and the allocation, whose result is
an input or a free value of the model (log entry 5); and the tables that are valid. -/
def Obligations.InitOutcomes : Prop :=
  (∀ (s : State) (mode : Byte),
    (s.lifecycle = .initialized ∨ s.lifecycle = .started ∨ s.lifecycle = .stopped →
      exec (.init mode) s = .next (s.reply .wrongState 0)) ∧
    (s.lifecycle = .uninit ∨ s.lifecycle = .destroyed →
      (modeTable s.params mode = none → exec (.init mode) s = .next (s.reply .badArg 0)) ∧
      ∀ tt, modeTable s.params mode = some tt →
        (TimingTable.valid tt = false ∨ s.cfgRepeatK.toNat = 0 ∨ 255 < s.cfgRepeatK.toNat ∨
            tt.vActiveLines.toNat ≤ s.cfgBandFirst.toNat ∨
            tt.vActiveLines.toNat < s.cfgBandFirst.toNat + s.cfgBandCount.toNat ∨ 1 < s.cfgScanlineEmu.toNat →
          exec (.init mode) s = .next (s.reply .badArg 0)) ∧
        (InitAccepts s tt → s.allocDraw = false → exec (.init mode) s = .next (s.raise .poolExhausted)) ∧
        (InitAccepts s tt → s.allocDraw = true →
          ∃ t : State, exec (.init mode) s = .next (t.reply .ok (if t.audioOk then 1 else 0)) ∧
            t.lifecycle = .initialized ∧ t.bus = s.bus))) ∧
  ∀ tt : TimingTable, TimingTable.valid tt = true ↔
    tt.vFrontPorch ≠ 0 ∧ tt.vSyncWidth ≠ 0 ∧ tt.vBackPorch ≠ 0 ∧ tt.vActiveLines ≠ 0 ∧
      tt.hFrontPorch ≠ 0 ∧ tt.hSyncWidth ≠ 0 ∧ tt.hBackPorch ≠ 0 ∧ tt.hActivePixels ≠ 0

/-- R234: the registers, the pools and the unwritten memory `INIT` leaves, and what it does not touch. -/
def Obligations.InitBuildsTheEngine : Prop :=
  ∀ (s : State) (mode : Byte) (tt : TimingTable), s.lifecycle = .uninit ∨ s.lifecycle = .destroyed →
    modeTable s.params mode = some tt → InitAccepts s tt → s.allocDraw = true →
    ∃ t : State, exec (.init mode) s = .next (t.reply .ok (if t.audioOk then 1 else 0)) ∧
      t = { s with
            lifecycle := .initialized
            phase := .frontPorch, vctr := 0, frame := 0, lateCnt := 0, errCnt := 0
            audioEn := false, audioOk := t.audioOk, cts := t.cts, nval := t.nval, audFrameIdx := 0
            irqCore := 0xFF, irqEn := false
            tt := tt, k := s.cfgRepeatK, bandFirst := s.cfgBandFirst
            bandEnd := s.cfgBandFirst +
              (if s.cfgBandCount ≠ 0 then s.cfgBandCount else tt.vActiveLines - s.cfgBandFirst)
            scanlineEmu := s.cfgScanlineEmu, rateCode := s.cfgSampleRate
            allocated := true
            freeq := handlesBelow s.params.n, validq := [], pfreeq := handlesBelow s.params.m, pvalidq := []
            cur := none, rel0 := none, rel1 := none, prodBufs := [], prodPair := none
            token := t.token, filled := t.filled, mem := t.mem
            ringWr := 0, ringRd := 0, prog := none, laneLine := none
            env := { s.env with allocDraws := t.env.allocDraws, drawNo := t.env.drawNo } } ∧
      (∀ h, t.isFilled h = false) ∧ (∀ i, t.written i = false) ∧
      (∀ h off, t.byteAt (.buf h) off = none) ∧ (∀ q off, t.byteAt (.pair q) off = none) ∧
      (∀ off, t.byteAt .ring off = none)

/-- R183, R184: `AUDIO_OK`, `CTS` and `NVAL` after `INIT`. -/
def Obligations.InitComputesTheStamp : Prop :=
  ∀ (s t : State) (mode : Byte) (tt : TimingTable), s.lifecycle = .uninit ∨ s.lifecycle = .destroyed →
    modeTable s.params mode = some tt → exec (.init mode) s = .next t → t.lifecycle = .initialized →
      (∀ r ∈ s.params.rates.find? (fun r => r.code == s.cfgSampleRate),
        let stamp := tt.pixelClockHz.toNat * r.constant.toNat / (r.rate * 128)
        (0 < tt.pixelClockHz.toNat → 1 ≤ stamp → stamp ≤ 2 ^ 20 - 1 →
          t.audioOk = true ∧ t.cts.toNat = stamp ∧ t.nval = r.constant) ∧
        (tt.pixelClockHz.toNat = 0 ∨ stamp = 0 ∨ 2 ^ 20 - 1 < stamp →
          t.audioOk = false ∧ t.cts = 0 ∧ t.nval = 0)) ∧
      (s.params.rates.find? (fun r => r.code == s.cfgSampleRate) = none →
        t.audioOk = false ∧ t.cts = 0 ∧ t.nval = 0)

/-- R36, R176, R177, R178, R24: the static streams `INIT` encodes, the bytes of their packets (R188, R189, R195 to R197: general
knowledge, log entry 12), and `hs_level_island` (its form: log entry 14); a stream is read modulo its size in memory (log
entry 10). -/
def Obligations.InitEncodesTheStaticStreams : Prop :=
  ∀ (s t : State) (mode : Byte), s.lifecycle = .uninit ∨ s.lifecycle = .destroyed →
    exec (.init mode) s = .next t → t.lifecycle = .initialized →
    let size := 256 ^ streamBytes s.params
    let level (pol : Bool) := if pol then t.tt.vSyncPolarity else !t.tt.vSyncPolarity
    let hs := hsLevelIsland s.params t.tt
    (∀ set ∈ s.params.templates.find? (fun set => set.table == t.tt),
      hs = if set.hsyncInIsland then t.tt.hSyncPolarity else !t.tt.hSyncPolarity) ∧
    (∀ pol, t.staticStream (.null pol) =
      some (Config.islandEncode (List.replicate 36 0) (level pol) hs % size)) ∧
    (∃ pkt, InfoPacket s.params [0x82, 0x02, 0x0D] (s.params.aviPb.take 13) pkt ∧
      t.staticStream .avi = some (Config.islandEncode pkt (level false) hs % size)) ∧
    (∃ pkt, InfoPacket s.params [0x84, 0x01, 0x0A] (s.params.ainfoPb.take 10) pkt ∧
      t.staticStream .ainfo = some (Config.islandEncode pkt (level false) hs % size)) ∧
    (t.audioOk = true → ∃ pkt, StampPacket s.params t.cts t.nval pkt ∧
      t.staticStream .acr = some (Config.islandEncode pkt (level false) hs % size)) ∧
    (t.audioOk = false → ∀ off, 4 * streamBytes s.params ≤ off → t.byteAt .static off = none)

/-- R122, R89: every descriptor of every template as `INIT` builds it from the parameter `Templates`. The form and the indexing
of `Templates`, and that a patchable source begins as `Templates` gives it, are the model's choice (log entry 14). -/
def Obligations.InitBuildsTheTemplates : Prop :=
  ∀ (s t : State) (mode : Byte), s.params.legal = true → s.lifecycle = .uninit ∨ s.lifecycle = .destroyed →
    exec (.init mode) s = .next t → t.lifecycle = .initialized →
    ∀ (tpl : Template) (l seg : Nat), l < s.params.l → seg < 4 →
      let g := segmentOf s.params t.tt tpl l seg
      let island := seg = 1
      let picture := seg = 3 ∧ tpl = .active ∧ l ≠ 0
      t.tplWord tpl l seg 0 = some g.src ∧
      (∃ w1, t.tplWord tpl l seg 1 = some w1 ∧ w1.extractLsb' 0 16 = g.count ∧
        (w1.getLsbD 16 = true ↔ island ∨ picture) ∧ (w1.getLsbD 17 = true ↔ seg = 3 ∧ l = 0) ∧
        w1.extractLsb' 18 2 = (if island then 2 else if picture then 1 else 0) ∧ w1.extractLsb' 20 12 = 0) ∧
      t.tplWord tpl l seg 2 = some (BitVec.ofNat 32 l) ∧
      t.tplWord tpl l seg 3 = some (if seg = 3 then 1 else 0)

/-- R235: `REGISTER_IRQ`. -/
def Obligations.RegisterIrqResult : Prop :=
  ∀ (s : State) (c : Byte),
    (s.lifecycle = .initialized ∨ s.lifecycle = .stopped →
      (c.toNat < 2 → exec (.registerIrq c) s = .next (({ s with irqCore := c } : State).reply .ok 0)) ∧
      (2 ≤ c.toNat → exec (.registerIrq c) s = .next (s.reply .badArg 0))) ∧
    (s.lifecycle = .uninit ∨ s.lifecycle = .started ∨ s.lifecycle = .destroyed →
      exec (.registerIrq c) s = .next (s.reply .wrongState 0))

/-- R236, R107: `START`: its refusals, the first line program, and the one field it patches, whose place in `TPLMEM` is the
model's (log entry 25). -/
def Obligations.StartResult : Prop :=
  ∀ s : State,
    (s.lifecycle = .uninit ∨ s.lifecycle = .started ∨ s.lifecycle = .destroyed →
      exec .start s = .next (s.reply .wrongState 0)) ∧
    (s.lifecycle = .initialized ∨ s.lifecycle = .stopped →
      (s.irqCore = 0xFF → exec .start s = .next (s.reply .wrongState 0)) ∧
      (s.irqCore ≠ 0xFF → s.issuingCore ≠ s.irqCore → exec .start s = .next (s.reply .wrongContext 0)) ∧
      (s.irqCore ≠ 0xFF → s.issuingCore = s.irqCore →
        let isl : IslandSrc :=
          if s.audioEn then (if s.frame.toNat % 2 = 0 then .avi else .ainfo) else .null false
        let p : LineProgram :=
          { template := .vnosync, buf := none, island := isl, phase := .frontPorch, vctr := 0, frame := s.frame }
        ∃ t : State, exec .start s = .next (t.reply .ok 0) ∧
          t = { s with phase := .frontPorch, vctr := 0, prog := some p, irqEn := true, lifecycle := .started,
                       mem := t.mem, env := { s.env with trace := s.env.trace ++ [p] } } ∧
          (∀ l, l < s.params.l → t.tplWord .vnosync l 1 0 = some (islandAddr s.params isl l)) ∧
          ∀ o off, ¬ inIslandField s.params .vnosync o off → t.byteAt o off = s.byteAt o off))

/-- R237: `STOP`, in states that keep the pool invariants (R32, R33). -/
def Obligations.StopResult : Prop :=
  ∀ s : State,
    (s.lifecycle ≠ .started → s.lifecycle ≠ .halted → exec .stop s = .next (s.reply .ok 0)) ∧
    (s.lifecycle = .started → s.issuingCore ≠ s.irqCore → exec .stop s = .next (s.raise .teardownWrongContext)) ∧
    (s.lifecycle = .started → s.issuingCore = s.irqCore → PoolInv s → s.allocated = true →
      exec .stop s = .next (({ s with
        irqEn := false, prog := none, laneLine := none, lifecycle := .stopped
        freeq := s.freeq ++ s.rel1.toList ++ s.rel0.toList ++ s.cur.toList ++ s.validq, validq := []
        rel1 := none, rel0 := none, cur := none
        pfreeq := s.pfreeq ++ s.pvalidq, pvalidq := [] } : State).reply .ok 0))

/-- R238: `DESTROY`. From STARTED it runs the steps of STOP first, whose queues are freed with the rest. What is not allocated
is held empty (log entry 8). -/
def Obligations.DestroyResult : Prop :=
  ∀ s : State,
    (s.lifecycle = .uninit ∨ s.lifecycle = .destroyed → exec .destroy s = .next (s.reply .ok 0)) ∧
    (s.lifecycle = .initialized ∨ s.lifecycle = .started ∨ s.lifecycle = .stopped →
      (s.irqCore ≠ 0xFF → s.issuingCore ≠ s.irqCore → exec .destroy s = .next (s.raise .teardownWrongContext)) ∧
      (s.irqCore = 0xFF ∨ s.issuingCore = s.irqCore →
        (s.prodBufs ≠ [] ∨ s.prodPair ≠ none → exec .destroy s = .next (s.raise .reclaimWhileOwned)) ∧
        (s.prodBufs = [] → s.prodPair = none → PoolInv s → s.allocated = true →
          ∃ t : State, exec .destroy s = .next (t.reply .ok 0) ∧
            t = { s with
                  lifecycle := .destroyed, irqCore := 0xFF, irqEn := false, audioEn := false, allocated := false
                  freeq := [], validq := [], pfreeq := [], pvalidq := [], token := [], filled := []
                  mem := t.mem, ringWr := 0, ringRd := 0
                  prog := if s.lifecycle = .started then none else s.prog
                  laneLine := if s.lifecycle = .started then none else s.laneLine
                  cur := if s.lifecycle = .started then none else s.cur
                  rel0 := if s.lifecycle = .started then none else s.rel0
                  rel1 := if s.lifecycle = .started then none else s.rel1 } ∧
            ∀ o off, t.byteAt o off = none)))

/-- R241: a second `STOP`, and a `DESTROY` after a `DESTROY`, change nothing. -/
def Obligations.TeardownIsIdempotent : Prop :=
  ∀ s t : State, t.lifecycle ≠ .halted →
    (exec .stop s = .next t → exec .stop t = .next (t.reply .ok 0)) ∧
    (exec .destroy s = .next t → exec .destroy t = .next (t.reply .ok 0))

/-! ## The scanline buffer queue -/

/-- R151: `ACQUIRE_FREE_BUFFER` when it is first issued; while `FREEQ` is empty it holds (R11, R80). -/
def Obligations.AcquireFreeBufferResult : Prop :=
  ∀ s : State,
    (s.live = false → s.lifecycle ≠ .halted → exec .acquireFreeBuffer s = .next (s.reply .wrongState 0)) ∧
    (s.live = true → s.freeq = [] → ∃ t : State, exec .acquireFreeBuffer s = .next t ∧ Holds s t) ∧
    (∀ h rest, s.live = true → s.freeq = h :: rest →
      ∃ (bufs : List Handle) (flags : List Bool), (∀ x, x ∈ bufs ↔ x = h ∨ x ∈ s.prodBufs) ∧
        State.isFilled { s with filled := flags } h = false ∧
        (∀ x, x ≠ h → State.isFilled { s with filled := flags } x = s.isFilled x) ∧
        exec .acquireFreeBuffer s = .next
          (({ s with freeq := rest, prodBufs := bufs, filled := flags } : State).reply .ok (h.setWidth 32)))

/-- R80, R151, R181: what becomes of a held `ACQUIRE_FREE_BUFFER` or `ACQUIRE_FREE_AUDIO_SLOT` on the PRODUCER's turn (the
model's, log entry 4): it holds on while nothing is free, and completes when a buffer or a pair is free or the pools are gone. -/
def Obligations.HeldAcquireCompletesWhenFree : Prop :=
  ∀ (s : State) (c : Command), s.turn = .producer → s.producer.held = some c → s.lifecycle ≠ .halted →
    (c.word = 0x00000010 → ∃ t : State, step s = .next t ∧
      (s.live = true → s.freeq = [] → t.producer.held = some c ∧ t.freeq = [] ∧ t.prodBufs = s.prodBufs) ∧
      (∀ h rest, s.live = true → s.freeq = h :: rest → t.producer.held = none ∧
        t.producer.resStatus = Status.ok.code ∧ t.producer.resValue = h.setWidth 32 ∧ t.freeq = rest ∧
        h ∈ t.prodBufs) ∧
      (s.live = false → t.producer.held = none ∧ t.producer.resStatus = Status.wrongState.code ∧
        t.producer.resValue = 0)) ∧
    (c.word = 0x00000013 → ∃ t : State, step s = .next t ∧
      (s.live = true → s.prodPair = none → s.pfreeq = [] →
        t.producer.held = some c ∧ t.pfreeq = [] ∧ t.prodPair = none) ∧
      (∀ p rest, s.live = true → s.prodPair = none → s.pfreeq = p :: rest → t.producer.held = none ∧
        t.producer.resStatus = Status.ok.code ∧ t.producer.resValue = p.setWidth 32 ∧ t.pfreeq = rest ∧
        t.prodPair = some p) ∧
      (∀ p, s.live = true → s.prodPair = some p → t.producer.held = none ∧
        t.producer.resStatus = Status.ok.code ∧ t.producer.resValue = p.setWidth 32 ∧ t.pfreeq = s.pfreeq ∧
        t.prodPair = some p) ∧
      (s.live = false → t.producer.held = none ∧ t.producer.resStatus = Status.wrongState.code ∧
        t.producer.resValue = 0))

/-- R152: `FILL_BUFFER`; `FILLED` has an entry for every buffer (`PoolInv`). The content is the number of its bytes, read
modulo the buffer's size (log entry 10). -/
def Obligations.FillBufferResult : Prop :=
  ∀ (s : State) (h : Handle),
    (s.live = false → s.lifecycle ≠ .halted → exec (.fillBuffer h) s = .next (s.reply .wrongState 0)) ∧
    (s.live = true → s.params.n ≤ h.toNat → exec (.fillBuffer h) s = .next (s.reply .badArg 0)) ∧
    (s.live = true → h.toNat < s.params.n → h ∉ s.prodBufs → exec (.fillBuffer h) s = .next (s.raise .ownership)) ∧
    (s.live = true → h.toNat < s.params.n → h ∈ s.prodBufs →
      ∃ (m : Memory) (flags : List Bool),
        exec (.fillBuffer h) s = .next (({ s with mem := m, filled := flags } : State).reply .ok 0) ∧
        (s.filled.length = s.params.n → State.isFilled { s with filled := flags } h = true) ∧
        (∀ x, x ≠ h → State.isFilled { s with filled := flags } x = s.isFilled x) ∧
        State.content { s with mem := m } h = some (s.bus.cmd.content % 256 ^ s.params.bufBytes) ∧
        ∀ o off, o ≠ .buf h → State.byteAt { s with mem := m } o off = s.byteAt o off)

/-- R153, R48: `SUBMIT_VALID_BUFFER`; the push raises on a FIFO that holds its capacity (R28). -/
def Obligations.SubmitValidBufferResult : Prop :=
  ∀ (s : State) (h : Handle) (tok : Half),
    let aSrc := (s.bandEnd.toNat - s.bandFirst.toNat + s.k.toNat - 1) / s.k.toNat
    (s.live = false → s.lifecycle ≠ .halted → exec (.submitValidBuffer h tok) s = .next (s.reply .wrongState 0)) ∧
    (s.live = true → s.params.n ≤ h.toNat ∨ aSrc ≤ tok.toNat →
      exec (.submitValidBuffer h tok) s = .next (s.reply .badArg 0)) ∧
    (s.live = true → h.toNat < s.params.n → tok.toNat < aSrc →
      (h ∉ s.prodBufs → exec (.submitValidBuffer h tok) s = .next (s.raise .ownership)) ∧
      (h ∈ s.prodBufs → s.isFilled h = false →
        exec (.submitValidBuffer h tok) s = .next (s.raise .unfilledSubmit)) ∧
      (h ∈ s.prodBufs → s.isFilled h = true → s.params.n ≤ s.validq.length →
        exec (.submitValidBuffer h tok) s = .next (s.raise .queueOverflow)) ∧
      (h ∈ s.prodBufs → s.isFilled h = true → s.validq.length < s.params.n →
        ∃ (bufs : List Handle) (toks : List Half), (∀ x, x ∈ bufs ↔ x ∈ s.prodBufs ∧ x ≠ h) ∧
          (s.token.length = s.params.n → State.tokenOf { s with token := toks } h = tok) ∧
          (∀ x, x ≠ h → State.tokenOf { s with token := toks } x = s.tokenOf x) ∧
          exec (.submitValidBuffer h tok) s = .next
            (({ s with token := toks, prodBufs := bufs, validq := s.validq ++ [h] } : State).reply .ok 0)))

/-! ## Audio -/

/-- R180: `SET_AUDIO_ENABLED`. -/
def Obligations.SetAudioEnabledResult : Prop :=
  ∀ (s : State) (b : Byte),
    (s.live = false → s.lifecycle ≠ .halted → exec (.setAudioEnabled b) s = .next (s.reply .wrongState 0)) ∧
    (s.live = true →
      (1 < b.toNat → exec (.setAudioEnabled b) s = .next (s.reply .badArg 0)) ∧
      (s.audioOk = false → exec (.setAudioEnabled 1) s = .next (s.reply .audioUnavailable 0)) ∧
      (s.audioOk = true →
        exec (.setAudioEnabled 1) s = .next (({ s with audioEn := true } : State).reply .ok 0)) ∧
      exec (.setAudioEnabled 0) s = .next (({ s with audioEn := false } : State).reply .ok 0))

/-- R181: `ACQUIRE_FREE_AUDIO_SLOT` when it is first issued; while `PFREEQ` is empty it holds (R11, R80). -/
def Obligations.AcquireFreeAudioSlotResult : Prop :=
  ∀ s : State,
    (s.live = false → s.lifecycle ≠ .halted → exec .acquireFreeAudioSlot s = .next (s.reply .wrongState 0)) ∧
    (∀ p, s.live = true → s.prodPair = some p → exec .acquireFreeAudioSlot s = .next (s.reply .ok (p.setWidth 32))) ∧
    (s.live = true → s.prodPair = none → s.pfreeq = [] →
      ∃ t : State, exec .acquireFreeAudioSlot s = .next t ∧ Holds s t) ∧
    (∀ p rest, s.live = true → s.prodPair = none → s.pfreeq = p :: rest → exec .acquireFreeAudioSlot s = .next
      (({ s with pfreeq := rest, prodPair := some p } : State).reply .ok (p.setWidth 32)))

/-- R185, R186, R187, R190 to R194: `SUBMIT_AUDIO_SAMPLES`, the bytes of its packet, and the default `ecc8` of a byte more. The
bytes are the spec's from general knowledge (log entry 12); a stream is read modulo its size in memory (log entry 10). -/
def Obligations.SubmitAudioSamplesResult : Prop :=
  (∀ s : State,
    (s.live = false → s.lifecycle ≠ .halted → exec .submitAudioSamples s = .next (s.reply .wrongState 0)) ∧
    (s.live = true → s.audioOk = false → exec .submitAudioSamples s = .next (s.reply .falseResult 0)) ∧
    (s.live = true → s.audioOk = true → s.prodPair = none → s.pfreeq = [] →
      exec .submitAudioSamples s = .next (s.reply .falseResult 0)) ∧
    ∀ (p : Handle) (rest : List Handle), s.live = true → s.audioOk = true →
      (s.prodPair = some p ∧ rest = s.pfreeq) ∨ (s.prodPair = none ∧ s.pfreeq = p :: rest) →
      ((∃ (g : LineProgram) (pol : Bool), s.prog = some g ∧ g.island = .pair p pol) →
        exec .submitAudioSamples s = .next (s.raise .islandRace)) ∧
      ((∀ (g : LineProgram) (pol : Bool), s.prog = some g → g.island ≠ .pair p pol) → s.pvalidq.length < s.params.m →
        let q := s.port s.bus.port
        ∃ (pkt : List Byte) (m : Memory), SamplePacket s.params q.d0 q.d1 q.d2 q.d3 s.audFrameIdx.toNat pkt ∧
          exec .submitAudioSamples s = .next (({ s with
              mem := m, pfreeq := rest, prodPair := none, pvalidq := s.pvalidq ++ [p]
              audFrameIdx := BitVec.ofNat 8 ((s.audFrameIdx.toNat + 4) % 192) } : State).reply .ok 1) ∧
          (∀ pol, State.enc { s with mem := m } p pol =
            some (Config.islandEncode pkt (if pol then s.tt.vSyncPolarity else !s.tt.vSyncPolarity)
              (hsLevelIsland s.params s.tt) % 256 ^ streamBytes s.params)) ∧
          ∀ o off, o ≠ .pair p → State.byteAt { s with mem := m } o off = s.byteAt o off)) ∧
  ∀ p : Params, p.ecc = .bch → ecc8 p [] = 0 ∧ ∀ (bytes : List Byte) (b : Byte), ecc8 p (bytes ++ [b]) =
    (List.range 8).foldl (fun (e : Byte) i => if b.getLsbD i = e.getLsbD 0 then e >>> 1 else (e >>> 1) ^^^ 0x83)
      (ecc8 p bytes)

/-- R173, R174, R175: the island source of a TICK. The pair taken goes from `PVALIDQ` to `PFREEQ`. -/
def Obligations.IslandSelection : Prop :=
  ∀ s : State,
    islandSelect false s = .ok (s, .null (s.phase == .sync)) ∧
    (s.phase = .frontPorch → s.vctr = 0 →
      islandSelect true s = .ok (s, if s.frame.toNat % 2 = 0 then .avi else .ainfo)) ∧
    (s.phase = .frontPorch → s.vctr = 1 → islandSelect true s = .ok (s, .acr)) ∧
    (¬ (s.phase = .frontPorch ∧ s.vctr.toNat ≤ 1) →
      (s.pvalidq = [] → islandSelect true s = .ok (s, .null (s.phase == .sync))) ∧
      ∀ p rest, s.pvalidq = p :: rest → s.pfreeq.length < s.params.m →
        islandSelect true s =
          .ok ({ s with pvalidq := rest, pfreeq := s.pfreeq ++ [p] }, .pair p (s.phase == .sync)))

/-- R300, R172: with audio disabled, a TICK installs the null stream of its polarity, and no pair moves. -/
def Obligations.DisabledAudioEmitsOnlyNull : Prop :=
  ∀ s t : State, s.audioEn = false → exec .tick s = .next t → t.lifecycle ≠ .halted →
    t.pvalidq = s.pvalidq ∧ t.pfreeq = s.pfreeq ∧
      ∃ p : LineProgram, t.prog = some p ∧ p.island = .null (decide (t.phase = .sync))

/-! ## The ring -/

/-- R212: `RING_PUSH`; `RING_WR` is an offset of the ring (R35). -/
def Obligations.RingPushResult : Prop :=
  ∀ s : State,
    (s.live = false → s.lifecycle ≠ .halted → exec .ringPush s = .next (s.reply .wrongState 0)) ∧
    (s.live = true → s.writeSize = 0 → exec .ringPush s = .next (s.reply .falseResult 0)) ∧
    (RingInv s → s.live = true → s.writeSize ≠ 0 →
      ∃ m : Memory, exec .ringPush s = .next (({ s with
            mem := m, ringWr := (s.ringWr + 1) &&& BitVec.ofNat 16 (s.params.c - 1) } : State).reply .ok 1) ∧
        State.ringSlot { s with mem := m } s.ringWr = some (s.port s.bus.port).d0 ∧
        State.written { s with mem := m } s.ringWr = true ∧
        ∀ o off, ¬ inRingSlot s.ringWr o off → State.byteAt { s with mem := m } o off = s.byteAt o off)

/-- R213, R214: the bulk path of the SOURCE: `RING_WRITE_SLOT` and `RING_ADVANCE_WRITE`; the offsets are those of the ring
(R35). -/
def Obligations.RingBulkWriteResult : Prop :=
  ∀ (s : State) (k : Half),
    (s.live = false → s.lifecycle ≠ .halted → exec (.ringWriteSlot k) s = .next (s.reply .wrongState 0)) ∧
    (s.live = false → s.lifecycle ≠ .halted → exec (.ringAdvanceWrite k) s = .next (s.reply .wrongState 0)) ∧
    (s.live = true → s.writeSize.toNat ≤ k.toNat → exec (.ringWriteSlot k) s = .next (s.raise .ringOverrun)) ∧
    (RingInv s → s.live = true → k.toNat < s.writeSize.toNat →
      let i := (s.ringWr + k) &&& BitVec.ofNat 16 (s.params.c - 1)
      ∃ m : Memory, exec (.ringWriteSlot k) s = .next (({ s with mem := m } : State).reply .ok 0) ∧
        State.ringSlot { s with mem := m } i = some (s.port s.bus.port).d0 ∧
        State.written { s with mem := m } i = true ∧
        ∀ o off, ¬ inRingSlot i o off → State.byteAt { s with mem := m } o off = s.byteAt o off) ∧
    (s.live = true → s.writeSize.toNat < k.toNat → exec (.ringAdvanceWrite k) s = .next (s.raise .ringOverrun)) ∧
    (s.live = true → k.toNat ≤ s.writeSize.toNat →
      exec (.ringAdvanceWrite k) s = .next
        (({ s with ringWr := (s.ringWr + k) &&& BitVec.ofNat 16 (s.params.c - 1) } : State).reply .ok 0))

/-- R215, R216: `RING_WRITE_SIZE` and `RING_POP_AVAILABLE` return the sizes of R211 and change nothing. -/
def Obligations.RingSizeReadsResult : Prop :=
  ∀ s : State,
    (s.live = false → s.lifecycle ≠ .halted → exec .ringWriteSize s = .next (s.reply .wrongState 0)) ∧
    (s.live = false → s.lifecycle ≠ .halted → exec .ringPopAvailable s = .next (s.reply .wrongState 0)) ∧
    (s.live = true →
      exec .ringWriteSize s = .next (s.reply .ok
        (((s.ringRd - s.ringWr - 1) &&& BitVec.ofNat 16 (s.params.c - 1)).setWidth 32)) ∧
      exec .ringPopAvailable s = .next (s.reply .ok
        (((s.ringWr - s.ringRd) &&& BitVec.ofNat 16 (s.params.c - 1)).setWidth 32)))

/-- R217, R218: `RING_READ_SLOT` and `RING_ADVANCE_READ`. -/
def Obligations.RingReadSideResult : Prop :=
  ∀ (s : State) (k : Half),
    let i := (s.ringRd + k) &&& BitVec.ofNat 16 (s.params.c - 1)
    (s.live = false → s.lifecycle ≠ .halted → exec (.ringReadSlot k) s = .next (s.reply .wrongState 0)) ∧
    (s.live = false → s.lifecycle ≠ .halted → exec (.ringAdvanceRead k) s = .next (s.reply .wrongState 0)) ∧
    (s.live = true → s.readSize.toNat ≤ k.toNat → exec (.ringReadSlot k) s = .next (s.raise .ringUnderrun)) ∧
    (s.live = true → k.toNat < s.readSize.toNat → s.written i = false →
      exec (.ringReadSlot k) s = .next (s.raise .unwrittenSlot)) ∧
    (∀ f, s.live = true → k.toNat < s.readSize.toNat → s.ringSlot i = some f →
      exec (.ringReadSlot k) s = .next (s.reply .ok f)) ∧
    (s.live = true → s.readSize.toNat < k.toNat → exec (.ringAdvanceRead k) s = .next (s.raise .ringUnderrun)) ∧
    (s.live = true → k.toNat ≤ s.readSize.toNat →
      exec (.ringAdvanceRead k) s = .next
        (({ s with ringRd := (s.ringRd + k) &&& BitVec.ofNat 16 (s.params.c - 1) } : State).reply .ok 0))

/-- R211, R219: in every state the two sizes sum to `C - 1`. -/
def Obligations.RingSizesSum : Prop :=
  ∀ s : State, s.params.legal = true → s.readSize.toNat + s.writeSize.toNat = s.params.c - 1

/-- R219, R220: a frame pushed is the last one published, it reads back as pushed, and the frames published before it keep
their places and their values. -/
def Obligations.PushedFrameIsPublishedLast : Prop :=
  ∀ s t : State, RingInv s → s.live = true → s.writeSize ≠ 0 → exec .ringPush s = .next t →
    t.readSize.toNat = s.readSize.toNat + 1 ∧
    t.ringSlot (ringSlotAt t.params t.ringRd s.readSize) = some (s.port s.bus.port).d0 ∧
    ∀ k : Half, k.toNat < s.readSize.toNat →
      t.ringSlot (ringSlotAt t.params t.ringRd k) = s.ringSlot (ringSlotAt s.params s.ringRd k)

/-! ## The timing state machine and TICK -/

/-- R101, R103, R104: `advance`, and that it changes the position only. -/
def Obligations.AdvanceMovesOneLine : Prop :=
  ∀ s : State,
    (s.phase = .frontPorch → s.vctr.toNat + 1 = s.tt.vFrontPorch.toNat →
      advance s = { s with phase := .sync, vctr := 0 }) ∧
    (s.phase = .sync → s.vctr.toNat + 1 = s.tt.vSyncWidth.toNat →
      advance s = { s with phase := .backPorch, vctr := 0 }) ∧
    (s.phase = .backPorch → s.vctr.toNat + 1 = s.tt.vBackPorch.toNat →
      advance s = { s with phase := .active, vctr := 0 }) ∧
    (s.phase = .active → s.vctr.toNat + 1 = s.tt.vActiveLines.toNat →
      advance s = { s with phase := .frontPorch, vctr := 0, frame := s.frame + 1 }) ∧
    (s.vctr.toNat + 1 ≠ (phaseLen s.tt s.phase).toNat → advance s = { s with vctr := s.vctr + 1 })

/-- R102, R104: from any line of a started ENGINE, `F` ticks come back to that line of the next frame, each installing one
line program. -/
def Obligations.FrameTakesItsTicks : Prop :=
  ∀ s : State, PoolInv s → LifecycleInv s → PositionInv s → s.lifecycle = .started →
    ∃ t : State, ticks (frameTicks s.tt) s = some t ∧ t.phase = s.phase ∧ t.vctr = s.vctr ∧ t.frame = s.frame + 1 ∧
      t.lifecycle = .started ∧ t.env.trace.length = s.env.trace.length + frameTicks s.tt

/-- R108, R110, R260: under the pool invariants a TICK raises nothing and writes no result: it moves the position by
`advance`, streams the program installed before and installs and emits one for the new position. Its island, and what
`PVALIDQ` and `PFREEQ` then hold, are those of R172, R173 and R175 for `AUDIO_EN` and the new position. What else it may change
is the buffer queues, the counters, and of memory the source fields of the installed template and of `T_ACTIVE` (their places:
log entry 25). -/
def Obligations.TickInstallsTheNextLine : Prop :=
  ∀ s : State, PoolInv s → s.allocated = true →
    ∃ (t : State) (p : LineProgram), exec .tick s = .next t ∧
      t = { s with
            phase := (advance s).phase, vctr := (advance s).vctr, frame := (advance s).frame
            laneLine := s.prog, prog := some p, env := { s.env with trace := s.env.trace ++ [p] }
            lateCnt := t.lateCnt, errCnt := t.errCnt, freeq := t.freeq, validq := t.validq
            pfreeq := t.pfreeq, pvalidq := t.pvalidq, cur := t.cur, rel0 := t.rel0, rel1 := s.rel0
            mem := t.mem } ∧
      p.phase = t.phase ∧ p.vctr = t.vctr ∧ p.frame = t.frame ∧
      (∀ o off, ¬ inIslandField s.params p.template o off → (p.buf = none ∨ ¬ inActiveField s.params o off) →
        t.byteAt o off = s.byteAt o off) ∧
      let null : IslandSrc := .null (decide (t.phase = .sync))
      let noPairMoves := t.pvalidq = s.pvalidq ∧ t.pfreeq = s.pfreeq
      (s.audioEn = false → p.island = null ∧ noPairMoves) ∧
      (s.audioEn = true →
        (t.phase = .frontPorch → t.vctr = 0 →
          p.island = (if t.frame.toNat % 2 = 0 then .avi else .ainfo) ∧ noPairMoves) ∧
        (t.phase = .frontPorch → t.vctr = 1 → p.island = .acr ∧ noPairMoves) ∧
        (¬ (t.phase = .frontPorch ∧ t.vctr.toNat ≤ 1) →
          (s.pvalidq = [] → p.island = null ∧ noPairMoves) ∧
          ∀ q rest, s.pvalidq = q :: rest →
            p.island = .pair q (decide (t.phase = .sync)) ∧ t.pvalidq = rest ∧ t.pfreeq = s.pfreeq ++ [q]))

/-- R121, R125, R126, R128 to R131: the template and the buffer of the line a TICK installs, by the class of the line in terms
of the latched configuration and `VCTR`; what `CUR` and `REL0` then hold; what `VALIDQ` keeps, `FREEQ` gains and `LATE_CNT`
counts; and that `ERR_CNT` counts exactly the lines installed with the fallback template. -/
def Obligations.TickSelectsTheTemplate : Prop :=
  ∀ s t : State, exec .tick s = .next t → t.lifecycle ≠ .halted →
    let rel := t.vctr.toNat - s.bandFirst.toNat
    let inBand := s.bandFirst.toNat ≤ t.vctr.toNat ∧ t.vctr.toNat < s.bandEnd.toNat
    let blanked := ¬ inBand ∨ (s.scanlineEmu = 1 ∧ rel % 2 = 1)
    let src := rel / s.k.toNat
    let groupEnd := inBand ∧ (rel % s.k.toNat = s.k.toNat - 1 ∨ t.vctr.toNat + 1 = s.bandEnd.toNat)
    let recycles (late rest : List Handle) : Prop :=
      t.validq = rest ∧ t.freeq = s.freeq ++ s.rel1.toList ++ late ∧
        t.lateCnt = s.lateCnt + BitVec.ofNat 32 late.length
    ∃ p : LineProgram, t.prog = some p ∧
      (t.phase = .sync → p.template = .vsync ∧ p.buf = none) ∧
      (t.phase = .frontPorch ∨ t.phase = .backPorch → p.template = .vnosync ∧ p.buf = none) ∧
      (t.phase = .active → blanked → p.template = .blanked ∧ p.buf = none) ∧
      (t.phase ≠ .active ∨ blanked ∨ s.cur ≠ none → recycles [] s.validq) ∧
      (t.phase = .active → ¬ blanked →
        (∀ h, s.cur = some h → p.template = .active ∧ p.buf = some h) ∧
        (s.cur = none → ∃ late rest, (∀ x ∈ late, (s.tokenOf x).toNat ≠ src) ∧ recycles late rest ∧
          ((∃ h, p.template = .active ∧ p.buf = some h ∧ s.validq = late ++ h :: rest ∧
              (s.tokenOf h).toNat = src ∧ late.length < s.params.n) ∨
            (p.template = .error ∧ p.buf = none ∧ t.cur = none ∧ s.validq = late ++ rest ∧
              (rest = [] ∨ late.length = s.params.n))))) ∧
      (t.phase ≠ .active → t.cur = s.cur ∧ t.rel0 = none) ∧
      (t.phase = .active → ∀ held, (blanked → held = s.cur) → (¬ blanked → held = p.buf) →
        (groupEnd → t.rel0 = held ∧ t.cur = none) ∧ (¬ groupEnd → t.cur = held ∧ t.rel0 = none)) ∧
      (p.template = .error → t.errCnt = s.errCnt + 1) ∧ (p.template ≠ .error → t.errCnt = s.errCnt)

/-- R128: acquisition takes the first buffer of `VALIDQ` that carries the token, and recycles those before it as late;
without one it recycles them all. -/
def Obligations.AcquireRecyclesLateBuffers : Prop :=
  ∀ (s : State) (src : Nat) (late rest : List Handle),
    (∀ x ∈ late, (s.tokenOf x).toNat ≠ src) → s.freeq.length + late.length ≤ s.params.n →
    (∀ h, s.validq = late ++ h :: rest → (s.tokenOf h).toNat = src → late.length < s.params.n →
      acquire s.params.n src s = .ok { s with
        validq := rest, cur := some h, freeq := s.freeq ++ late
        lateCnt := s.lateCnt + BitVec.ofNat 32 late.length }) ∧
    (s.validq = late → acquire s.params.n src s = .ok { s with
      validq := [], freeq := s.freeq ++ late, lateCnt := s.lateCnt + BitVec.ofNat 32 late.length })

/-- R125: the release pipeline moves one stage. -/
def Obligations.ReleaseStepMovesOneStage : Prop :=
  ∀ s : State,
    (s.rel1 = none → releaseStep s = .ok { s with rel1 := s.rel0, rel0 := none }) ∧
    ∀ h, s.rel1 = some h → s.freeq.length < s.params.n →
      releaseStep s = .ok { s with freeq := s.freeq ++ [h], rel1 := s.rel0, rel0 := none }

/-- R125, R131, R296: a buffer that leaves `CUR` at a TICK stays out of `FREEQ` for the next TICK and is in it after the
one after that. -/
def Obligations.BufferIsFreeTwoTicksLater : Prop :=
  ∀ (s t u : State) (h : Handle), PoolInv s → s.allocated = true → s.rel0 = some h →
    exec .tick s = .next t → exec .tick t = .next u →
      h ∉ s.freeq ∧ t.rel1 = some h ∧ h ∉ t.freeq ∧ h ∈ u.freeq

/-- R123, R124, R132: the fields a TICK patches: the island source of the template installed, and of `T_ACTIVE` the active
sources, whose places in `TPLMEM` are the model's (log entry 25); every other byte of memory stays. -/
def Obligations.TickPatchesOnlySourceFields : Prop :=
  ∀ s t : State, exec .tick s = .next t → t.lifecycle ≠ .halted →
    ∃ p : LineProgram, t.prog = some p ∧
      (∀ l, l < s.params.l → t.tplWord p.template l 1 0 = some (islandAddr s.params p.island l)) ∧
      (∀ h, p.buf = some h → ∀ l, 0 < l → l < s.params.l →
        t.tplWord .active l 3 0 = some (Config.addr (.buf h) ((l - 1) * s.params.laneStride))) ∧
      ∀ o off, ¬ inIslandField s.params p.template o off →
        (p.buf = none ∨ ¬ inActiveField s.params o off) → t.byteAt o off = s.byteAt o off

/-! ## Whole-machine rules -/

/-- R230: the lifecycle changes as the table says, and in no other way. -/
def Obligations.LifecycleFollowsTheTable : Prop :=
  ∀ (i : Instr) (s t : State), exec i s = .next t → t.lifecycle ≠ s.lifecycle →
    ((s.lifecycle = .uninit ∨ s.lifecycle = .destroyed) ∧ (∃ m, i = .init m) ∧ t.lifecycle = .initialized) ∨
    ((s.lifecycle = .initialized ∨ s.lifecycle = .stopped) ∧ i = .start ∧ t.lifecycle = .started) ∨
    (s.lifecycle = .started ∧ i = .stop ∧ t.lifecycle = .stopped) ∨
    (s.live = true ∧ i = .destroy ∧ t.lifecycle = .destroyed) ∨
    (t.lifecycle = .halted ∧ t.fault ≠ 0)

/-- R23, R39, R42: no command but `INIT`, `START` and TICK writes the timing state, none but `INIT` and TICK the counters,
and none but `INIT` the latched configuration; the parameters never change. -/
def Obligations.TimingAndCountersHaveFewWriters : Prop :=
  ∀ (i : Instr) (s t : State), exec i s = .next t →
    t.params = s.params ∧
    (i ≠ .tick → i ≠ .start → (∀ m, i ≠ .init m) → t.phase = s.phase ∧ t.vctr = s.vctr ∧ t.frame = s.frame) ∧
    (i ≠ .tick → (∀ m, i ≠ .init m) → t.lateCnt = s.lateCnt ∧ t.errCnt = s.errCnt) ∧
    ((∀ m, i ≠ .init m) → t.tt = s.tt ∧ t.k = s.k ∧ t.bandFirst = s.bandFirst ∧ t.bandEnd = s.bandEnd ∧
      t.scanlineEmu = s.scanlineEmu ∧ t.rateCode = s.rateCode)

/-- R220: a SOURCE command that raises no fault changes, of the ring, only slots and `RING_WR`, and of the rest nothing but its
port; it never changes a byte outside the ring. A PRODUCER command never changes `RING_WR` or a ring byte. -/
def Obligations.RingSidesAreSeparate : Prop :=
  ∀ (i : Instr) (s t : State), exec i s = .next t →
    (i.wellFormed (.port .source) = true →
      ((∃ c, t = s.raise c) ∨
        t = { s.setPort s.bus.port (t.port s.bus.port) with ringWr := t.ringWr, mem := t.mem }) ∧
      ∀ o off, o ≠ .ring → t.byteAt o off = s.byteAt o off) ∧
    (i.wellFormed (.port .producer) = true → t.ringWr = s.ringWr ∧
      ∀ off, t.byteAt .ring off = s.byteAt .ring off)

/-! ## Invariants -/

/-- R50: what the invariants say holds after power-on reset. -/
def Obligations.InvariantsHoldAtReset : Prop :=
  PoolInv State.reset ∧ LifecycleInv State.reset ∧ PositionInv State.reset ∧ RingInv State.reset ∧
    State.reset.mem.wf ∧ DisplayInv State.reset

/-- R31, R32, R33, R156: the pool invariants hold after every step. -/
def Obligations.StepKeepsThePools : Prop :=
  ∀ s t : State, PoolInv s → step s = .next t → PoolInv t

/-- R26, R27, R38, R43, R44: what the lifecycle state says of the interrupt, the lanes, the pools and the fault register
holds after every step. -/
def Obligations.StepKeepsTheLifecycle : Prop :=
  ∀ s t : State, LifecycleInv s → step s = .next t → LifecycleInv t

/-- R102, R25: a started ENGINE's line index stays within its phase, and the latched configuration stays one INIT accepts.
-/
def Obligations.StepKeepsThePosition : Prop :=
  ∀ s t : State, LifecycleInv s → PositionInv s → step s = .next t → PositionInv t

/-- R35: the ring offsets stay below `C`. -/
def Obligations.StepKeepsTheRingOffsets : Prop :=
  ∀ s t : State, RingInv s → step s = .next t → RingInv t

/-- R60, R61: the memory keeps its canonical form (the model's, log entry 9). -/
def Obligations.StepKeepsTheMemoryForm : Prop :=
  ∀ s t : State, s.mem.wf → step s = .next t → t.mem.wf

/-- R127, R131: a buffer held in `CUR` is held on an in-band line of the group its token names, before the group's last. -/
def Obligations.StepKeepsTheHeldBuffer : Prop :=
  ∀ s t : State, PoolInv s → LifecycleInv s → PositionInv s → DisplayInv s → step s = .next t → DisplayInv t

/-- R136, R76, R127: a buffer is never installed on a line of another source position than its token's, nor on a blanked
line or one outside the band. -/
def Obligations.BuffersAreShownOnTheirLine : Prop :=
  ∀ s t : State, PoolInv s → LifecycleInv s → PositionInv s → DisplayInv s → s.lifecycle = .started →
    exec .tick s = .next t → ∀ p h, t.prog = some p → p.buf = some h →
      p.phase = .active ∧ (classifyLine t p.vctr.toNat).blanked = false ∧
        (t.tokenOf h).toNat = (classifyLine t p.vctr.toNat).src

/-- R158: with one line a source line, every ACTIVE line in the band, no scanline emulation and `VALIDQ` holding the buffers
of the next ACTIVE lines in order, a stall of `n` ACTIVE lines raises `ERR_CNT` by the lines the buffers do not cover and
`LATE_CNT` not at all. -/
def Obligations.StarvationIsCountedExactly : Prop :=
  ∀ (s : State) (a n : Nat), PoolInv s → LifecycleInv s → PositionInv s → s.lifecycle = .started →
    s.k = 1 → s.bandFirst = 0 → s.bandEnd = s.tt.vActiveLines → s.scanlineEmu = 0 →
    s.cur = none →
    (advance s).phase = .active → (advance s).vctr.toNat = a → a + n ≤ s.tt.vActiveLines.toNat →
    (∀ j h, s.validq[j]? = some h → (s.tokenOf h).toNat = a + j) → s.validq.length < n →
    ∃ t : State, ticks n s = some t ∧ t.errCnt = s.errCnt + BitVec.ofNat 32 (n - s.validq.length) ∧
      t.lateCnt = s.lateCnt ∧ t.validq = []
end

