-- ==== Sys2Proof/Laws/State.lean ====
section
/-! SUPPORT. One lemma for each field of the state and each shared update: what the update leaves of the field. -/

namespace Sys2Proof.Machine

/-! ## A port is replaced -/

@[simp] theorem State.setPort_params (s : State) (p : PortId) (q : Port) : (s.setPort p q).params = s.params := by cases p <;> rfl
@[simp] theorem State.setPort_lifecycle (s : State) (p : PortId) (q : Port) : (s.setPort p q).lifecycle = s.lifecycle := by cases p <;> rfl
@[simp] theorem State.setPort_fault (s : State) (p : PortId) (q : Port) : (s.setPort p q).fault = s.fault := by cases p <;> rfl
@[simp] theorem State.setPort_phase (s : State) (p : PortId) (q : Port) : (s.setPort p q).phase = s.phase := by cases p <;> rfl
@[simp] theorem State.setPort_vctr (s : State) (p : PortId) (q : Port) : (s.setPort p q).vctr = s.vctr := by cases p <;> rfl
@[simp] theorem State.setPort_frame (s : State) (p : PortId) (q : Port) : (s.setPort p q).frame = s.frame := by cases p <;> rfl
@[simp] theorem State.setPort_lateCnt (s : State) (p : PortId) (q : Port) : (s.setPort p q).lateCnt = s.lateCnt := by cases p <;> rfl
@[simp] theorem State.setPort_errCnt (s : State) (p : PortId) (q : Port) : (s.setPort p q).errCnt = s.errCnt := by cases p <;> rfl
@[simp] theorem State.setPort_audioEn (s : State) (p : PortId) (q : Port) : (s.setPort p q).audioEn = s.audioEn := by cases p <;> rfl
@[simp] theorem State.setPort_audioOk (s : State) (p : PortId) (q : Port) : (s.setPort p q).audioOk = s.audioOk := by cases p <;> rfl
@[simp] theorem State.setPort_cts (s : State) (p : PortId) (q : Port) : (s.setPort p q).cts = s.cts := by cases p <;> rfl
@[simp] theorem State.setPort_nval (s : State) (p : PortId) (q : Port) : (s.setPort p q).nval = s.nval := by cases p <;> rfl
@[simp] theorem State.setPort_audFrameIdx (s : State) (p : PortId) (q : Port) : (s.setPort p q).audFrameIdx = s.audFrameIdx := by cases p <;> rfl
@[simp] theorem State.setPort_irqCore (s : State) (p : PortId) (q : Port) : (s.setPort p q).irqCore = s.irqCore := by cases p <;> rfl
@[simp] theorem State.setPort_irqEn (s : State) (p : PortId) (q : Port) : (s.setPort p q).irqEn = s.irqEn := by cases p <;> rfl
@[simp] theorem State.setPort_cfgRepeatK (s : State) (p : PortId) (q : Port) : (s.setPort p q).cfgRepeatK = s.cfgRepeatK := by cases p <;> rfl
@[simp] theorem State.setPort_cfgBandFirst (s : State) (p : PortId) (q : Port) : (s.setPort p q).cfgBandFirst = s.cfgBandFirst := by cases p <;> rfl
@[simp] theorem State.setPort_cfgBandCount (s : State) (p : PortId) (q : Port) : (s.setPort p q).cfgBandCount = s.cfgBandCount := by cases p <;> rfl
@[simp] theorem State.setPort_cfgScanlineEmu (s : State) (p : PortId) (q : Port) : (s.setPort p q).cfgScanlineEmu = s.cfgScanlineEmu := by cases p <;> rfl
@[simp] theorem State.setPort_cfgSampleRate (s : State) (p : PortId) (q : Port) : (s.setPort p q).cfgSampleRate = s.cfgSampleRate := by cases p <;> rfl
@[simp] theorem State.setPort_tt (s : State) (p : PortId) (q : Port) : (s.setPort p q).tt = s.tt := by cases p <;> rfl
@[simp] theorem State.setPort_k (s : State) (p : PortId) (q : Port) : (s.setPort p q).k = s.k := by cases p <;> rfl
@[simp] theorem State.setPort_bandFirst (s : State) (p : PortId) (q : Port) : (s.setPort p q).bandFirst = s.bandFirst := by cases p <;> rfl
@[simp] theorem State.setPort_bandEnd (s : State) (p : PortId) (q : Port) : (s.setPort p q).bandEnd = s.bandEnd := by cases p <;> rfl
@[simp] theorem State.setPort_scanlineEmu (s : State) (p : PortId) (q : Port) : (s.setPort p q).scanlineEmu = s.scanlineEmu := by cases p <;> rfl
@[simp] theorem State.setPort_rateCode (s : State) (p : PortId) (q : Port) : (s.setPort p q).rateCode = s.rateCode := by cases p <;> rfl
@[simp] theorem State.setPort_allocated (s : State) (p : PortId) (q : Port) : (s.setPort p q).allocated = s.allocated := by cases p <;> rfl
@[simp] theorem State.setPort_freeq (s : State) (p : PortId) (q : Port) : (s.setPort p q).freeq = s.freeq := by cases p <;> rfl
@[simp] theorem State.setPort_validq (s : State) (p : PortId) (q : Port) : (s.setPort p q).validq = s.validq := by cases p <;> rfl
@[simp] theorem State.setPort_pfreeq (s : State) (p : PortId) (q : Port) : (s.setPort p q).pfreeq = s.pfreeq := by cases p <;> rfl
@[simp] theorem State.setPort_pvalidq (s : State) (p : PortId) (q : Port) : (s.setPort p q).pvalidq = s.pvalidq := by cases p <;> rfl
@[simp] theorem State.setPort_cur (s : State) (p : PortId) (q : Port) : (s.setPort p q).cur = s.cur := by cases p <;> rfl
@[simp] theorem State.setPort_rel0 (s : State) (p : PortId) (q : Port) : (s.setPort p q).rel0 = s.rel0 := by cases p <;> rfl
@[simp] theorem State.setPort_rel1 (s : State) (p : PortId) (q : Port) : (s.setPort p q).rel1 = s.rel1 := by cases p <;> rfl
@[simp] theorem State.setPort_prodBufs (s : State) (p : PortId) (q : Port) : (s.setPort p q).prodBufs = s.prodBufs := by cases p <;> rfl
@[simp] theorem State.setPort_prodPair (s : State) (p : PortId) (q : Port) : (s.setPort p q).prodPair = s.prodPair := by cases p <;> rfl
@[simp] theorem State.setPort_token (s : State) (p : PortId) (q : Port) : (s.setPort p q).token = s.token := by cases p <;> rfl
@[simp] theorem State.setPort_filled (s : State) (p : PortId) (q : Port) : (s.setPort p q).filled = s.filled := by cases p <;> rfl
@[simp] theorem State.setPort_mem (s : State) (p : PortId) (q : Port) : (s.setPort p q).mem = s.mem := by cases p <;> rfl
@[simp] theorem State.setPort_ringWr (s : State) (p : PortId) (q : Port) : (s.setPort p q).ringWr = s.ringWr := by cases p <;> rfl
@[simp] theorem State.setPort_ringRd (s : State) (p : PortId) (q : Port) : (s.setPort p q).ringRd = s.ringRd := by cases p <;> rfl
@[simp] theorem State.setPort_prog (s : State) (p : PortId) (q : Port) : (s.setPort p q).prog = s.prog := by cases p <;> rfl
@[simp] theorem State.setPort_laneLine (s : State) (p : PortId) (q : Port) : (s.setPort p q).laneLine = s.laneLine := by cases p <;> rfl
@[simp] theorem State.setPort_bus (s : State) (p : PortId) (q : Port) : (s.setPort p q).bus = s.bus := by cases p <;> rfl
@[simp] theorem State.setPort_env (s : State) (p : PortId) (q : Port) : (s.setPort p q).env = s.env := by cases p <;> rfl

@[simp] theorem State.setPort_port_self (s : State) (p : PortId) (q : Port) : (s.setPort p q).port p = q := by
  cases p <;> rfl

theorem State.setPort_port_other (s : State) {p p' : PortId} (q : Port) (h : p' ≠ p) :
    (s.setPort p q).port p' = s.port p' := by
  cases p <;> cases p' <;> first | rfl | exact absurd rfl h

/-! ## A command completes -/

@[simp] theorem State.reply_params (s : State) (st : Status) (v : Word) : (s.reply st v).params = s.params := State.setPort_params _ _ _
@[simp] theorem State.reply_lifecycle (s : State) (st : Status) (v : Word) : (s.reply st v).lifecycle = s.lifecycle := State.setPort_lifecycle _ _ _
@[simp] theorem State.reply_fault (s : State) (st : Status) (v : Word) : (s.reply st v).fault = s.fault := State.setPort_fault _ _ _
@[simp] theorem State.reply_phase (s : State) (st : Status) (v : Word) : (s.reply st v).phase = s.phase := State.setPort_phase _ _ _
@[simp] theorem State.reply_vctr (s : State) (st : Status) (v : Word) : (s.reply st v).vctr = s.vctr := State.setPort_vctr _ _ _
@[simp] theorem State.reply_frame (s : State) (st : Status) (v : Word) : (s.reply st v).frame = s.frame := State.setPort_frame _ _ _
@[simp] theorem State.reply_lateCnt (s : State) (st : Status) (v : Word) : (s.reply st v).lateCnt = s.lateCnt := State.setPort_lateCnt _ _ _
@[simp] theorem State.reply_errCnt (s : State) (st : Status) (v : Word) : (s.reply st v).errCnt = s.errCnt := State.setPort_errCnt _ _ _
@[simp] theorem State.reply_audioEn (s : State) (st : Status) (v : Word) : (s.reply st v).audioEn = s.audioEn := State.setPort_audioEn _ _ _
@[simp] theorem State.reply_audioOk (s : State) (st : Status) (v : Word) : (s.reply st v).audioOk = s.audioOk := State.setPort_audioOk _ _ _
@[simp] theorem State.reply_cts (s : State) (st : Status) (v : Word) : (s.reply st v).cts = s.cts := State.setPort_cts _ _ _
@[simp] theorem State.reply_nval (s : State) (st : Status) (v : Word) : (s.reply st v).nval = s.nval := State.setPort_nval _ _ _
@[simp] theorem State.reply_audFrameIdx (s : State) (st : Status) (v : Word) : (s.reply st v).audFrameIdx = s.audFrameIdx := State.setPort_audFrameIdx _ _ _
@[simp] theorem State.reply_irqCore (s : State) (st : Status) (v : Word) : (s.reply st v).irqCore = s.irqCore := State.setPort_irqCore _ _ _
@[simp] theorem State.reply_irqEn (s : State) (st : Status) (v : Word) : (s.reply st v).irqEn = s.irqEn := State.setPort_irqEn _ _ _
@[simp] theorem State.reply_cfgRepeatK (s : State) (st : Status) (v : Word) : (s.reply st v).cfgRepeatK = s.cfgRepeatK := State.setPort_cfgRepeatK _ _ _
@[simp] theorem State.reply_cfgBandFirst (s : State) (st : Status) (v : Word) : (s.reply st v).cfgBandFirst = s.cfgBandFirst := State.setPort_cfgBandFirst _ _ _
@[simp] theorem State.reply_cfgBandCount (s : State) (st : Status) (v : Word) : (s.reply st v).cfgBandCount = s.cfgBandCount := State.setPort_cfgBandCount _ _ _
@[simp] theorem State.reply_cfgScanlineEmu (s : State) (st : Status) (v : Word) : (s.reply st v).cfgScanlineEmu = s.cfgScanlineEmu := State.setPort_cfgScanlineEmu _ _ _
@[simp] theorem State.reply_cfgSampleRate (s : State) (st : Status) (v : Word) : (s.reply st v).cfgSampleRate = s.cfgSampleRate := State.setPort_cfgSampleRate _ _ _
@[simp] theorem State.reply_tt (s : State) (st : Status) (v : Word) : (s.reply st v).tt = s.tt := State.setPort_tt _ _ _
@[simp] theorem State.reply_k (s : State) (st : Status) (v : Word) : (s.reply st v).k = s.k := State.setPort_k _ _ _
@[simp] theorem State.reply_bandFirst (s : State) (st : Status) (v : Word) : (s.reply st v).bandFirst = s.bandFirst := State.setPort_bandFirst _ _ _
@[simp] theorem State.reply_bandEnd (s : State) (st : Status) (v : Word) : (s.reply st v).bandEnd = s.bandEnd := State.setPort_bandEnd _ _ _
@[simp] theorem State.reply_scanlineEmu (s : State) (st : Status) (v : Word) : (s.reply st v).scanlineEmu = s.scanlineEmu := State.setPort_scanlineEmu _ _ _
@[simp] theorem State.reply_rateCode (s : State) (st : Status) (v : Word) : (s.reply st v).rateCode = s.rateCode := State.setPort_rateCode _ _ _
@[simp] theorem State.reply_allocated (s : State) (st : Status) (v : Word) : (s.reply st v).allocated = s.allocated := State.setPort_allocated _ _ _
@[simp] theorem State.reply_freeq (s : State) (st : Status) (v : Word) : (s.reply st v).freeq = s.freeq := State.setPort_freeq _ _ _
@[simp] theorem State.reply_validq (s : State) (st : Status) (v : Word) : (s.reply st v).validq = s.validq := State.setPort_validq _ _ _
@[simp] theorem State.reply_pfreeq (s : State) (st : Status) (v : Word) : (s.reply st v).pfreeq = s.pfreeq := State.setPort_pfreeq _ _ _
@[simp] theorem State.reply_pvalidq (s : State) (st : Status) (v : Word) : (s.reply st v).pvalidq = s.pvalidq := State.setPort_pvalidq _ _ _
@[simp] theorem State.reply_cur (s : State) (st : Status) (v : Word) : (s.reply st v).cur = s.cur := State.setPort_cur _ _ _
@[simp] theorem State.reply_rel0 (s : State) (st : Status) (v : Word) : (s.reply st v).rel0 = s.rel0 := State.setPort_rel0 _ _ _
@[simp] theorem State.reply_rel1 (s : State) (st : Status) (v : Word) : (s.reply st v).rel1 = s.rel1 := State.setPort_rel1 _ _ _
@[simp] theorem State.reply_prodBufs (s : State) (st : Status) (v : Word) : (s.reply st v).prodBufs = s.prodBufs := State.setPort_prodBufs _ _ _
@[simp] theorem State.reply_prodPair (s : State) (st : Status) (v : Word) : (s.reply st v).prodPair = s.prodPair := State.setPort_prodPair _ _ _
@[simp] theorem State.reply_token (s : State) (st : Status) (v : Word) : (s.reply st v).token = s.token := State.setPort_token _ _ _
@[simp] theorem State.reply_filled (s : State) (st : Status) (v : Word) : (s.reply st v).filled = s.filled := State.setPort_filled _ _ _
@[simp] theorem State.reply_mem (s : State) (st : Status) (v : Word) : (s.reply st v).mem = s.mem := State.setPort_mem _ _ _
@[simp] theorem State.reply_ringWr (s : State) (st : Status) (v : Word) : (s.reply st v).ringWr = s.ringWr := State.setPort_ringWr _ _ _
@[simp] theorem State.reply_ringRd (s : State) (st : Status) (v : Word) : (s.reply st v).ringRd = s.ringRd := State.setPort_ringRd _ _ _
@[simp] theorem State.reply_prog (s : State) (st : Status) (v : Word) : (s.reply st v).prog = s.prog := State.setPort_prog _ _ _
@[simp] theorem State.reply_laneLine (s : State) (st : Status) (v : Word) : (s.reply st v).laneLine = s.laneLine := State.setPort_laneLine _ _ _
@[simp] theorem State.reply_bus (s : State) (st : Status) (v : Word) : (s.reply st v).bus = s.bus := State.setPort_bus _ _ _
@[simp] theorem State.reply_env (s : State) (st : Status) (v : Word) : (s.reply st v).env = s.env := State.setPort_env _ _ _

@[simp] theorem State.reply_port_self (s : State) (st : Status) (v : Word) :
    (s.reply st v).port s.bus.port = s.issuer.complete st v :=
  State.setPort_port_self _ _ _

theorem State.reply_port_other (s : State) (st : Status) (v : Word) {p : PortId} (h : p ≠ s.bus.port) :
    (s.reply st v).port p = s.port p :=
  State.setPort_port_other _ _ h

/-! ## A command holds -/

@[simp] theorem State.hold_params (s : State) : (s.hold).params = s.params := State.setPort_params _ _ _
@[simp] theorem State.hold_lifecycle (s : State) : (s.hold).lifecycle = s.lifecycle := State.setPort_lifecycle _ _ _
@[simp] theorem State.hold_fault (s : State) : (s.hold).fault = s.fault := State.setPort_fault _ _ _
@[simp] theorem State.hold_phase (s : State) : (s.hold).phase = s.phase := State.setPort_phase _ _ _
@[simp] theorem State.hold_vctr (s : State) : (s.hold).vctr = s.vctr := State.setPort_vctr _ _ _
@[simp] theorem State.hold_frame (s : State) : (s.hold).frame = s.frame := State.setPort_frame _ _ _
@[simp] theorem State.hold_lateCnt (s : State) : (s.hold).lateCnt = s.lateCnt := State.setPort_lateCnt _ _ _
@[simp] theorem State.hold_errCnt (s : State) : (s.hold).errCnt = s.errCnt := State.setPort_errCnt _ _ _
@[simp] theorem State.hold_audioEn (s : State) : (s.hold).audioEn = s.audioEn := State.setPort_audioEn _ _ _
@[simp] theorem State.hold_audioOk (s : State) : (s.hold).audioOk = s.audioOk := State.setPort_audioOk _ _ _
@[simp] theorem State.hold_cts (s : State) : (s.hold).cts = s.cts := State.setPort_cts _ _ _
@[simp] theorem State.hold_nval (s : State) : (s.hold).nval = s.nval := State.setPort_nval _ _ _
@[simp] theorem State.hold_audFrameIdx (s : State) : (s.hold).audFrameIdx = s.audFrameIdx := State.setPort_audFrameIdx _ _ _
@[simp] theorem State.hold_irqCore (s : State) : (s.hold).irqCore = s.irqCore := State.setPort_irqCore _ _ _
@[simp] theorem State.hold_irqEn (s : State) : (s.hold).irqEn = s.irqEn := State.setPort_irqEn _ _ _
@[simp] theorem State.hold_cfgRepeatK (s : State) : (s.hold).cfgRepeatK = s.cfgRepeatK := State.setPort_cfgRepeatK _ _ _
@[simp] theorem State.hold_cfgBandFirst (s : State) : (s.hold).cfgBandFirst = s.cfgBandFirst := State.setPort_cfgBandFirst _ _ _
@[simp] theorem State.hold_cfgBandCount (s : State) : (s.hold).cfgBandCount = s.cfgBandCount := State.setPort_cfgBandCount _ _ _
@[simp] theorem State.hold_cfgScanlineEmu (s : State) : (s.hold).cfgScanlineEmu = s.cfgScanlineEmu := State.setPort_cfgScanlineEmu _ _ _
@[simp] theorem State.hold_cfgSampleRate (s : State) : (s.hold).cfgSampleRate = s.cfgSampleRate := State.setPort_cfgSampleRate _ _ _
@[simp] theorem State.hold_tt (s : State) : (s.hold).tt = s.tt := State.setPort_tt _ _ _
@[simp] theorem State.hold_k (s : State) : (s.hold).k = s.k := State.setPort_k _ _ _
@[simp] theorem State.hold_bandFirst (s : State) : (s.hold).bandFirst = s.bandFirst := State.setPort_bandFirst _ _ _
@[simp] theorem State.hold_bandEnd (s : State) : (s.hold).bandEnd = s.bandEnd := State.setPort_bandEnd _ _ _
@[simp] theorem State.hold_scanlineEmu (s : State) : (s.hold).scanlineEmu = s.scanlineEmu := State.setPort_scanlineEmu _ _ _
@[simp] theorem State.hold_rateCode (s : State) : (s.hold).rateCode = s.rateCode := State.setPort_rateCode _ _ _
@[simp] theorem State.hold_allocated (s : State) : (s.hold).allocated = s.allocated := State.setPort_allocated _ _ _
@[simp] theorem State.hold_freeq (s : State) : (s.hold).freeq = s.freeq := State.setPort_freeq _ _ _
@[simp] theorem State.hold_validq (s : State) : (s.hold).validq = s.validq := State.setPort_validq _ _ _
@[simp] theorem State.hold_pfreeq (s : State) : (s.hold).pfreeq = s.pfreeq := State.setPort_pfreeq _ _ _
@[simp] theorem State.hold_pvalidq (s : State) : (s.hold).pvalidq = s.pvalidq := State.setPort_pvalidq _ _ _
@[simp] theorem State.hold_cur (s : State) : (s.hold).cur = s.cur := State.setPort_cur _ _ _
@[simp] theorem State.hold_rel0 (s : State) : (s.hold).rel0 = s.rel0 := State.setPort_rel0 _ _ _
@[simp] theorem State.hold_rel1 (s : State) : (s.hold).rel1 = s.rel1 := State.setPort_rel1 _ _ _
@[simp] theorem State.hold_prodBufs (s : State) : (s.hold).prodBufs = s.prodBufs := State.setPort_prodBufs _ _ _
@[simp] theorem State.hold_prodPair (s : State) : (s.hold).prodPair = s.prodPair := State.setPort_prodPair _ _ _
@[simp] theorem State.hold_token (s : State) : (s.hold).token = s.token := State.setPort_token _ _ _
@[simp] theorem State.hold_filled (s : State) : (s.hold).filled = s.filled := State.setPort_filled _ _ _
@[simp] theorem State.hold_mem (s : State) : (s.hold).mem = s.mem := State.setPort_mem _ _ _
@[simp] theorem State.hold_ringWr (s : State) : (s.hold).ringWr = s.ringWr := State.setPort_ringWr _ _ _
@[simp] theorem State.hold_ringRd (s : State) : (s.hold).ringRd = s.ringRd := State.setPort_ringRd _ _ _
@[simp] theorem State.hold_prog (s : State) : (s.hold).prog = s.prog := State.setPort_prog _ _ _
@[simp] theorem State.hold_laneLine (s : State) : (s.hold).laneLine = s.laneLine := State.setPort_laneLine _ _ _
@[simp] theorem State.hold_bus (s : State) : (s.hold).bus = s.bus := State.setPort_bus _ _ _
@[simp] theorem State.hold_env (s : State) : (s.hold).env = s.env := State.setPort_env _ _ _

/-! ## A command is delivered -/

@[simp] theorem State.latch_params (s : State) (p : PortId) (c : Command) : (s.latch p c).params = s.params := State.setPort_params _ _ _
@[simp] theorem State.latch_lifecycle (s : State) (p : PortId) (c : Command) : (s.latch p c).lifecycle = s.lifecycle := State.setPort_lifecycle _ _ _
@[simp] theorem State.latch_fault (s : State) (p : PortId) (c : Command) : (s.latch p c).fault = s.fault := State.setPort_fault _ _ _
@[simp] theorem State.latch_phase (s : State) (p : PortId) (c : Command) : (s.latch p c).phase = s.phase := State.setPort_phase _ _ _
@[simp] theorem State.latch_vctr (s : State) (p : PortId) (c : Command) : (s.latch p c).vctr = s.vctr := State.setPort_vctr _ _ _
@[simp] theorem State.latch_frame (s : State) (p : PortId) (c : Command) : (s.latch p c).frame = s.frame := State.setPort_frame _ _ _
@[simp] theorem State.latch_lateCnt (s : State) (p : PortId) (c : Command) : (s.latch p c).lateCnt = s.lateCnt := State.setPort_lateCnt _ _ _
@[simp] theorem State.latch_errCnt (s : State) (p : PortId) (c : Command) : (s.latch p c).errCnt = s.errCnt := State.setPort_errCnt _ _ _
@[simp] theorem State.latch_audioEn (s : State) (p : PortId) (c : Command) : (s.latch p c).audioEn = s.audioEn := State.setPort_audioEn _ _ _
@[simp] theorem State.latch_audioOk (s : State) (p : PortId) (c : Command) : (s.latch p c).audioOk = s.audioOk := State.setPort_audioOk _ _ _
@[simp] theorem State.latch_cts (s : State) (p : PortId) (c : Command) : (s.latch p c).cts = s.cts := State.setPort_cts _ _ _
@[simp] theorem State.latch_nval (s : State) (p : PortId) (c : Command) : (s.latch p c).nval = s.nval := State.setPort_nval _ _ _
@[simp] theorem State.latch_audFrameIdx (s : State) (p : PortId) (c : Command) : (s.latch p c).audFrameIdx = s.audFrameIdx := State.setPort_audFrameIdx _ _ _
@[simp] theorem State.latch_irqCore (s : State) (p : PortId) (c : Command) : (s.latch p c).irqCore = s.irqCore := State.setPort_irqCore _ _ _
@[simp] theorem State.latch_irqEn (s : State) (p : PortId) (c : Command) : (s.latch p c).irqEn = s.irqEn := State.setPort_irqEn _ _ _
@[simp] theorem State.latch_cfgRepeatK (s : State) (p : PortId) (c : Command) : (s.latch p c).cfgRepeatK = s.cfgRepeatK := State.setPort_cfgRepeatK _ _ _
@[simp] theorem State.latch_cfgBandFirst (s : State) (p : PortId) (c : Command) : (s.latch p c).cfgBandFirst = s.cfgBandFirst := State.setPort_cfgBandFirst _ _ _
@[simp] theorem State.latch_cfgBandCount (s : State) (p : PortId) (c : Command) : (s.latch p c).cfgBandCount = s.cfgBandCount := State.setPort_cfgBandCount _ _ _
@[simp] theorem State.latch_cfgScanlineEmu (s : State) (p : PortId) (c : Command) : (s.latch p c).cfgScanlineEmu = s.cfgScanlineEmu := State.setPort_cfgScanlineEmu _ _ _
@[simp] theorem State.latch_cfgSampleRate (s : State) (p : PortId) (c : Command) : (s.latch p c).cfgSampleRate = s.cfgSampleRate := State.setPort_cfgSampleRate _ _ _
@[simp] theorem State.latch_tt (s : State) (p : PortId) (c : Command) : (s.latch p c).tt = s.tt := State.setPort_tt _ _ _
@[simp] theorem State.latch_k (s : State) (p : PortId) (c : Command) : (s.latch p c).k = s.k := State.setPort_k _ _ _
@[simp] theorem State.latch_bandFirst (s : State) (p : PortId) (c : Command) : (s.latch p c).bandFirst = s.bandFirst := State.setPort_bandFirst _ _ _
@[simp] theorem State.latch_bandEnd (s : State) (p : PortId) (c : Command) : (s.latch p c).bandEnd = s.bandEnd := State.setPort_bandEnd _ _ _
@[simp] theorem State.latch_scanlineEmu (s : State) (p : PortId) (c : Command) : (s.latch p c).scanlineEmu = s.scanlineEmu := State.setPort_scanlineEmu _ _ _
@[simp] theorem State.latch_rateCode (s : State) (p : PortId) (c : Command) : (s.latch p c).rateCode = s.rateCode := State.setPort_rateCode _ _ _
@[simp] theorem State.latch_allocated (s : State) (p : PortId) (c : Command) : (s.latch p c).allocated = s.allocated := State.setPort_allocated _ _ _
@[simp] theorem State.latch_freeq (s : State) (p : PortId) (c : Command) : (s.latch p c).freeq = s.freeq := State.setPort_freeq _ _ _
@[simp] theorem State.latch_validq (s : State) (p : PortId) (c : Command) : (s.latch p c).validq = s.validq := State.setPort_validq _ _ _
@[simp] theorem State.latch_pfreeq (s : State) (p : PortId) (c : Command) : (s.latch p c).pfreeq = s.pfreeq := State.setPort_pfreeq _ _ _
@[simp] theorem State.latch_pvalidq (s : State) (p : PortId) (c : Command) : (s.latch p c).pvalidq = s.pvalidq := State.setPort_pvalidq _ _ _
@[simp] theorem State.latch_cur (s : State) (p : PortId) (c : Command) : (s.latch p c).cur = s.cur := State.setPort_cur _ _ _
@[simp] theorem State.latch_rel0 (s : State) (p : PortId) (c : Command) : (s.latch p c).rel0 = s.rel0 := State.setPort_rel0 _ _ _
@[simp] theorem State.latch_rel1 (s : State) (p : PortId) (c : Command) : (s.latch p c).rel1 = s.rel1 := State.setPort_rel1 _ _ _
@[simp] theorem State.latch_prodBufs (s : State) (p : PortId) (c : Command) : (s.latch p c).prodBufs = s.prodBufs := State.setPort_prodBufs _ _ _
@[simp] theorem State.latch_prodPair (s : State) (p : PortId) (c : Command) : (s.latch p c).prodPair = s.prodPair := State.setPort_prodPair _ _ _
@[simp] theorem State.latch_token (s : State) (p : PortId) (c : Command) : (s.latch p c).token = s.token := State.setPort_token _ _ _
@[simp] theorem State.latch_filled (s : State) (p : PortId) (c : Command) : (s.latch p c).filled = s.filled := State.setPort_filled _ _ _
@[simp] theorem State.latch_mem (s : State) (p : PortId) (c : Command) : (s.latch p c).mem = s.mem := State.setPort_mem _ _ _
@[simp] theorem State.latch_ringWr (s : State) (p : PortId) (c : Command) : (s.latch p c).ringWr = s.ringWr := State.setPort_ringWr _ _ _
@[simp] theorem State.latch_ringRd (s : State) (p : PortId) (c : Command) : (s.latch p c).ringRd = s.ringRd := State.setPort_ringRd _ _ _
@[simp] theorem State.latch_prog (s : State) (p : PortId) (c : Command) : (s.latch p c).prog = s.prog := State.setPort_prog _ _ _
@[simp] theorem State.latch_laneLine (s : State) (p : PortId) (c : Command) : (s.latch p c).laneLine = s.laneLine := State.setPort_laneLine _ _ _
@[simp] theorem State.latch_env (s : State) (p : PortId) (c : Command) : (s.latch p c).env = s.env := State.setPort_env _ _ _

@[simp] theorem State.latch_bus (s : State) (p : PortId) (c : Command) :
    (s.latch p c).bus = { port := p, cmd := c } := rfl

@[simp] theorem State.latch_port_self (s : State) (p : PortId) (c : Command) :
    (s.latch p c).port p = { s.port p with d0 := c.d0, d1 := c.d1, d2 := c.d2, d3 := c.d3 } := by
  cases p <;> rfl

@[simp] theorem State.latch_issuer (s : State) (p : PortId) (c : Command) :
    (s.latch p c).issuer = { s.port p with d0 := c.d0, d1 := c.d1, d2 := c.d2, d3 := c.d3 } :=
  State.latch_port_self s p c

/-! ## Memory is written -/

@[simp] theorem State.write_params (s : State) (o : MemObj) (off n v : Nat) : (s.write o off n v).params = s.params := rfl
@[simp] theorem State.write_lifecycle (s : State) (o : MemObj) (off n v : Nat) : (s.write o off n v).lifecycle = s.lifecycle := rfl
@[simp] theorem State.write_fault (s : State) (o : MemObj) (off n v : Nat) : (s.write o off n v).fault = s.fault := rfl
@[simp] theorem State.write_phase (s : State) (o : MemObj) (off n v : Nat) : (s.write o off n v).phase = s.phase := rfl
@[simp] theorem State.write_vctr (s : State) (o : MemObj) (off n v : Nat) : (s.write o off n v).vctr = s.vctr := rfl
@[simp] theorem State.write_frame (s : State) (o : MemObj) (off n v : Nat) : (s.write o off n v).frame = s.frame := rfl
@[simp] theorem State.write_lateCnt (s : State) (o : MemObj) (off n v : Nat) : (s.write o off n v).lateCnt = s.lateCnt := rfl
@[simp] theorem State.write_errCnt (s : State) (o : MemObj) (off n v : Nat) : (s.write o off n v).errCnt = s.errCnt := rfl
@[simp] theorem State.write_audioEn (s : State) (o : MemObj) (off n v : Nat) : (s.write o off n v).audioEn = s.audioEn := rfl
@[simp] theorem State.write_audioOk (s : State) (o : MemObj) (off n v : Nat) : (s.write o off n v).audioOk = s.audioOk := rfl
@[simp] theorem State.write_cts (s : State) (o : MemObj) (off n v : Nat) : (s.write o off n v).cts = s.cts := rfl
@[simp] theorem State.write_nval (s : State) (o : MemObj) (off n v : Nat) : (s.write o off n v).nval = s.nval := rfl
@[simp] theorem State.write_audFrameIdx (s : State) (o : MemObj) (off n v : Nat) : (s.write o off n v).audFrameIdx = s.audFrameIdx := rfl
@[simp] theorem State.write_irqCore (s : State) (o : MemObj) (off n v : Nat) : (s.write o off n v).irqCore = s.irqCore := rfl
@[simp] theorem State.write_irqEn (s : State) (o : MemObj) (off n v : Nat) : (s.write o off n v).irqEn = s.irqEn := rfl
@[simp] theorem State.write_cfgRepeatK (s : State) (o : MemObj) (off n v : Nat) : (s.write o off n v).cfgRepeatK = s.cfgRepeatK := rfl
@[simp] theorem State.write_cfgBandFirst (s : State) (o : MemObj) (off n v : Nat) : (s.write o off n v).cfgBandFirst = s.cfgBandFirst := rfl
@[simp] theorem State.write_cfgBandCount (s : State) (o : MemObj) (off n v : Nat) : (s.write o off n v).cfgBandCount = s.cfgBandCount := rfl
@[simp] theorem State.write_cfgScanlineEmu (s : State) (o : MemObj) (off n v : Nat) : (s.write o off n v).cfgScanlineEmu = s.cfgScanlineEmu := rfl
@[simp] theorem State.write_cfgSampleRate (s : State) (o : MemObj) (off n v : Nat) : (s.write o off n v).cfgSampleRate = s.cfgSampleRate := rfl
@[simp] theorem State.write_tt (s : State) (o : MemObj) (off n v : Nat) : (s.write o off n v).tt = s.tt := rfl
@[simp] theorem State.write_k (s : State) (o : MemObj) (off n v : Nat) : (s.write o off n v).k = s.k := rfl
@[simp] theorem State.write_bandFirst (s : State) (o : MemObj) (off n v : Nat) : (s.write o off n v).bandFirst = s.bandFirst := rfl
@[simp] theorem State.write_bandEnd (s : State) (o : MemObj) (off n v : Nat) : (s.write o off n v).bandEnd = s.bandEnd := rfl
@[simp] theorem State.write_scanlineEmu (s : State) (o : MemObj) (off n v : Nat) : (s.write o off n v).scanlineEmu = s.scanlineEmu := rfl
@[simp] theorem State.write_rateCode (s : State) (o : MemObj) (off n v : Nat) : (s.write o off n v).rateCode = s.rateCode := rfl
@[simp] theorem State.write_allocated (s : State) (o : MemObj) (off n v : Nat) : (s.write o off n v).allocated = s.allocated := rfl
@[simp] theorem State.write_freeq (s : State) (o : MemObj) (off n v : Nat) : (s.write o off n v).freeq = s.freeq := rfl
@[simp] theorem State.write_validq (s : State) (o : MemObj) (off n v : Nat) : (s.write o off n v).validq = s.validq := rfl
@[simp] theorem State.write_pfreeq (s : State) (o : MemObj) (off n v : Nat) : (s.write o off n v).pfreeq = s.pfreeq := rfl
@[simp] theorem State.write_pvalidq (s : State) (o : MemObj) (off n v : Nat) : (s.write o off n v).pvalidq = s.pvalidq := rfl
@[simp] theorem State.write_cur (s : State) (o : MemObj) (off n v : Nat) : (s.write o off n v).cur = s.cur := rfl
@[simp] theorem State.write_rel0 (s : State) (o : MemObj) (off n v : Nat) : (s.write o off n v).rel0 = s.rel0 := rfl
@[simp] theorem State.write_rel1 (s : State) (o : MemObj) (off n v : Nat) : (s.write o off n v).rel1 = s.rel1 := rfl
@[simp] theorem State.write_prodBufs (s : State) (o : MemObj) (off n v : Nat) : (s.write o off n v).prodBufs = s.prodBufs := rfl
@[simp] theorem State.write_prodPair (s : State) (o : MemObj) (off n v : Nat) : (s.write o off n v).prodPair = s.prodPair := rfl
@[simp] theorem State.write_token (s : State) (o : MemObj) (off n v : Nat) : (s.write o off n v).token = s.token := rfl
@[simp] theorem State.write_filled (s : State) (o : MemObj) (off n v : Nat) : (s.write o off n v).filled = s.filled := rfl
@[simp] theorem State.write_ringWr (s : State) (o : MemObj) (off n v : Nat) : (s.write o off n v).ringWr = s.ringWr := rfl
@[simp] theorem State.write_ringRd (s : State) (o : MemObj) (off n v : Nat) : (s.write o off n v).ringRd = s.ringRd := rfl
@[simp] theorem State.write_prog (s : State) (o : MemObj) (off n v : Nat) : (s.write o off n v).prog = s.prog := rfl
@[simp] theorem State.write_laneLine (s : State) (o : MemObj) (off n v : Nat) : (s.write o off n v).laneLine = s.laneLine := rfl
@[simp] theorem State.write_control (s : State) (o : MemObj) (off n v : Nat) : (s.write o off n v).control = s.control := rfl
@[simp] theorem State.write_producer (s : State) (o : MemObj) (off n v : Nat) : (s.write o off n v).producer = s.producer := rfl
@[simp] theorem State.write_source (s : State) (o : MemObj) (off n v : Nat) : (s.write o off n v).source = s.source := rfl
@[simp] theorem State.write_bus (s : State) (o : MemObj) (off n v : Nat) : (s.write o off n v).bus = s.bus := rfl
@[simp] theorem State.write_env (s : State) (o : MemObj) (off n v : Nat) : (s.write o off n v).env = s.env := rfl

/-! ## The flags and tokens of a buffer are written -/

@[simp] theorem State.setFilled_params (s : State) (h : Handle) (b : Bool) : (s.setFilled h b).params = s.params := rfl
@[simp] theorem State.setFilled_lifecycle (s : State) (h : Handle) (b : Bool) : (s.setFilled h b).lifecycle = s.lifecycle := rfl
@[simp] theorem State.setFilled_fault (s : State) (h : Handle) (b : Bool) : (s.setFilled h b).fault = s.fault := rfl
@[simp] theorem State.setFilled_phase (s : State) (h : Handle) (b : Bool) : (s.setFilled h b).phase = s.phase := rfl
@[simp] theorem State.setFilled_vctr (s : State) (h : Handle) (b : Bool) : (s.setFilled h b).vctr = s.vctr := rfl
@[simp] theorem State.setFilled_frame (s : State) (h : Handle) (b : Bool) : (s.setFilled h b).frame = s.frame := rfl
@[simp] theorem State.setFilled_lateCnt (s : State) (h : Handle) (b : Bool) : (s.setFilled h b).lateCnt = s.lateCnt := rfl
@[simp] theorem State.setFilled_errCnt (s : State) (h : Handle) (b : Bool) : (s.setFilled h b).errCnt = s.errCnt := rfl
@[simp] theorem State.setFilled_audioEn (s : State) (h : Handle) (b : Bool) : (s.setFilled h b).audioEn = s.audioEn := rfl
@[simp] theorem State.setFilled_audioOk (s : State) (h : Handle) (b : Bool) : (s.setFilled h b).audioOk = s.audioOk := rfl
@[simp] theorem State.setFilled_cts (s : State) (h : Handle) (b : Bool) : (s.setFilled h b).cts = s.cts := rfl
@[simp] theorem State.setFilled_nval (s : State) (h : Handle) (b : Bool) : (s.setFilled h b).nval = s.nval := rfl
@[simp] theorem State.setFilled_audFrameIdx (s : State) (h : Handle) (b : Bool) : (s.setFilled h b).audFrameIdx = s.audFrameIdx := rfl
@[simp] theorem State.setFilled_irqCore (s : State) (h : Handle) (b : Bool) : (s.setFilled h b).irqCore = s.irqCore := rfl
@[simp] theorem State.setFilled_irqEn (s : State) (h : Handle) (b : Bool) : (s.setFilled h b).irqEn = s.irqEn := rfl
@[simp] theorem State.setFilled_cfgRepeatK (s : State) (h : Handle) (b : Bool) : (s.setFilled h b).cfgRepeatK = s.cfgRepeatK := rfl
@[simp] theorem State.setFilled_cfgBandFirst (s : State) (h : Handle) (b : Bool) : (s.setFilled h b).cfgBandFirst = s.cfgBandFirst := rfl
@[simp] theorem State.setFilled_cfgBandCount (s : State) (h : Handle) (b : Bool) : (s.setFilled h b).cfgBandCount = s.cfgBandCount := rfl
@[simp] theorem State.setFilled_cfgScanlineEmu (s : State) (h : Handle) (b : Bool) : (s.setFilled h b).cfgScanlineEmu = s.cfgScanlineEmu := rfl
@[simp] theorem State.setFilled_cfgSampleRate (s : State) (h : Handle) (b : Bool) : (s.setFilled h b).cfgSampleRate = s.cfgSampleRate := rfl
@[simp] theorem State.setFilled_tt (s : State) (h : Handle) (b : Bool) : (s.setFilled h b).tt = s.tt := rfl
@[simp] theorem State.setFilled_k (s : State) (h : Handle) (b : Bool) : (s.setFilled h b).k = s.k := rfl
@[simp] theorem State.setFilled_bandFirst (s : State) (h : Handle) (b : Bool) : (s.setFilled h b).bandFirst = s.bandFirst := rfl
@[simp] theorem State.setFilled_bandEnd (s : State) (h : Handle) (b : Bool) : (s.setFilled h b).bandEnd = s.bandEnd := rfl
@[simp] theorem State.setFilled_scanlineEmu (s : State) (h : Handle) (b : Bool) : (s.setFilled h b).scanlineEmu = s.scanlineEmu := rfl
@[simp] theorem State.setFilled_rateCode (s : State) (h : Handle) (b : Bool) : (s.setFilled h b).rateCode = s.rateCode := rfl
@[simp] theorem State.setFilled_allocated (s : State) (h : Handle) (b : Bool) : (s.setFilled h b).allocated = s.allocated := rfl
@[simp] theorem State.setFilled_freeq (s : State) (h : Handle) (b : Bool) : (s.setFilled h b).freeq = s.freeq := rfl
@[simp] theorem State.setFilled_validq (s : State) (h : Handle) (b : Bool) : (s.setFilled h b).validq = s.validq := rfl
@[simp] theorem State.setFilled_pfreeq (s : State) (h : Handle) (b : Bool) : (s.setFilled h b).pfreeq = s.pfreeq := rfl
@[simp] theorem State.setFilled_pvalidq (s : State) (h : Handle) (b : Bool) : (s.setFilled h b).pvalidq = s.pvalidq := rfl
@[simp] theorem State.setFilled_cur (s : State) (h : Handle) (b : Bool) : (s.setFilled h b).cur = s.cur := rfl
@[simp] theorem State.setFilled_rel0 (s : State) (h : Handle) (b : Bool) : (s.setFilled h b).rel0 = s.rel0 := rfl
@[simp] theorem State.setFilled_rel1 (s : State) (h : Handle) (b : Bool) : (s.setFilled h b).rel1 = s.rel1 := rfl
@[simp] theorem State.setFilled_prodBufs (s : State) (h : Handle) (b : Bool) : (s.setFilled h b).prodBufs = s.prodBufs := rfl
@[simp] theorem State.setFilled_prodPair (s : State) (h : Handle) (b : Bool) : (s.setFilled h b).prodPair = s.prodPair := rfl
@[simp] theorem State.setFilled_token (s : State) (h : Handle) (b : Bool) : (s.setFilled h b).token = s.token := rfl
@[simp] theorem State.setFilled_mem (s : State) (h : Handle) (b : Bool) : (s.setFilled h b).mem = s.mem := rfl
@[simp] theorem State.setFilled_ringWr (s : State) (h : Handle) (b : Bool) : (s.setFilled h b).ringWr = s.ringWr := rfl
@[simp] theorem State.setFilled_ringRd (s : State) (h : Handle) (b : Bool) : (s.setFilled h b).ringRd = s.ringRd := rfl
@[simp] theorem State.setFilled_prog (s : State) (h : Handle) (b : Bool) : (s.setFilled h b).prog = s.prog := rfl
@[simp] theorem State.setFilled_laneLine (s : State) (h : Handle) (b : Bool) : (s.setFilled h b).laneLine = s.laneLine := rfl
@[simp] theorem State.setFilled_control (s : State) (h : Handle) (b : Bool) : (s.setFilled h b).control = s.control := rfl
@[simp] theorem State.setFilled_producer (s : State) (h : Handle) (b : Bool) : (s.setFilled h b).producer = s.producer := rfl
@[simp] theorem State.setFilled_source (s : State) (h : Handle) (b : Bool) : (s.setFilled h b).source = s.source := rfl
@[simp] theorem State.setFilled_bus (s : State) (h : Handle) (b : Bool) : (s.setFilled h b).bus = s.bus := rfl
@[simp] theorem State.setFilled_env (s : State) (h : Handle) (b : Bool) : (s.setFilled h b).env = s.env := rfl

@[simp] theorem State.setToken_params (s : State) (h : Handle) (tok : Half) : (s.setToken h tok).params = s.params := rfl
@[simp] theorem State.setToken_lifecycle (s : State) (h : Handle) (tok : Half) : (s.setToken h tok).lifecycle = s.lifecycle := rfl
@[simp] theorem State.setToken_fault (s : State) (h : Handle) (tok : Half) : (s.setToken h tok).fault = s.fault := rfl
@[simp] theorem State.setToken_phase (s : State) (h : Handle) (tok : Half) : (s.setToken h tok).phase = s.phase := rfl
@[simp] theorem State.setToken_vctr (s : State) (h : Handle) (tok : Half) : (s.setToken h tok).vctr = s.vctr := rfl
@[simp] theorem State.setToken_frame (s : State) (h : Handle) (tok : Half) : (s.setToken h tok).frame = s.frame := rfl
@[simp] theorem State.setToken_lateCnt (s : State) (h : Handle) (tok : Half) : (s.setToken h tok).lateCnt = s.lateCnt := rfl
@[simp] theorem State.setToken_errCnt (s : State) (h : Handle) (tok : Half) : (s.setToken h tok).errCnt = s.errCnt := rfl
@[simp] theorem State.setToken_audioEn (s : State) (h : Handle) (tok : Half) : (s.setToken h tok).audioEn = s.audioEn := rfl
@[simp] theorem State.setToken_audioOk (s : State) (h : Handle) (tok : Half) : (s.setToken h tok).audioOk = s.audioOk := rfl
@[simp] theorem State.setToken_cts (s : State) (h : Handle) (tok : Half) : (s.setToken h tok).cts = s.cts := rfl
@[simp] theorem State.setToken_nval (s : State) (h : Handle) (tok : Half) : (s.setToken h tok).nval = s.nval := rfl
@[simp] theorem State.setToken_audFrameIdx (s : State) (h : Handle) (tok : Half) : (s.setToken h tok).audFrameIdx = s.audFrameIdx := rfl
@[simp] theorem State.setToken_irqCore (s : State) (h : Handle) (tok : Half) : (s.setToken h tok).irqCore = s.irqCore := rfl
@[simp] theorem State.setToken_irqEn (s : State) (h : Handle) (tok : Half) : (s.setToken h tok).irqEn = s.irqEn := rfl
@[simp] theorem State.setToken_cfgRepeatK (s : State) (h : Handle) (tok : Half) : (s.setToken h tok).cfgRepeatK = s.cfgRepeatK := rfl
@[simp] theorem State.setToken_cfgBandFirst (s : State) (h : Handle) (tok : Half) : (s.setToken h tok).cfgBandFirst = s.cfgBandFirst := rfl
@[simp] theorem State.setToken_cfgBandCount (s : State) (h : Handle) (tok : Half) : (s.setToken h tok).cfgBandCount = s.cfgBandCount := rfl
@[simp] theorem State.setToken_cfgScanlineEmu (s : State) (h : Handle) (tok : Half) : (s.setToken h tok).cfgScanlineEmu = s.cfgScanlineEmu := rfl
@[simp] theorem State.setToken_cfgSampleRate (s : State) (h : Handle) (tok : Half) : (s.setToken h tok).cfgSampleRate = s.cfgSampleRate := rfl
@[simp] theorem State.setToken_tt (s : State) (h : Handle) (tok : Half) : (s.setToken h tok).tt = s.tt := rfl
@[simp] theorem State.setToken_k (s : State) (h : Handle) (tok : Half) : (s.setToken h tok).k = s.k := rfl
@[simp] theorem State.setToken_bandFirst (s : State) (h : Handle) (tok : Half) : (s.setToken h tok).bandFirst = s.bandFirst := rfl
@[simp] theorem State.setToken_bandEnd (s : State) (h : Handle) (tok : Half) : (s.setToken h tok).bandEnd = s.bandEnd := rfl
@[simp] theorem State.setToken_scanlineEmu (s : State) (h : Handle) (tok : Half) : (s.setToken h tok).scanlineEmu = s.scanlineEmu := rfl
@[simp] theorem State.setToken_rateCode (s : State) (h : Handle) (tok : Half) : (s.setToken h tok).rateCode = s.rateCode := rfl
@[simp] theorem State.setToken_allocated (s : State) (h : Handle) (tok : Half) : (s.setToken h tok).allocated = s.allocated := rfl
@[simp] theorem State.setToken_freeq (s : State) (h : Handle) (tok : Half) : (s.setToken h tok).freeq = s.freeq := rfl
@[simp] theorem State.setToken_validq (s : State) (h : Handle) (tok : Half) : (s.setToken h tok).validq = s.validq := rfl
@[simp] theorem State.setToken_pfreeq (s : State) (h : Handle) (tok : Half) : (s.setToken h tok).pfreeq = s.pfreeq := rfl
@[simp] theorem State.setToken_pvalidq (s : State) (h : Handle) (tok : Half) : (s.setToken h tok).pvalidq = s.pvalidq := rfl
@[simp] theorem State.setToken_cur (s : State) (h : Handle) (tok : Half) : (s.setToken h tok).cur = s.cur := rfl
@[simp] theorem State.setToken_rel0 (s : State) (h : Handle) (tok : Half) : (s.setToken h tok).rel0 = s.rel0 := rfl
@[simp] theorem State.setToken_rel1 (s : State) (h : Handle) (tok : Half) : (s.setToken h tok).rel1 = s.rel1 := rfl
@[simp] theorem State.setToken_prodBufs (s : State) (h : Handle) (tok : Half) : (s.setToken h tok).prodBufs = s.prodBufs := rfl
@[simp] theorem State.setToken_prodPair (s : State) (h : Handle) (tok : Half) : (s.setToken h tok).prodPair = s.prodPair := rfl
@[simp] theorem State.setToken_filled (s : State) (h : Handle) (tok : Half) : (s.setToken h tok).filled = s.filled := rfl
@[simp] theorem State.setToken_mem (s : State) (h : Handle) (tok : Half) : (s.setToken h tok).mem = s.mem := rfl
@[simp] theorem State.setToken_ringWr (s : State) (h : Handle) (tok : Half) : (s.setToken h tok).ringWr = s.ringWr := rfl
@[simp] theorem State.setToken_ringRd (s : State) (h : Handle) (tok : Half) : (s.setToken h tok).ringRd = s.ringRd := rfl
@[simp] theorem State.setToken_prog (s : State) (h : Handle) (tok : Half) : (s.setToken h tok).prog = s.prog := rfl
@[simp] theorem State.setToken_laneLine (s : State) (h : Handle) (tok : Half) : (s.setToken h tok).laneLine = s.laneLine := rfl
@[simp] theorem State.setToken_control (s : State) (h : Handle) (tok : Half) : (s.setToken h tok).control = s.control := rfl
@[simp] theorem State.setToken_producer (s : State) (h : Handle) (tok : Half) : (s.setToken h tok).producer = s.producer := rfl
@[simp] theorem State.setToken_source (s : State) (h : Handle) (tok : Half) : (s.setToken h tok).source = s.source := rfl
@[simp] theorem State.setToken_bus (s : State) (h : Handle) (tok : Half) : (s.setToken h tok).bus = s.bus := rfl
@[simp] theorem State.setToken_env (s : State) (h : Handle) (tok : Half) : (s.setToken h tok).env = s.env := rfl

/-! ## A fault is raised -/

@[simp] theorem State.halt_params (s : State) (c : FaultCode) : (s.halt c).params = s.params := rfl
@[simp] theorem State.halt_phase (s : State) (c : FaultCode) : (s.halt c).phase = s.phase := rfl
@[simp] theorem State.halt_vctr (s : State) (c : FaultCode) : (s.halt c).vctr = s.vctr := rfl
@[simp] theorem State.halt_frame (s : State) (c : FaultCode) : (s.halt c).frame = s.frame := rfl
@[simp] theorem State.halt_lateCnt (s : State) (c : FaultCode) : (s.halt c).lateCnt = s.lateCnt := rfl
@[simp] theorem State.halt_errCnt (s : State) (c : FaultCode) : (s.halt c).errCnt = s.errCnt := rfl
@[simp] theorem State.halt_audioEn (s : State) (c : FaultCode) : (s.halt c).audioEn = s.audioEn := rfl
@[simp] theorem State.halt_audioOk (s : State) (c : FaultCode) : (s.halt c).audioOk = s.audioOk := rfl
@[simp] theorem State.halt_cts (s : State) (c : FaultCode) : (s.halt c).cts = s.cts := rfl
@[simp] theorem State.halt_nval (s : State) (c : FaultCode) : (s.halt c).nval = s.nval := rfl
@[simp] theorem State.halt_audFrameIdx (s : State) (c : FaultCode) : (s.halt c).audFrameIdx = s.audFrameIdx := rfl
@[simp] theorem State.halt_irqCore (s : State) (c : FaultCode) : (s.halt c).irqCore = s.irqCore := rfl
@[simp] theorem State.halt_cfgRepeatK (s : State) (c : FaultCode) : (s.halt c).cfgRepeatK = s.cfgRepeatK := rfl
@[simp] theorem State.halt_cfgBandFirst (s : State) (c : FaultCode) : (s.halt c).cfgBandFirst = s.cfgBandFirst := rfl
@[simp] theorem State.halt_cfgBandCount (s : State) (c : FaultCode) : (s.halt c).cfgBandCount = s.cfgBandCount := rfl
@[simp] theorem State.halt_cfgScanlineEmu (s : State) (c : FaultCode) : (s.halt c).cfgScanlineEmu = s.cfgScanlineEmu := rfl
@[simp] theorem State.halt_cfgSampleRate (s : State) (c : FaultCode) : (s.halt c).cfgSampleRate = s.cfgSampleRate := rfl
@[simp] theorem State.halt_tt (s : State) (c : FaultCode) : (s.halt c).tt = s.tt := rfl
@[simp] theorem State.halt_k (s : State) (c : FaultCode) : (s.halt c).k = s.k := rfl
@[simp] theorem State.halt_bandFirst (s : State) (c : FaultCode) : (s.halt c).bandFirst = s.bandFirst := rfl
@[simp] theorem State.halt_bandEnd (s : State) (c : FaultCode) : (s.halt c).bandEnd = s.bandEnd := rfl
@[simp] theorem State.halt_scanlineEmu (s : State) (c : FaultCode) : (s.halt c).scanlineEmu = s.scanlineEmu := rfl
@[simp] theorem State.halt_rateCode (s : State) (c : FaultCode) : (s.halt c).rateCode = s.rateCode := rfl
@[simp] theorem State.halt_allocated (s : State) (c : FaultCode) : (s.halt c).allocated = s.allocated := rfl
@[simp] theorem State.halt_freeq (s : State) (c : FaultCode) : (s.halt c).freeq = s.freeq := rfl
@[simp] theorem State.halt_validq (s : State) (c : FaultCode) : (s.halt c).validq = s.validq := rfl
@[simp] theorem State.halt_pfreeq (s : State) (c : FaultCode) : (s.halt c).pfreeq = s.pfreeq := rfl
@[simp] theorem State.halt_pvalidq (s : State) (c : FaultCode) : (s.halt c).pvalidq = s.pvalidq := rfl
@[simp] theorem State.halt_cur (s : State) (c : FaultCode) : (s.halt c).cur = s.cur := rfl
@[simp] theorem State.halt_rel0 (s : State) (c : FaultCode) : (s.halt c).rel0 = s.rel0 := rfl
@[simp] theorem State.halt_rel1 (s : State) (c : FaultCode) : (s.halt c).rel1 = s.rel1 := rfl
@[simp] theorem State.halt_prodBufs (s : State) (c : FaultCode) : (s.halt c).prodBufs = s.prodBufs := rfl
@[simp] theorem State.halt_prodPair (s : State) (c : FaultCode) : (s.halt c).prodPair = s.prodPair := rfl
@[simp] theorem State.halt_token (s : State) (c : FaultCode) : (s.halt c).token = s.token := rfl
@[simp] theorem State.halt_filled (s : State) (c : FaultCode) : (s.halt c).filled = s.filled := rfl
@[simp] theorem State.halt_mem (s : State) (c : FaultCode) : (s.halt c).mem = s.mem := rfl
@[simp] theorem State.halt_ringWr (s : State) (c : FaultCode) : (s.halt c).ringWr = s.ringWr := rfl
@[simp] theorem State.halt_ringRd (s : State) (c : FaultCode) : (s.halt c).ringRd = s.ringRd := rfl
@[simp] theorem State.halt_bus (s : State) (c : FaultCode) : (s.halt c).bus = s.bus := rfl
@[simp] theorem State.halt_env (s : State) (c : FaultCode) : (s.halt c).env = s.env := rfl

@[simp] theorem State.halt_lifecycle (s : State) (c : FaultCode) : (s.halt c).lifecycle = .halted := rfl

@[simp] theorem State.halt_irqEn (s : State) (c : FaultCode) : (s.halt c).irqEn = false := rfl

@[simp] theorem State.halt_prog (s : State) (c : FaultCode) : (s.halt c).prog = none := rfl

@[simp] theorem State.halt_laneLine (s : State) (c : FaultCode) : (s.halt c).laneLine = none := rfl

theorem State.halt_fault (s : State) (c : FaultCode) :
    (s.halt c).fault = if s.fault = 0 then c.code else s.fault := rfl

/-! ### by a command -/

@[simp] theorem State.raise_params (s : State) (c : FaultCode) : (s.raise c).params = s.params := State.reply_params _ _ _
@[simp] theorem State.raise_phase (s : State) (c : FaultCode) : (s.raise c).phase = s.phase := State.reply_phase _ _ _
@[simp] theorem State.raise_vctr (s : State) (c : FaultCode) : (s.raise c).vctr = s.vctr := State.reply_vctr _ _ _
@[simp] theorem State.raise_frame (s : State) (c : FaultCode) : (s.raise c).frame = s.frame := State.reply_frame _ _ _
@[simp] theorem State.raise_lateCnt (s : State) (c : FaultCode) : (s.raise c).lateCnt = s.lateCnt := State.reply_lateCnt _ _ _
@[simp] theorem State.raise_errCnt (s : State) (c : FaultCode) : (s.raise c).errCnt = s.errCnt := State.reply_errCnt _ _ _
@[simp] theorem State.raise_audioEn (s : State) (c : FaultCode) : (s.raise c).audioEn = s.audioEn := State.reply_audioEn _ _ _
@[simp] theorem State.raise_audioOk (s : State) (c : FaultCode) : (s.raise c).audioOk = s.audioOk := State.reply_audioOk _ _ _
@[simp] theorem State.raise_cts (s : State) (c : FaultCode) : (s.raise c).cts = s.cts := State.reply_cts _ _ _
@[simp] theorem State.raise_nval (s : State) (c : FaultCode) : (s.raise c).nval = s.nval := State.reply_nval _ _ _
@[simp] theorem State.raise_audFrameIdx (s : State) (c : FaultCode) : (s.raise c).audFrameIdx = s.audFrameIdx := State.reply_audFrameIdx _ _ _
@[simp] theorem State.raise_irqCore (s : State) (c : FaultCode) : (s.raise c).irqCore = s.irqCore := State.reply_irqCore _ _ _
@[simp] theorem State.raise_cfgRepeatK (s : State) (c : FaultCode) : (s.raise c).cfgRepeatK = s.cfgRepeatK := State.reply_cfgRepeatK _ _ _
@[simp] theorem State.raise_cfgBandFirst (s : State) (c : FaultCode) : (s.raise c).cfgBandFirst = s.cfgBandFirst := State.reply_cfgBandFirst _ _ _
@[simp] theorem State.raise_cfgBandCount (s : State) (c : FaultCode) : (s.raise c).cfgBandCount = s.cfgBandCount := State.reply_cfgBandCount _ _ _
@[simp] theorem State.raise_cfgScanlineEmu (s : State) (c : FaultCode) : (s.raise c).cfgScanlineEmu = s.cfgScanlineEmu := State.reply_cfgScanlineEmu _ _ _
@[simp] theorem State.raise_cfgSampleRate (s : State) (c : FaultCode) : (s.raise c).cfgSampleRate = s.cfgSampleRate := State.reply_cfgSampleRate _ _ _
@[simp] theorem State.raise_tt (s : State) (c : FaultCode) : (s.raise c).tt = s.tt := State.reply_tt _ _ _
@[simp] theorem State.raise_k (s : State) (c : FaultCode) : (s.raise c).k = s.k := State.reply_k _ _ _
@[simp] theorem State.raise_bandFirst (s : State) (c : FaultCode) : (s.raise c).bandFirst = s.bandFirst := State.reply_bandFirst _ _ _
@[simp] theorem State.raise_bandEnd (s : State) (c : FaultCode) : (s.raise c).bandEnd = s.bandEnd := State.reply_bandEnd _ _ _
@[simp] theorem State.raise_scanlineEmu (s : State) (c : FaultCode) : (s.raise c).scanlineEmu = s.scanlineEmu := State.reply_scanlineEmu _ _ _
@[simp] theorem State.raise_rateCode (s : State) (c : FaultCode) : (s.raise c).rateCode = s.rateCode := State.reply_rateCode _ _ _
@[simp] theorem State.raise_allocated (s : State) (c : FaultCode) : (s.raise c).allocated = s.allocated := State.reply_allocated _ _ _
@[simp] theorem State.raise_freeq (s : State) (c : FaultCode) : (s.raise c).freeq = s.freeq := State.reply_freeq _ _ _
@[simp] theorem State.raise_validq (s : State) (c : FaultCode) : (s.raise c).validq = s.validq := State.reply_validq _ _ _
@[simp] theorem State.raise_pfreeq (s : State) (c : FaultCode) : (s.raise c).pfreeq = s.pfreeq := State.reply_pfreeq _ _ _
@[simp] theorem State.raise_pvalidq (s : State) (c : FaultCode) : (s.raise c).pvalidq = s.pvalidq := State.reply_pvalidq _ _ _
@[simp] theorem State.raise_cur (s : State) (c : FaultCode) : (s.raise c).cur = s.cur := State.reply_cur _ _ _
@[simp] theorem State.raise_rel0 (s : State) (c : FaultCode) : (s.raise c).rel0 = s.rel0 := State.reply_rel0 _ _ _
@[simp] theorem State.raise_rel1 (s : State) (c : FaultCode) : (s.raise c).rel1 = s.rel1 := State.reply_rel1 _ _ _
@[simp] theorem State.raise_prodBufs (s : State) (c : FaultCode) : (s.raise c).prodBufs = s.prodBufs := State.reply_prodBufs _ _ _
@[simp] theorem State.raise_prodPair (s : State) (c : FaultCode) : (s.raise c).prodPair = s.prodPair := State.reply_prodPair _ _ _
@[simp] theorem State.raise_token (s : State) (c : FaultCode) : (s.raise c).token = s.token := State.reply_token _ _ _
@[simp] theorem State.raise_filled (s : State) (c : FaultCode) : (s.raise c).filled = s.filled := State.reply_filled _ _ _
@[simp] theorem State.raise_mem (s : State) (c : FaultCode) : (s.raise c).mem = s.mem := State.reply_mem _ _ _
@[simp] theorem State.raise_ringWr (s : State) (c : FaultCode) : (s.raise c).ringWr = s.ringWr := State.reply_ringWr _ _ _
@[simp] theorem State.raise_ringRd (s : State) (c : FaultCode) : (s.raise c).ringRd = s.ringRd := State.reply_ringRd _ _ _
@[simp] theorem State.raise_bus (s : State) (c : FaultCode) : (s.raise c).bus = s.bus := State.reply_bus _ _ _
@[simp] theorem State.raise_env (s : State) (c : FaultCode) : (s.raise c).env = s.env := State.reply_env _ _ _
@[simp] theorem State.raise_lifecycle (s : State) (c : FaultCode) : (s.raise c).lifecycle = .halted := State.reply_lifecycle _ _ _
@[simp] theorem State.raise_irqEn (s : State) (c : FaultCode) : (s.raise c).irqEn = false := State.reply_irqEn _ _ _
@[simp] theorem State.raise_prog (s : State) (c : FaultCode) : (s.raise c).prog = none := State.reply_prog _ _ _
@[simp] theorem State.raise_laneLine (s : State) (c : FaultCode) : (s.raise c).laneLine = none := State.reply_laneLine _ _ _
@[simp] theorem State.raise_fault (s : State) (c : FaultCode) :
    (s.raise c).fault = if s.fault = 0 then c.code else s.fault := State.reply_fault _ _ _

theorem FaultCode.code_ne_zero (c : FaultCode) : c.code ≠ 0 := by
  cases c <;> decide

/-! ## A turn is taken, and the commands issued on a port change -/

@[simp] theorem State.takeTurn_params (s : State) : (s.takeTurn).params = s.params := rfl
@[simp] theorem State.takeTurn_lifecycle (s : State) : (s.takeTurn).lifecycle = s.lifecycle := rfl
@[simp] theorem State.takeTurn_fault (s : State) : (s.takeTurn).fault = s.fault := rfl
@[simp] theorem State.takeTurn_phase (s : State) : (s.takeTurn).phase = s.phase := rfl
@[simp] theorem State.takeTurn_vctr (s : State) : (s.takeTurn).vctr = s.vctr := rfl
@[simp] theorem State.takeTurn_frame (s : State) : (s.takeTurn).frame = s.frame := rfl
@[simp] theorem State.takeTurn_lateCnt (s : State) : (s.takeTurn).lateCnt = s.lateCnt := rfl
@[simp] theorem State.takeTurn_errCnt (s : State) : (s.takeTurn).errCnt = s.errCnt := rfl
@[simp] theorem State.takeTurn_audioEn (s : State) : (s.takeTurn).audioEn = s.audioEn := rfl
@[simp] theorem State.takeTurn_audioOk (s : State) : (s.takeTurn).audioOk = s.audioOk := rfl
@[simp] theorem State.takeTurn_cts (s : State) : (s.takeTurn).cts = s.cts := rfl
@[simp] theorem State.takeTurn_nval (s : State) : (s.takeTurn).nval = s.nval := rfl
@[simp] theorem State.takeTurn_audFrameIdx (s : State) : (s.takeTurn).audFrameIdx = s.audFrameIdx := rfl
@[simp] theorem State.takeTurn_irqCore (s : State) : (s.takeTurn).irqCore = s.irqCore := rfl
@[simp] theorem State.takeTurn_irqEn (s : State) : (s.takeTurn).irqEn = s.irqEn := rfl
@[simp] theorem State.takeTurn_cfgRepeatK (s : State) : (s.takeTurn).cfgRepeatK = s.cfgRepeatK := rfl
@[simp] theorem State.takeTurn_cfgBandFirst (s : State) : (s.takeTurn).cfgBandFirst = s.cfgBandFirst := rfl
@[simp] theorem State.takeTurn_cfgBandCount (s : State) : (s.takeTurn).cfgBandCount = s.cfgBandCount := rfl
@[simp] theorem State.takeTurn_cfgScanlineEmu (s : State) : (s.takeTurn).cfgScanlineEmu = s.cfgScanlineEmu := rfl
@[simp] theorem State.takeTurn_cfgSampleRate (s : State) : (s.takeTurn).cfgSampleRate = s.cfgSampleRate := rfl
@[simp] theorem State.takeTurn_tt (s : State) : (s.takeTurn).tt = s.tt := rfl
@[simp] theorem State.takeTurn_k (s : State) : (s.takeTurn).k = s.k := rfl
@[simp] theorem State.takeTurn_bandFirst (s : State) : (s.takeTurn).bandFirst = s.bandFirst := rfl
@[simp] theorem State.takeTurn_bandEnd (s : State) : (s.takeTurn).bandEnd = s.bandEnd := rfl
@[simp] theorem State.takeTurn_scanlineEmu (s : State) : (s.takeTurn).scanlineEmu = s.scanlineEmu := rfl
@[simp] theorem State.takeTurn_rateCode (s : State) : (s.takeTurn).rateCode = s.rateCode := rfl
@[simp] theorem State.takeTurn_allocated (s : State) : (s.takeTurn).allocated = s.allocated := rfl
@[simp] theorem State.takeTurn_freeq (s : State) : (s.takeTurn).freeq = s.freeq := rfl
@[simp] theorem State.takeTurn_validq (s : State) : (s.takeTurn).validq = s.validq := rfl
@[simp] theorem State.takeTurn_pfreeq (s : State) : (s.takeTurn).pfreeq = s.pfreeq := rfl
@[simp] theorem State.takeTurn_pvalidq (s : State) : (s.takeTurn).pvalidq = s.pvalidq := rfl
@[simp] theorem State.takeTurn_cur (s : State) : (s.takeTurn).cur = s.cur := rfl
@[simp] theorem State.takeTurn_rel0 (s : State) : (s.takeTurn).rel0 = s.rel0 := rfl
@[simp] theorem State.takeTurn_rel1 (s : State) : (s.takeTurn).rel1 = s.rel1 := rfl
@[simp] theorem State.takeTurn_prodBufs (s : State) : (s.takeTurn).prodBufs = s.prodBufs := rfl
@[simp] theorem State.takeTurn_prodPair (s : State) : (s.takeTurn).prodPair = s.prodPair := rfl
@[simp] theorem State.takeTurn_token (s : State) : (s.takeTurn).token = s.token := rfl
@[simp] theorem State.takeTurn_filled (s : State) : (s.takeTurn).filled = s.filled := rfl
@[simp] theorem State.takeTurn_mem (s : State) : (s.takeTurn).mem = s.mem := rfl
@[simp] theorem State.takeTurn_ringWr (s : State) : (s.takeTurn).ringWr = s.ringWr := rfl
@[simp] theorem State.takeTurn_ringRd (s : State) : (s.takeTurn).ringRd = s.ringRd := rfl
@[simp] theorem State.takeTurn_prog (s : State) : (s.takeTurn).prog = s.prog := rfl
@[simp] theorem State.takeTurn_laneLine (s : State) : (s.takeTurn).laneLine = s.laneLine := rfl
@[simp] theorem State.takeTurn_control (s : State) : (s.takeTurn).control = s.control := rfl
@[simp] theorem State.takeTurn_producer (s : State) : (s.takeTurn).producer = s.producer := rfl
@[simp] theorem State.takeTurn_source (s : State) : (s.takeTurn).source = s.source := rfl
@[simp] theorem State.takeTurn_bus (s : State) : (s.takeTurn).bus = s.bus := rfl

@[simp] theorem State.setIssued_params (s : State) (p : PortId) (cs : List Command) : (s.setIssued p cs).params = s.params := by cases p <;> rfl
@[simp] theorem State.setIssued_lifecycle (s : State) (p : PortId) (cs : List Command) : (s.setIssued p cs).lifecycle = s.lifecycle := by cases p <;> rfl
@[simp] theorem State.setIssued_fault (s : State) (p : PortId) (cs : List Command) : (s.setIssued p cs).fault = s.fault := by cases p <;> rfl
@[simp] theorem State.setIssued_phase (s : State) (p : PortId) (cs : List Command) : (s.setIssued p cs).phase = s.phase := by cases p <;> rfl
@[simp] theorem State.setIssued_vctr (s : State) (p : PortId) (cs : List Command) : (s.setIssued p cs).vctr = s.vctr := by cases p <;> rfl
@[simp] theorem State.setIssued_frame (s : State) (p : PortId) (cs : List Command) : (s.setIssued p cs).frame = s.frame := by cases p <;> rfl
@[simp] theorem State.setIssued_lateCnt (s : State) (p : PortId) (cs : List Command) : (s.setIssued p cs).lateCnt = s.lateCnt := by cases p <;> rfl
@[simp] theorem State.setIssued_errCnt (s : State) (p : PortId) (cs : List Command) : (s.setIssued p cs).errCnt = s.errCnt := by cases p <;> rfl
@[simp] theorem State.setIssued_audioEn (s : State) (p : PortId) (cs : List Command) : (s.setIssued p cs).audioEn = s.audioEn := by cases p <;> rfl
@[simp] theorem State.setIssued_audioOk (s : State) (p : PortId) (cs : List Command) : (s.setIssued p cs).audioOk = s.audioOk := by cases p <;> rfl
@[simp] theorem State.setIssued_cts (s : State) (p : PortId) (cs : List Command) : (s.setIssued p cs).cts = s.cts := by cases p <;> rfl
@[simp] theorem State.setIssued_nval (s : State) (p : PortId) (cs : List Command) : (s.setIssued p cs).nval = s.nval := by cases p <;> rfl
@[simp] theorem State.setIssued_audFrameIdx (s : State) (p : PortId) (cs : List Command) : (s.setIssued p cs).audFrameIdx = s.audFrameIdx := by cases p <;> rfl
@[simp] theorem State.setIssued_irqCore (s : State) (p : PortId) (cs : List Command) : (s.setIssued p cs).irqCore = s.irqCore := by cases p <;> rfl
@[simp] theorem State.setIssued_irqEn (s : State) (p : PortId) (cs : List Command) : (s.setIssued p cs).irqEn = s.irqEn := by cases p <;> rfl
@[simp] theorem State.setIssued_cfgRepeatK (s : State) (p : PortId) (cs : List Command) : (s.setIssued p cs).cfgRepeatK = s.cfgRepeatK := by cases p <;> rfl
@[simp] theorem State.setIssued_cfgBandFirst (s : State) (p : PortId) (cs : List Command) : (s.setIssued p cs).cfgBandFirst = s.cfgBandFirst := by cases p <;> rfl
@[simp] theorem State.setIssued_cfgBandCount (s : State) (p : PortId) (cs : List Command) : (s.setIssued p cs).cfgBandCount = s.cfgBandCount := by cases p <;> rfl
@[simp] theorem State.setIssued_cfgScanlineEmu (s : State) (p : PortId) (cs : List Command) : (s.setIssued p cs).cfgScanlineEmu = s.cfgScanlineEmu := by cases p <;> rfl
@[simp] theorem State.setIssued_cfgSampleRate (s : State) (p : PortId) (cs : List Command) : (s.setIssued p cs).cfgSampleRate = s.cfgSampleRate := by cases p <;> rfl
@[simp] theorem State.setIssued_tt (s : State) (p : PortId) (cs : List Command) : (s.setIssued p cs).tt = s.tt := by cases p <;> rfl
@[simp] theorem State.setIssued_k (s : State) (p : PortId) (cs : List Command) : (s.setIssued p cs).k = s.k := by cases p <;> rfl
@[simp] theorem State.setIssued_bandFirst (s : State) (p : PortId) (cs : List Command) : (s.setIssued p cs).bandFirst = s.bandFirst := by cases p <;> rfl
@[simp] theorem State.setIssued_bandEnd (s : State) (p : PortId) (cs : List Command) : (s.setIssued p cs).bandEnd = s.bandEnd := by cases p <;> rfl
@[simp] theorem State.setIssued_scanlineEmu (s : State) (p : PortId) (cs : List Command) : (s.setIssued p cs).scanlineEmu = s.scanlineEmu := by cases p <;> rfl
@[simp] theorem State.setIssued_rateCode (s : State) (p : PortId) (cs : List Command) : (s.setIssued p cs).rateCode = s.rateCode := by cases p <;> rfl
@[simp] theorem State.setIssued_allocated (s : State) (p : PortId) (cs : List Command) : (s.setIssued p cs).allocated = s.allocated := by cases p <;> rfl
@[simp] theorem State.setIssued_freeq (s : State) (p : PortId) (cs : List Command) : (s.setIssued p cs).freeq = s.freeq := by cases p <;> rfl
@[simp] theorem State.setIssued_validq (s : State) (p : PortId) (cs : List Command) : (s.setIssued p cs).validq = s.validq := by cases p <;> rfl
@[simp] theorem State.setIssued_pfreeq (s : State) (p : PortId) (cs : List Command) : (s.setIssued p cs).pfreeq = s.pfreeq := by cases p <;> rfl
@[simp] theorem State.setIssued_pvalidq (s : State) (p : PortId) (cs : List Command) : (s.setIssued p cs).pvalidq = s.pvalidq := by cases p <;> rfl
@[simp] theorem State.setIssued_cur (s : State) (p : PortId) (cs : List Command) : (s.setIssued p cs).cur = s.cur := by cases p <;> rfl
@[simp] theorem State.setIssued_rel0 (s : State) (p : PortId) (cs : List Command) : (s.setIssued p cs).rel0 = s.rel0 := by cases p <;> rfl
@[simp] theorem State.setIssued_rel1 (s : State) (p : PortId) (cs : List Command) : (s.setIssued p cs).rel1 = s.rel1 := by cases p <;> rfl
@[simp] theorem State.setIssued_prodBufs (s : State) (p : PortId) (cs : List Command) : (s.setIssued p cs).prodBufs = s.prodBufs := by cases p <;> rfl
@[simp] theorem State.setIssued_prodPair (s : State) (p : PortId) (cs : List Command) : (s.setIssued p cs).prodPair = s.prodPair := by cases p <;> rfl
@[simp] theorem State.setIssued_token (s : State) (p : PortId) (cs : List Command) : (s.setIssued p cs).token = s.token := by cases p <;> rfl
@[simp] theorem State.setIssued_filled (s : State) (p : PortId) (cs : List Command) : (s.setIssued p cs).filled = s.filled := by cases p <;> rfl
@[simp] theorem State.setIssued_mem (s : State) (p : PortId) (cs : List Command) : (s.setIssued p cs).mem = s.mem := by cases p <;> rfl
@[simp] theorem State.setIssued_ringWr (s : State) (p : PortId) (cs : List Command) : (s.setIssued p cs).ringWr = s.ringWr := by cases p <;> rfl
@[simp] theorem State.setIssued_ringRd (s : State) (p : PortId) (cs : List Command) : (s.setIssued p cs).ringRd = s.ringRd := by cases p <;> rfl
@[simp] theorem State.setIssued_prog (s : State) (p : PortId) (cs : List Command) : (s.setIssued p cs).prog = s.prog := by cases p <;> rfl
@[simp] theorem State.setIssued_laneLine (s : State) (p : PortId) (cs : List Command) : (s.setIssued p cs).laneLine = s.laneLine := by cases p <;> rfl
@[simp] theorem State.setIssued_control (s : State) (p : PortId) (cs : List Command) : (s.setIssued p cs).control = s.control := by cases p <;> rfl
@[simp] theorem State.setIssued_producer (s : State) (p : PortId) (cs : List Command) : (s.setIssued p cs).producer = s.producer := by cases p <;> rfl
@[simp] theorem State.setIssued_source (s : State) (p : PortId) (cs : List Command) : (s.setIssued p cs).source = s.source := by cases p <;> rfl
@[simp] theorem State.setIssued_bus (s : State) (p : PortId) (cs : List Command) : (s.setIssued p cs).bus = s.bus := by cases p <;> rfl

@[simp] theorem State.takeTurn_port (s : State) (p : PortId) : s.takeTurn.port p = s.port p := by
  cases p <;> rfl

@[simp] theorem State.setIssued_port (s : State) (p p' : PortId) (cs : List Command) :
    (s.setIssued p cs).port p' = s.port p' := by
  cases p <;> cases p' <;> rfl

@[simp] theorem State.takeTurn_trace (s : State) : s.takeTurn.env.trace = s.env.trace := rfl

@[simp] theorem State.setIssued_trace (s : State) (p : PortId) (cs : List Command) :
    (s.setIssued p cs).env.trace = s.env.trace := by
  cases p <;> rfl

end Sys2Proof.Machine
end

