-- ==== Sys2Proof/Laws/Memory.lean ====
section
/-! SUPPORT. The laws of the memory operations: read after write, what a write leaves alone, the canonical form. -/

namespace Sys2Proof.Machine

/-! ## Bytes -/

@[simp] theorem leBytes_length (n v : Nat) : (leBytes n v).length = n := by
  induction n generalizing v with
  | zero => rfl
  | succ n ih => simp [leBytes, ih]

/-- The little-endian bytes of a value make the value again, modulo what they can hold. -/
theorem ofLeBytes_leBytes (n v : Nat) : ofLeBytes (leBytes n v) = v % 256 ^ n := by
  induction n generalizing v with
  | zero => simp [leBytes, ofLeBytes, Nat.mod_one]
  | succ n ih =>
    have h : v % 256 ^ (n + 1) = v % 256 + 256 * (v / 256 % 256 ^ n) := by
      rw [Nat.pow_succ, Nat.mul_comm, Nat.mod_mul]
    simp [leBytes, ofLeBytes, ih, h]

/-! ## One cell -/

theorem cellRead_cellWrite_self (cells : List Host.Cell) (off : Nat) (v : Byte) :
    cellRead (cellWrite cells off v) off = some v := by
  induction cells with
  | nil => simp [cellWrite, cellRead]
  | cons c rest ih =>
    simp only [cellWrite]
    split
    · simp [cellRead]
    · split
      · simp [cellRead]
      · simp only [cellRead, ih]
        rw [if_neg (by omega)]

theorem cellRead_cellWrite_other (cells : List Host.Cell) (v : Byte) {off off' : Nat} (h : off' ≠ off) :
    cellRead (cellWrite cells off v) off' = cellRead cells off' := by
  induction cells with
  | nil => simp [cellWrite, cellRead, h.symm]
  | cons c rest ih =>
    simp only [cellWrite]
    split
    · simp [cellRead, h.symm]
    · split
      · simp [cellRead, h.symm, ‹off = c.1›.symm]
      · simp [cellRead, ih]

/-- Every entry of a written store is the written one or stood there before. -/
theorem mem_cellWrite {cells : List Host.Cell} {off : Nat} {v : Byte} {c : Host.Cell}
    (h : c ∈ cellWrite cells off v) : c.1 = off ∨ c ∈ cells := by
  induction cells with
  | nil => simp [cellWrite] at h; simp [h]
  | cons d rest ih =>
    simp only [cellWrite] at h
    split at h
    · rcases List.mem_cons.1 h with rfl | h
      · exact .inl rfl
      · exact .inr h
    · split at h
      · rcases List.mem_cons.1 h with rfl | h
        · exact .inl rfl
        · exact .inr (List.mem_cons_of_mem _ h)
      · rcases List.mem_cons.1 h with rfl | h
        · exact .inr (List.mem_cons_self ..)
        · exact (ih h).imp_right (List.mem_cons_of_mem _)

theorem cellWrite_wf {cells : List Host.Cell} (off : Nat) (v : Byte) (h : CellsWf cells) :
    CellsWf (cellWrite cells off v) := by
  induction cells with
  | nil => simp [cellWrite, CellsWf]
  | cons c rest ih =>
    obtain ⟨hc, hr⟩ := List.pairwise_cons.1 h
    simp only [cellWrite]
    split
    · refine List.pairwise_cons.2 ⟨fun d hd => ?_, h⟩
      rcases List.mem_cons.1 hd with rfl | hd
      · assumption
      · exact Nat.lt_trans ‹off < c.1› (hc d hd)
    · split
      · exact List.pairwise_cons.2 ⟨fun d hd => ‹off = c.1› ▸ hc d hd, hr⟩
      · refine List.pairwise_cons.2 ⟨fun d hd => ?_, ih hr⟩
        rcases mem_cellWrite hd with e | hd
        · simp only [e]; omega
        · exact hc d hd

/-! ## Runs of cells -/

theorem cellsWrite_wf {cells : List Host.Cell} (off : Nat) (bs : List Byte) (h : CellsWf cells) :
    CellsWf (cellsWrite cells off bs) := by
  induction bs generalizing cells off with
  | nil => exact h
  | cons b bs ih => exact ih _ (cellWrite_wf off b h)

theorem cellRead_cellsWrite_outside (cells : List Host.Cell) (bs : List Byte) {off a : Nat}
    (h : a < off ∨ off + bs.length ≤ a) : cellRead (cellsWrite cells off bs) a = cellRead cells a := by
  induction bs generalizing cells off with
  | nil => rfl
  | cons b bs ih =>
    simp only [List.length_cons] at h
    rw [cellsWrite, ih _ (by omega), cellRead_cellWrite_other _ _ (by omega)]

/-- Two stores that agree on a run of cells give the same bytes. -/
theorem cellsRead_congr {cells cells' : List Host.Cell} {off n : Nat}
    (h : ∀ a, off ≤ a → a < off + n → cellRead cells a = cellRead cells' a) :
    cellsRead cells off n = cellsRead cells' off n := by
  induction n generalizing off with
  | zero => rfl
  | succ n ih =>
    simp only [cellsRead]
    rw [h off (by omega) (by omega), ih fun a h₁ h₂ => h a (by omega) (by omega)]

theorem cellsRead_cellsWrite_self (cells : List Host.Cell) (off : Nat) (bs : List Byte) :
    cellsRead (cellsWrite cells off bs) off bs.length = some bs := by
  induction bs generalizing cells off with
  | nil => rfl
  | cons b bs ih =>
    have h : cellRead (cellsWrite (cellWrite cells off b) (off + 1) bs) off = some b := by
      rw [cellRead_cellsWrite_outside _ _ (by omega), cellRead_cellWrite_self]
    simp only [List.length_cons, cellsRead, cellsWrite, h, ih]

theorem cellsRead_empty (off : Nat) {n : Nat} (h : 0 < n) : cellsRead [] off n = none := by
  cases n with
  | zero => exact absurd h (Nat.lt_irrefl 0)
  | succ n => rfl

/-! ## Memory objects -/

@[simp] theorem Memory.cells_setCells_self (m : Memory) (o : MemObj) (c : List Host.Cell) :
    (m.setCells o c).cells o = c := by
  cases o <;> rfl

/-- Reading back a value just written. -/
theorem memRead_memWrite_self (p : Params) (m : Memory) {o : MemObj} {off n : Nat} (v : Nat) (hf : off + n ≤ objSize p o) :
    memRead p (memWrite p m o off n v) o off n = some (v % 256 ^ n) := by
  have h := cellsRead_cellsWrite_self (m.cells o) (objBase p o + off) (leBytes n v)
  rw [leBytes_length] at h
  simp [memRead, memWrite, hf, h, ofLeBytes_leBytes]

/-- The cell of one object after a write to an object, where the write does not reach it. -/
theorem cellRead_memWrite_outside (p : Params) (m : Memory) {o o' : MemObj} {off off' n : Nat} (v : Nat)
    (h₂ : off' < objSize p o') (h : o' ≠ o ∨ off' < off ∨ off + n ≤ off') :
    cellRead ((memWrite p m o off n v).cells o') (objBase p o' + off')
      = cellRead (m.cells o') (objBase p o' + off') := by
  unfold memWrite
  split
  case isFalse => rfl
  rename_i h₁
  have key : ∀ (cells : List Host.Cell) (base : Nat),
      (objBase p o' + off' < base + off ∨ base + off + n ≤ objBase p o' + off') →
      cellRead (cellsWrite cells (base + off) (leBytes n v)) (objBase p o' + off')
        = cellRead cells (objBase p o' + off') := fun cells base hb =>
    cellRead_cellsWrite_outside _ _ (by rw [leBytes_length]; exact hb)
  have sep : ∀ {a b size i j : Nat}, a ≠ b → i < size → j + n ≤ size →
      b * size + i < a * size + j ∨ a * size + j + n ≤ b * size + i := by
    intro a b size i j hab hi hj
    rcases Nat.lt_or_ge a b with hlt | hge
    · have := Nat.mul_le_mul_right size (Nat.succ_le_of_lt hlt)
      rw [Nat.succ_mul] at this; omega
    · have := Nat.mul_le_mul_right size (Nat.succ_le_of_lt (lt_of_le_of_ne hge (Ne.symm hab)))
      rw [Nat.succ_mul] at this; omega
  cases o <;> cases o' <;> simp only [Memory.setCells, Memory.cells] <;> try rfl
  case buf.buf a b =>
    refine key _ _ ?_
    by_cases e : b = a
    · subst e; rcases h with h | h
      · exact absurd rfl h
      · omega
    · exact sep (fun he => e (BitVec.eq_of_toNat_eq he.symm)) h₂ h₁
  case pair.pair a b =>
    refine key _ _ ?_
    by_cases e : b = a
    · subst e; rcases h with h | h
      · exact absurd rfl h
      · omega
    · exact sep (fun he => e (BitVec.eq_of_toNat_eq he.symm)) h₂ h₁
  all_goals
    refine key _ _ ?_
    rcases h with h | h
    · exact absurd rfl h
    · simp only [objBase]; omega

theorem memWrite_wf {m : Memory} (p : Params) (o : MemObj) (off n v : Nat) (h : m.wf) :
    (memWrite p m o off n v).wf := by
  unfold memWrite
  split
  case isFalse => exact h
  obtain ⟨h₁, h₂, h₃, h₄, h₅⟩ := h
  cases o <;> simp only [Memory.setCells, Memory.cells] <;>
    refine ⟨?_, ?_, ?_, ?_, ?_⟩ <;> first | assumption | exact cellsWrite_wf _ _ ‹_›

theorem Memory.empty_wf : Memory.empty.wf := by decide

/-! ## The machine's memory -/

theorem State.read_write_self (s : State) {o : MemObj} {off n : Nat} (v : Nat) (h : off + n ≤ objSize s.params o) :
    (s.write o off n v).read o off n = some (v % 256 ^ n) :=
  memRead_memWrite_self s.params s.mem v h

theorem State.write_wf {s : State} (o : MemObj) (off n v : Nat) (h : s.mem.wf) : (s.write o off n v).mem.wf :=
  memWrite_wf _ _ _ _ _ h

/-- A byte is read off the memory and the parameters alone. -/
theorem State.byteAt_congr {s t : State} (hp : t.params = s.params) (hm : t.mem = s.mem) (o : MemObj) (off : Nat) :
    t.byteAt o off = s.byteAt o off := by
  unfold State.byteAt
  rw [hp, hm]

/-- A byte a write does not reach reads as before. -/
theorem State.byteAt_write_outside (s : State) {o o' : MemObj} {off off' n : Nat} (v : Nat)
    (h : o' ≠ o ∨ off' < off ∨ off + n ≤ off') : (s.write o off n v).byteAt o' off' = s.byteAt o' off' := by
  unfold State.byteAt State.write
  dsimp only
  split
  · exact cellRead_memWrite_outside s.params s.mem v ‹_› h
  · rfl

/-- A run of bytes is read off the bytes of its object. -/
theorem State.read_eq_of_byteAt {s t : State} {o : MemObj} {off n : Nat} (hp : t.params = s.params)
    (h : ∀ a, off ≤ a → a < off + n → t.byteAt o a = s.byteAt o a) :
    t.read o off n = s.read o off n := by
  unfold State.read memRead
  rw [hp]
  split
  case isFalse => rfl
  rename_i hs
  refine congrArg _ (cellsRead_congr fun a h₁ h₂ => ?_)
  have := h (a - objBase s.params o) (by omega) (by omega)
  unfold State.byteAt at this
  rw [hp, if_pos (by omega), if_pos (by omega)] at this
  rwa [show objBase s.params o + (a - objBase s.params o) = a by omega] at this

/-- A run of bytes a write does not reach reads as before. -/
theorem State.read_write_outside (s : State) {o o' : MemObj} {off off' n n' : Nat} (v : Nat)
    (h : o' ≠ o ∨ off' + n' ≤ off ∨ off + n ≤ off') :
    (s.write o off n v).read o' off' n' = s.read o' off' n' :=
  State.read_eq_of_byteAt rfl fun a ha hb =>
    s.byteAt_write_outside v (by rcases h with h | h | h <;> [exact .inl h; (right; left; omega); (right; right; omega)])

@[simp] theorem State.byteAt_empty {s : State} (h : s.mem = Memory.empty) (o : MemObj) (off : Nat) :
    s.byteAt o off = none := by
  unfold State.byteAt
  rw [h]
  split
  · cases o <;> rfl
  · rfl

end Sys2Proof.Machine
end

