-- ==== Sys2Proof/Laws/Queue.lean ====
section
/-! SUPPORT. The laws of the queues and of the set of handles the PRODUCER owns. -/

namespace Sys2Proof.Machine

/-! ## Pushes -/

theorem pushFree_ok {h : Handle} {s t : State} (e : pushFree h s = .ok t) :
    s.freeq.length < s.params.n ∧ t = { s with freeq := s.freeq ++ [h] } := by
  unfold pushFree at e
  split at e
  · exact ⟨‹_›, (Except.ok.inj e).symm⟩
  · cases e

theorem pushFree_error {h : Handle} {s : State} {c : FaultCode} (e : pushFree h s = .error c) :
    s.params.n ≤ s.freeq.length ∧ c = .queueOverflow := by
  unfold pushFree at e
  split at e
  · cases e
  · exact ⟨Nat.le_of_not_lt ‹_›, (Except.error.inj e).symm⟩

theorem pushFree_room {h : Handle} {s : State} (e : s.freeq.length < s.params.n) :
    pushFree h s = .ok { s with freeq := s.freeq ++ [h] } :=
  if_pos e

theorem pushValid_ok {h : Handle} {s t : State} (e : pushValid h s = .ok t) :
    s.validq.length < s.params.n ∧ t = { s with validq := s.validq ++ [h] } := by
  unfold pushValid at e
  split at e
  · exact ⟨‹_›, (Except.ok.inj e).symm⟩
  · cases e

theorem pushPairFree_ok {p : Handle} {s t : State} (e : pushPairFree p s = .ok t) :
    s.pfreeq.length < s.params.m ∧ t = { s with pfreeq := s.pfreeq ++ [p] } := by
  unfold pushPairFree at e
  split at e
  · exact ⟨‹_›, (Except.ok.inj e).symm⟩
  · cases e

theorem pushPairFree_room {p : Handle} {s : State} (e : s.pfreeq.length < s.params.m) :
    pushPairFree p s = .ok { s with pfreeq := s.pfreeq ++ [p] } :=
  if_pos e

theorem pushPairValid_ok {p : Handle} {s t : State} (e : pushPairValid p s = .ok t) :
    s.pvalidq.length < s.params.m ∧ t = { s with pvalidq := s.pvalidq ++ [p] } := by
  unfold pushPairValid at e
  split at e
  · exact ⟨‹_›, (Except.ok.inj e).symm⟩
  · cases e

theorem pushPairValid_room {p : Handle} {s : State} (e : s.pvalidq.length < s.params.m) :
    pushPairValid p s = .ok { s with pvalidq := s.pvalidq ++ [p] } := by
  simp [pushPairValid, e]

theorem pushValid_room {h : Handle} {s : State} (e : s.validq.length < s.params.n) :
    pushValid h s = .ok { s with validq := s.validq ++ [h] } := by
  simp [pushValid, e]

/-- A run of pushes on `FREEQ` appends the handles, in order. -/
theorem pushFreeAll_ok {hs : List Handle} {s t : State} (e : pushFreeAll hs s = .ok t) :
    t = { s with freeq := s.freeq ++ hs } := by
  induction hs generalizing s with
  | nil => simpa using (Except.ok.inj e).symm
  | cons h rest ih =>
    simp only [pushFreeAll] at e
    cases hp : pushFree h s with
    | error c => rw [hp] at e; cases e
    | ok u =>
      rw [hp] at e
      have := ih e
      rw [(pushFree_ok hp).2] at this
      simpa using this

theorem pushFreeAll_room {hs : List Handle} {s : State} (e : s.freeq.length + hs.length ≤ s.params.n) :
    pushFreeAll hs s = .ok { s with freeq := s.freeq ++ hs } := by
  induction hs generalizing s with
  | nil => simp [pushFreeAll]
  | cons h rest ih =>
    simp only [List.length_cons] at e
    simp only [pushFreeAll]
    rw [pushFree_room (by omega)]
    simp only [Except.bind]
    rw [ih (by simp; omega)]
    simp

/-- A run of pushes on `PFREEQ` appends the handles, in order. -/
theorem pushPairFreeAll_ok {ps : List Handle} {s t : State} (e : pushPairFreeAll ps s = .ok t) :
    t = { s with pfreeq := s.pfreeq ++ ps } := by
  induction ps generalizing s with
  | nil => simpa using (Except.ok.inj e).symm
  | cons p rest ih =>
    simp only [pushPairFreeAll] at e
    cases hp : pushPairFree p s with
    | error c => rw [hp] at e; cases e
    | ok u =>
      rw [hp] at e
      have := ih e
      rw [(pushPairFree_ok hp).2] at this
      simpa using this

theorem pushPairFreeAll_room {ps : List Handle} {s : State} (e : s.pfreeq.length + ps.length ≤ s.params.m) :
    pushPairFreeAll ps s = .ok { s with pfreeq := s.pfreeq ++ ps } := by
  induction ps generalizing s with
  | nil => simp [pushPairFreeAll]
  | cons p rest ih =>
    simp only [List.length_cons] at e
    simp only [pushPairFreeAll]
    rw [pushPairFree_room (by omega)]
    simp only [Except.bind]
    rw [ih (by simp; omega)]
    simp

/-! ## Sets of handles -/

@[simp] theorem mem_insertHandle {h x : Handle} {hs : List Handle} : x ∈ insertHandle h hs ↔ x = h ∨ x ∈ hs := by
  induction hs with
  | nil => simp [insertHandle]
  | cons a rest ih =>
    simp only [insertHandle]
    split
    · simp
    · split
      · simp [‹h = a›]
      · simp [ih, or_left_comm]

/-- A new member: the set gains exactly it. -/
theorem insertHandle_perm {h : Handle} {hs : List Handle} (e : h ∉ hs) : (insertHandle h hs).Perm (h :: hs) := by
  induction hs with
  | nil => exact .refl _
  | cons a rest ih =>
    simp only [insertHandle]
    split
    · exact .refl _
    · split
      · exact absurd (by simp [‹h = a›]) e
      · exact ((ih fun m => e (List.mem_cons_of_mem _ m)).cons a).trans (.swap ..)

@[simp] theorem mem_removeHandle {h x : Handle} {hs : List Handle} : x ∈ removeHandle h hs ↔ x ∈ hs ∧ x ≠ h := by
  simp [removeHandle]

/-- A member taken out of a set without duplicates: the set loses exactly it. -/
theorem removeHandle_perm {h : Handle} {hs : List Handle} (m : h ∈ hs) (d : hs.Nodup) :
    hs.Perm (h :: removeHandle h hs) := by
  induction hs with
  | nil => cases m
  | cons a rest ih =>
    obtain ⟨ha, hd⟩ := List.nodup_cons.1 d
    by_cases e : a = h
    · subst e
      have : removeHandle a (a :: rest) = rest := by
        simp only [removeHandle, List.filter_cons, ne_eq, not_true_eq_false, decide_false, Bool.false_eq_true, if_false]
        exact List.filter_eq_self.2 fun x hx => by simp only [decide_eq_true_eq]; rintro rfl; exact ha hx
      rw [this]
    · have : removeHandle h (a :: rest) = a :: removeHandle h rest := by
        simp [removeHandle, e]
      rw [this]
      exact ((ih ((List.mem_cons.1 m).resolve_left (Ne.symm e)) hd).cons a).trans (.swap ..)

end Sys2Proof.Machine
end

