-- ==== Sys2Proof/Laws/Builder.lean ====
section
/-! SUPPORT. What each stage of a TICK can do, said once: the release step, acquisition, the template, the island, the
patches and the install, and the TICK as a whole in closed form. -/

namespace Sys2Proof.Machine

/-! ## Position -/

/-- `advance` changes the position only. -/
theorem advance_eq (s : State) :
    advance s = { s with phase := (advance s).phase, vctr := (advance s).vctr, frame := (advance s).frame } := by
  unfold advance
  split <;> rfl

/-- `advance` reads the position and the table only. -/
theorem advance_congr {s t : State} (h₁ : t.tt = s.tt) (h₂ : t.phase = s.phase) (h₃ : t.vctr = s.vctr)
    (h₄ : t.frame = s.frame) :
    (advance t).phase = (advance s).phase ∧ (advance t).vctr = (advance s).vctr ∧
      (advance t).frame = (advance s).frame := by
  unfold advance
  rw [h₁, h₂, h₃]
  split <;> simp [h₄]

/-! ## Release -/

/-- The release step in closed form. -/
theorem releaseStep_ok {s t : State} (e : releaseStep s = .ok t) :
    t = { s with freeq := s.freeq ++ s.rel1.toList, rel1 := s.rel0, rel0 := none } := by
  unfold releaseStep at e
  cases h : s.rel1 with
  | none =>
    rw [h] at e
    simpa using (Except.ok.inj e).symm
  | some x =>
    rw [h] at e
    cases hp : pushFree x s with
    | error c => simp [hp] at e
    | ok u =>
      simp only [hp] at e
      rw [← Except.ok.inj e, (pushFree_ok hp).2]
      rfl

theorem releaseStep_room {s : State} (e : s.freeq.length + s.rel1.toList.length ≤ s.params.n) :
    releaseStep s = .ok { s with freeq := s.freeq ++ s.rel1.toList, rel1 := s.rel0, rel0 := none } := by
  unfold releaseStep
  cases h : s.rel1 with
  | none => simp
  | some x =>
    rw [h] at e
    simp only [Option.toList_some, List.length_singleton] at e
    simp [pushFree_room (h := x) (show s.freeq.length < s.params.n by omega)]

/-! ## Acquisition -/

theorem ofNat_succ_word (n : Nat) (x : Word) : x + 1 + BitVec.ofNat 32 n = x + BitVec.ofNat 32 (n + 1) := by
  apply BitVec.eq_of_toNat_eq
  simp [BitVec.toNat_add, Nat.add_assoc, Nat.add_comm 1 n]

/-- Acquisition in closed form: a run of late buffers at the head of `VALIDQ` goes to `FREEQ` and is counted, and what stops
the run is the buffer acquired, the end of the queue, or the bound on the iterations. -/
theorem acquire_ok {n src : Nat} {s t : State} (e : acquire n src s = .ok t) :
    ∃ late rest, (∀ x ∈ late, (s.tokenOf x).toNat ≠ src) ∧
      ((∃ h, s.validq = late ++ h :: rest ∧ (s.tokenOf h).toNat = src ∧ late.length < n ∧
          t = { s with validq := rest, cur := some h, freeq := s.freeq ++ late
                       lateCnt := s.lateCnt + BitVec.ofNat 32 late.length }) ∨
        (s.validq = late ++ rest ∧ (rest = [] ∨ late.length = n) ∧
          t = { s with validq := rest, freeq := s.freeq ++ late
                       lateCnt := s.lateCnt + BitVec.ofNat 32 late.length })) := by
  induction n generalizing s with
  | zero =>
    refine ⟨[], s.validq, by simp, .inr ⟨rfl, .inr rfl, ?_⟩⟩
    simpa using (Except.ok.inj e).symm
  | succ n ih =>
    unfold acquire at e
    cases hv : s.validq with
    | nil =>
      rw [hv] at e
      refine ⟨[], [], by simp, .inr ⟨rfl, .inl rfl, ?_⟩⟩
      obtain rfl := Except.ok.inj e
      cases s
      obtain rfl := hv
      simp
    | cons h rest =>
      simp only [hv] at e
      split at e
      · refine ⟨[], rest, by simp, .inl ⟨h, rfl, ‹_›, Nat.succ_pos n, ?_⟩⟩
        rw [← Except.ok.inj e]
        simp
      · rename_i hne
        cases hp : pushFree h { s with validq := rest } with
        | error c => simp [hp] at e
        | ok u =>
          simp only [hp] at e
          obtain ⟨late, r, hl, hc⟩ := ih e
          have hu := (pushFree_ok hp).2
          subst hu
          refine ⟨h :: late, r, fun x hx => ?_, ?_⟩
          · rcases List.mem_cons.1 hx with rfl | hx
            · exact hne
            · exact hl x hx
          · rcases hc with ⟨x, h1, h2, hn, h3⟩ | ⟨h1, h2, h3⟩
            · left
              refine ⟨x, ?_, h2, Nat.succ_lt_succ hn, ?_⟩
              · rw [show rest = _ from h1]; rfl
              · rw [h3]; simp only [List.append_assoc, List.singleton_append, ofNat_succ_word, List.length_cons]
            · right
              refine ⟨?_, ?_, ?_⟩
              · rw [show rest = _ from h1]; rfl
              · simpa using h2
              · rw [h3]; simp only [List.append_assoc, List.singleton_append, ofNat_succ_word, List.length_cons]

/-- Where `FREEQ` has room for the whole of `VALIDQ`, acquisition raises nothing. -/
theorem acquire_room {n src : Nat} {s : State} (e : s.freeq.length + s.validq.length ≤ s.params.n) :
    ∃ t, acquire n src s = .ok t := by
  induction n generalizing s with
  | zero => exact ⟨s, rfl⟩
  | succ n ih =>
    unfold acquire
    cases hv : s.validq with
    | nil => exact ⟨s, rfl⟩
    | cons h rest =>
      rw [hv] at e
      simp only [List.length_cons] at e
      dsimp only
      split
      · exact ⟨_, rfl⟩
      · rw [pushFree_room (by simp only; omega)]
        exact ih (by simp; omega)

/-! ## Template selection -/

/-- What the end of a group does to the hold registers. -/
theorem endGroup_eq (c : LineClass) (s : State) :
    endGroup c s = if c.groupEnd ∧ s.cur.isSome then { s with rel0 := s.cur, cur := none } else s := by
  unfold endGroup
  cases c.groupEnd <;> cases s.cur <;> simp

/-- The states and results of an unblanked line, by what is held. -/
theorem showLine_some {c : LineClass} {s : State} {h : Handle} (e : s.cur = some h) :
    showLine c s = { state := endGroup c s, template := .active, buf := some h } := by
  simp [showLine, e]

theorem showLine_none {c : LineClass} {s : State} (e : s.cur = none) :
    showLine c s = { state := { s with errCnt := s.errCnt + 1 }, template := .error, buf := none } := by
  simp [showLine, endGroup_eq, e]

/-- Every way `video_select` can end (R129). -/
inductive VideoCase (s : State) (v : Selection) : Prop
  | sync (hp : s.phase = .sync) (hv : v = { state := s, template := .vsync, buf := none })
  | porch (hp : s.phase = .frontPorch ∨ s.phase = .backPorch)
      (hv : v = { state := s, template := .vnosync, buf := none })
  | blanked (hp : s.phase = .active) (hb : (classify s).blanked = true)
      (hv : v = { state := endGroup (classify s) s, template := .blanked, buf := none })
  | held (h : Handle) (hp : s.phase = .active) (hb : (classify s).blanked = false) (hc : s.cur = some h)
      (hv : v = { state := endGroup (classify s) s, template := .active, buf := some h })
  | acquired (h : Handle) (late rest : List Handle) (hp : s.phase = .active) (hb : (classify s).blanked = false)
      (hc : s.cur = none) (hl : ∀ x ∈ late, (s.tokenOf x).toNat ≠ (classify s).src)
      (hq : s.validq = late ++ h :: rest) (ht : (s.tokenOf h).toNat = (classify s).src) (hn : late.length < s.params.n)
      (hv : v = { state := endGroup (classify s) { s with
                    validq := rest, cur := some h, freeq := s.freeq ++ late
                    lateCnt := s.lateCnt + BitVec.ofNat 32 late.length }
                  template := .active, buf := some h })
  | starved (late rest : List Handle) (hp : s.phase = .active) (hb : (classify s).blanked = false)
      (hc : s.cur = none) (hl : ∀ x ∈ late, (s.tokenOf x).toNat ≠ (classify s).src)
      (hq : s.validq = late ++ rest) (hr : rest = [] ∨ late.length = s.params.n)
      (hv : v = { state := { s with
                    validq := rest, freeq := s.freeq ++ late
                    lateCnt := s.lateCnt + BitVec.ofNat 32 late.length, errCnt := s.errCnt + 1 }
                  template := .error, buf := none })

theorem videoSelect_ok {s : State} {v : Selection} (e : videoSelect s = .ok v) : VideoCase s v := by
  unfold videoSelect at e
  cases hp : s.phase with
  | sync => simp only [hp] at e; exact .sync hp (Except.ok.inj e).symm
  | frontPorch => simp only [hp] at e; exact .porch (.inl hp) (Except.ok.inj e).symm
  | backPorch => simp only [hp] at e; exact .porch (.inr hp) (Except.ok.inj e).symm
  | active =>
    simp only [hp] at e
    cases hb : (classify s).blanked with
    | true =>
      simp only [hb, if_true] at e
      exact .blanked hp hb (Except.ok.inj e).symm
    | false =>
      simp only [hb, Bool.false_eq_true, if_false] at e
      cases hc : s.cur with
      | some h =>
        simp only [hc] at e
        refine .held h hp hb hc ?_
        rw [← Except.ok.inj e, showLine_some hc]
      | none =>
        simp only [hc] at e
        cases ha : acquire s.params.n (classify s).src s with
        | error c => simp [ha] at e
        | ok t =>
          simp only [ha] at e
          have hv := (Except.ok.inj e).symm
          obtain ⟨late, rest, hl, ⟨h, hq, ht, hn, rfl⟩ | ⟨hq, hr, rfl⟩⟩ := acquire_ok ha
          · refine .acquired h late rest hp hb hc hl hq ht hn ?_
            rw [hv, showLine_some rfl]
          · refine .starved late rest hp hb hc hl hq hr ?_
            rw [hv, showLine_none (by exact hc)]

/-- Where `FREEQ` has room for the whole of `VALIDQ`, selection raises nothing. -/
theorem videoSelect_room {s : State} (e : s.freeq.length + s.validq.length ≤ s.params.n) :
    ∃ v, videoSelect s = .ok v := by
  unfold videoSelect
  split
  · exact ⟨_, rfl⟩
  · exact ⟨_, rfl⟩
  · exact ⟨_, rfl⟩
  · split
    · exact ⟨_, rfl⟩
    · split
      · exact ⟨_, rfl⟩
      · obtain ⟨t, ht⟩ := acquire_room (n := s.params.n) (src := (classify s).src) e
        simp [ht]

/-! ## Islands -/

/-- Every way `island_select` can end (R173): nothing moves, or the head of `PVALIDQ` goes to `PFREEQ`. -/
theorem islandSelect_ok {g : Bool} {s t : State} {isl : IslandSrc} (e : islandSelect g s = .ok (t, isl)) :
    (t = s ∧ ∀ p pol, isl ≠ .pair p pol) ∨
      ∃ p rest, g = true ∧ s.pvalidq = p :: rest ∧ isl = .pair p (s.phase == .sync) ∧
        t = { s with pvalidq := rest, pfreeq := s.pfreeq ++ [p] } := by
  unfold islandSelect at e
  split at e
  · obtain ⟨rfl, rfl⟩ := Prod.mk.inj (Except.ok.inj e)
    exact .inl ⟨rfl, by simp⟩
  · rename_i hg
    split at e
    · obtain ⟨rfl, rfl⟩ := Prod.mk.inj (Except.ok.inj e)
      refine .inl ⟨rfl, fun p pol => ?_⟩
      split <;> simp
    · split at e
      · obtain ⟨rfl, rfl⟩ := Prod.mk.inj (Except.ok.inj e)
        exact .inl ⟨rfl, by simp⟩
      · cases hq : s.pvalidq with
        | nil =>
          simp only [hq] at e
          obtain ⟨rfl, rfl⟩ := Prod.mk.inj (Except.ok.inj e)
          exact .inl ⟨rfl, by simp⟩
        | cons p rest =>
          simp only [hq] at e
          cases hp : pushPairFree p { s with pvalidq := rest } with
          | error c => simp [hp] at e
          | ok u =>
            simp only [hp] at e
            obtain ⟨rfl, rfl⟩ := Prod.mk.inj (Except.ok.inj e)
            rw [(pushPairFree_ok hp).2]
            exact .inr ⟨p, rest, by simpa using hg, rfl, rfl, rfl⟩

/-- Where `PFREEQ` has room for the whole of `PVALIDQ`, the choice of an island raises nothing. -/
theorem islandSelect_room {g : Bool} {s : State} (e : s.pfreeq.length + s.pvalidq.length ≤ s.params.m) :
    ∃ r, islandSelect g s = .ok r := by
  unfold islandSelect
  split
  · exact ⟨_, rfl⟩
  · split
    · exact ⟨_, rfl⟩
    · split
      · exact ⟨_, rfl⟩
      · cases hq : s.pvalidq with
        | nil => exact ⟨_, rfl⟩
        | cons p rest =>
          rw [hq] at e
          simp only [List.length_cons] at e
          dsimp only
          rw [pushPairFree_room (by simp only; omega)]
          exact ⟨_, rfl⟩

/-! ## Patches and install -/

/-- A fold of patches changes the memory only. -/
theorem foldl_mem {α : Type} (f : State → α → State) (hf : ∀ s a, f s a = { s with mem := (f s a).mem })
    (l : List α) (s : State) : l.foldl f s = { s with mem := (l.foldl f s).mem } := by
  induction l generalizing s with
  | nil => rfl
  | cons a rest ih =>
    have h := ih (f s a)
    rw [hf s a] at h
    simpa [List.foldl_cons, ← hf s a] using h

theorem patchActive_eq (h : Handle) (s : State) : patchActive h s = { s with mem := (patchActive h s).mem } :=
  foldl_mem _ (fun _ _ => rfl) _ s

theorem patchIsland_eq (t : Template) (isl : IslandSrc) (s : State) :
    patchIsland t isl s = { s with mem := (patchIsland t isl s).mem } :=
  foldl_mem _ (fun _ _ => rfl) _ s

/-- The memory an install leaves. -/
def installMem (t : Template) (buf : Option Handle) (isl : IslandSrc) (s : State) : Memory :=
  (patchIsland t isl (match buf with
    | some h => patchActive h s
    | none => s)).mem

/-- An install in closed form: the program, the trace and the patched fields. -/
theorem install_eq (t : Template) (buf : Option Handle) (isl : IslandSrc) (s : State) :
    install t buf isl s = { s with
      mem := installMem t buf isl s
      prog := some (programOf s t buf isl)
      env := { s.env with trace := s.env.trace ++ [programOf s t buf isl] } } := by
  unfold install installMem emitLine
  cases buf with
  | none =>
    dsimp only
    rw [patchIsland_eq]
  | some h =>
    dsimp only
    rw [patchIsland_eq, patchActive_eq]

/-! ## The line program and the TICK -/

theorem buildLine_ok {s t : State} (e : buildLine s = .ok t) :
    ∃ v u isl, videoSelect s = .ok v ∧ islandSelect s.audioEn v.state = .ok (u, isl) ∧
      t = install v.template v.buf isl u := by
  unfold buildLine at e
  cases hv : videoSelect s with
  | error c => simp [hv] at e
  | ok v =>
    simp only [hv] at e
    cases hi : islandSelect s.audioEn v.state with
    | error c => simp [hi] at e
    | ok r =>
      obtain ⟨u, isl⟩ := r
      simp only [hi] at e
      exact ⟨v, u, isl, rfl, hi, (Except.ok.inj e).symm⟩

theorem tickSteps_ok {s t : State} (e : tickSteps s = .ok t) :
    ∃ r, releaseStep (advance { s with laneLine := s.prog }) = .ok r ∧ buildLine r = .ok t := by
  unfold tickSteps at e
  cases hr : releaseStep (advance { s with laneLine := s.prog }) with
  | error c => simp [hr] at e
  | ok r =>
    rw [hr] at e
    exact ⟨r, rfl, e⟩

/-- A TICK ends in its steps' state or in a fault. -/
theorem execTick_next {s t : State} (e : execTick s = .next t) :
    tickSteps s = .ok t ∨ ∃ c, tickSteps s = .error c ∧ t = s.halt c := by
  unfold execTick at e
  have e := (Host.Outcome.next.inj e).symm
  cases h : tickSteps s with
  | ok u => rw [h] at e; exact .inl (e ▸ rfl)
  | error c => rw [h] at e; exact .inr ⟨c, rfl, e⟩

/-- The state a TICK's selection starts from: the position advanced, the pipeline moved one stage. -/
def ticked (s : State) : State :=
  { s with
    phase := (advance s).phase, vctr := (advance s).vctr, frame := (advance s).frame, laneLine := s.prog
    freeq := s.freeq ++ s.rel1.toList, rel1 := s.rel0, rel0 := none }

theorem advance_laneLine (s : State) (p : Option LineProgram) :
    advance { s with laneLine := p } = { s with
      phase := (advance s).phase, vctr := (advance s).vctr, frame := (advance s).frame, laneLine := p } := by
  rw [advance_eq]
  obtain ⟨h₁, h₂, h₃⟩ := advance_congr (s := s) (t := { s with laneLine := p }) rfl rfl rfl rfl
  rw [h₁, h₂, h₃]

/-- A TICK in closed form: the selection of the template and of the island on the advanced state, then the install. -/
theorem tickSteps_closed {s t : State} (e : tickSteps s = .ok t) :
    ∃ v u isl, VideoCase (ticked s) v ∧ videoSelect (ticked s) = .ok v ∧
      islandSelect s.audioEn v.state = .ok (u, isl) ∧ t = install v.template v.buf isl u := by
  obtain ⟨r, hr, hb⟩ := tickSteps_ok e
  have h := releaseStep_ok hr
  rw [advance_laneLine] at h
  have h : r = ticked s := h
  subst h
  obtain ⟨v, u, isl, hv, hi, ht⟩ := buildLine_ok hb
  exact ⟨v, u, isl, videoSelect_ok hv, hv, hi, ht⟩

end Sys2Proof.Machine
end

