-- ==== Sys2Proof/Laws/Command.lean ====
section
/-! SUPPORT. What a port command can do, said once: it holds, raises, refuses by status, or completes with its own effect.
Invariants and frames are derived from this. -/

namespace Sys2Proof.Machine

/-! ## The common checks -/

theorem live_iff {s : State} :
    s.live = true ↔ s.lifecycle = .initialized ∨ s.lifecycle = .started ∨ s.lifecycle = .stopped := by
  unfold State.live
  cases s.lifecycle <;> simp

theorem live_not_halted {s : State} (h : s.live = true) : s.lifecycle ≠ .halted := by
  intro e
  simp [State.live, e] at h

/-- A command while HALTED. -/
theorem command_halted {s : State} (rule : State → Reply) (h : s.lifecycle = .halted) :
    command rule s = .next (s.reply .halted (s.fault.setWidth 32)) := by
  simp [command, h, State.answer, State.refuse]

/-- A command otherwise: its own rule. -/
theorem command_rule {s : State} (rule : State → Reply) (h : s.lifecycle ≠ .halted) :
    command rule s = .next (s.answer (rule s)) := by
  simp [command, h]

/-- A command on the pools, where they exist. -/
theorem command_live {s : State} (rule : State → Reply) (h : s.live = true) :
    command (whenLive rule) s = .next (s.answer (rule s)) := by
  rw [command_rule _ (live_not_halted h)]
  simp [whenLive, h]

/-- A command on the pools, where they do not exist. -/
theorem command_not_live {s : State} (rule : State → Reply) (h : s.live = false) (hh : s.lifecycle ≠ .halted) :
    command (whenLive rule) s = .next (s.reply .wrongState 0) := by
  rw [command_rule _ hh]
  simp [whenLive, h, State.answer, State.refuse]

@[simp] theorem answer_done (s t : State) (st : Status) (v : Word) : s.answer (.done st v t) = t.reply st v := rfl
@[simp] theorem answer_hold (s : State) : s.answer .hold = s.hold := rfl
@[simp] theorem answer_raise (s : State) (c : FaultCode) : s.answer (.raise c) = s.raise c := rfl
@[simp] theorem answer_refuse (s t : State) (st : Status) (v : Word) : s.answer (t.refuse st v) = t.reply st v := rfl

/-! ## The effect of a command that completes -/

/-- What a command leaves when it completes with `OK`, before its result is written (the rules of R83). -/
def Effect (i : Instr) (s u : State) : Prop :=
  match i with
  | .init mode =>
      (s.lifecycle = .uninit ∨ s.lifecycle = .destroyed) ∧ ∃ tt, acceptedTable s mode = some tt ∧
        u = { initEffects tt s with lifecycle := .initialized }
  | .registerIrq c =>
      (s.lifecycle = .initialized ∨ s.lifecycle = .stopped) ∧ c.toNat < 2 ∧ u = { s with irqCore := c }
  | .start =>
      (s.lifecycle = .initialized ∨ s.lifecycle = .stopped) ∧ s.irqCore ≠ 0xFF ∧ startEffects s = .ok u
  | .stop =>
      (s.lifecycle ≠ .started ∧ s.lifecycle ≠ .halted ∧ u = s) ∨
        (s.lifecycle = .started ∧ ∃ t, stopSteps s = .ok t ∧ u = { t with lifecycle := .stopped })
  | .destroy =>
      ((s.lifecycle = .uninit ∨ s.lifecycle = .destroyed) ∧ u = s) ∨
        (s.live = true ∧ s.prodBufs = [] ∧ s.prodPair = none ∧
          ∃ t, (if s.lifecycle = .started then stopSteps s else .ok s) = .ok t ∧ u = freePools t)
  | .writeCfg idx v => s.lifecycle ≠ .halted ∧ u = s.setCfg idx v
  | .acquireFreeBuffer =>
      s.live = true ∧ ∃ h rest, s.freeq = h :: rest ∧
        u = State.setFilled { s with freeq := rest, prodBufs := insertHandle h s.prodBufs } h false
  | .fillBuffer h =>
      s.live = true ∧ h.toNat < s.params.n ∧ h ∈ s.prodBufs ∧
        u = (s.write (.buf h) 0 s.params.bufBytes s.bus.cmd.content).setFilled h true
  | .submitValidBuffer h tok =>
      s.live = true ∧ h ∈ s.prodBufs ∧ s.validq.length < s.params.n ∧
        u = { s.setToken h tok with prodBufs := removeHandle h s.prodBufs, validq := s.validq ++ [h] }
  | .acquireFreeAudioSlot =>
      s.live = true ∧ (u = s ∨ ∃ p rest, s.prodPair = none ∧ s.pfreeq = p :: rest ∧
        u = { s with pfreeq := rest, prodPair := some p })
  | .submitAudioSamples =>
      s.live = true ∧ ∃ p pkt rest, ((s.prodPair = some p ∧ rest = s.pfreeq) ∨ (s.prodPair = none ∧ s.pfreeq = p :: rest)) ∧
        u = { encodePair s p pkt with
              pfreeq := rest, prodPair := none, pvalidq := s.pvalidq ++ [p]
              audFrameIdx := BitVec.ofNat 8 ((s.audFrameIdx.toNat + 4) % 192) }
  | .setAudioEnabled b =>
      s.live = true ∧ (b = 1 → s.audioOk = true) ∧ u = { s with audioEn := b == 1 }
  | .ringPush =>
      s.live = true ∧
        u = { s.setRingSlot s.ringWr s.issuer.d0 with ringWr := ringSlotAt s.params s.ringWr 1 }
  | .ringWriteSlot k =>
      s.live = true ∧ u = s.setRingSlot (ringSlotAt s.params s.ringWr k) s.issuer.d0
  | .ringAdvanceWrite n => s.live = true ∧ u = { s with ringWr := ringSlotAt s.params s.ringWr n }
  | .ringAdvanceRead n => s.live = true ∧ u = { s with ringRd := ringSlotAt s.params s.ringRd n }
  | .ringPopAvailable | .ringReadSlot _ | .ringWriteSize | .readDiag _ => u = s
  | .tick => False

/-- Every way a port command can end: it holds (only the two that acquire), it raises a fault of the spec, it refuses by a
status other than `OK` and changes nothing, or it completes with its effect. -/
def Ends (i : Instr) (s t : State) : Prop :=
  (t = s.hold ∧ s.live = true ∧ (i = .acquireFreeBuffer ∨ i = .acquireFreeAudioSlot)) ∨
    (s.lifecycle ≠ .halted ∧ ∃ c, t = s.raise c) ∨
    (∃ st, t = s.reply st 0 ∧ st ≠ .ok ∧ st ≠ .halted) ∨
    (s.lifecycle = .halted ∧ t = s.reply .halted (s.fault.setWidth 32)) ∨
    ∃ v u, Effect i s u ∧ t = u.reply .ok v

theorem ends_of_command {i : Instr} {s t : State} {rule : State → Reply} (e : command rule s = .next t)
    (h : s.lifecycle ≠ .halted → Ends i s (s.answer (rule s))) : Ends i s t := by
  by_cases hh : s.lifecycle = .halted
  · rw [command_halted rule hh] at e
    exact .inr (.inr (.inr (.inl ⟨hh, (Host.Outcome.next.inj e).symm⟩)))
  · rw [command_rule rule hh] at e
    exact Host.Outcome.next.inj e ▸ h hh

theorem ends_refuse {i : Instr} {s : State} {st : Status} (h₁ : st ≠ .ok) (h₂ : st ≠ .halted) :
    Ends i s (s.reply st 0) :=
  .inr (.inr (.inl ⟨st, rfl, h₁, h₂⟩))

theorem ends_raise {i : Instr} {s : State} {c : FaultCode} (h : s.lifecycle ≠ .halted) : Ends i s (s.raise c) :=
  .inr (.inl ⟨h, c, rfl⟩)

theorem ends_done {i : Instr} {s u : State} {v : Word} (h : Effect i s u) : Ends i s (u.reply .ok v) :=
  .inr (.inr (.inr (.inr ⟨v, u, h, rfl⟩)))

theorem ends_whenLive {i : Instr} {s : State} {rule : State → Reply}
    (h : s.live = true → Ends i s (s.answer (rule s))) : Ends i s (s.answer (whenLive rule s)) := by
  unfold whenLive
  split
  · exact h ‹_›
  · exact ends_refuse (by decide) (by decide)

theorem atRest_iff {s : State} : s.atRest = true ↔ s.lifecycle = .initialized ∨ s.lifecycle = .stopped := by
  simp [State.atRest]

/-- The pair a submit takes, in closed form. -/
theorem takePair_eq {s u : State} {p : Handle} (e : takePair s = some (p, u)) :
    ∃ rest, ((s.prodPair = some p ∧ rest = s.pfreeq) ∨ (s.prodPair = none ∧ s.pfreeq = p :: rest)) ∧
      u = { s with pfreeq := rest } := by
  unfold takePair at e
  split at e
  · obtain ⟨rfl, rfl⟩ := Prod.mk.inj (Option.some.inj e)
    exact ⟨_, .inl ⟨‹_›, rfl⟩, rfl⟩
  · cases e
  · obtain ⟨rfl, rfl⟩ := Prod.mk.inj (Option.some.inj e)
    exact ⟨_, .inr ⟨‹_›, ‹_›⟩, rfl⟩

/-- How a port command ends. -/
theorem exec_ends {i : Instr} {s t : State} (hi : i ≠ .tick) (e : exec i s = .next t) : Ends i s t := by
  cases i with
  | tick => exact absurd rfl hi
  | readDiag sel =>
    have e : State.answer s (readDiagRule sel s) = t := Host.Outcome.next.inj e
    subst e
    unfold readDiagRule
    split
    · exact ends_refuse (by decide) (by decide)
    · exact ends_done rfl
  | init mode =>
    refine ends_of_command e fun hh => ?_
    unfold initRule
    split
    · split
      · exact ends_refuse (by decide) (by decide)
      · split
        · exact ends_done ⟨‹_›, _, ‹_›, rfl⟩
        · exact ends_raise hh
    · exact ends_refuse (by decide) (by decide)
  | registerIrq c =>
    refine ends_of_command e fun hh => ?_
    unfold registerIrqRule
    split
    · split
      · exact ends_refuse (by decide) (by decide)
      · exact ends_done ⟨atRest_iff.1 ‹_›, Nat.lt_of_not_le ‹_›, rfl⟩
    · exact ends_refuse (by decide) (by decide)
  | start =>
    refine ends_of_command e fun hh => ?_
    unfold startRule
    split
    · split
      · exact ends_refuse (by decide) (by decide)
      · split
        · exact ends_refuse (by decide) (by decide)
        · cases hs : startEffects s with
          | ok u => exact ends_done ⟨atRest_iff.1 ‹_›, ‹_›, hs⟩
          | error c => exact ends_raise hh
    · exact ends_refuse (by decide) (by decide)
  | stop =>
    refine ends_of_command e fun hh => ?_
    unfold stopRule
    split
    · exact ends_done (.inl ⟨‹_›, hh, rfl⟩)
    · split
      · exact ends_raise hh
      · cases hs : stopSteps s with
        | ok u => exact ends_done (.inr ⟨not_not.1 ‹_›, u, hs, rfl⟩)
        | error c => exact ends_raise hh
  | destroy =>
    refine ends_of_command e fun hh => ?_
    unfold destroyRule
    split
    · exact ends_done (.inl ⟨‹_›, rfl⟩)
    · rename_i hl
      split
      · exact ends_raise hh
      · split
        · exact ends_raise hh
        · rename_i ho
          split
          · refine ends_done (.inr ⟨?_, ?_, ?_, _, ‹_›, rfl⟩)
            · rw [live_iff]
              cases hc : s.lifecycle <;> simp_all
            · simpa using (not_or.1 ho).1
            · simpa using (not_or.1 ho).2
          · exact ends_raise hh
  | writeCfg idx v =>
    refine ends_of_command e fun hh => ?_
    unfold writeCfgRule
    split
    · exact ends_refuse (by decide) (by decide)
    · exact ends_done ⟨hh, rfl⟩
  | acquireFreeBuffer =>
    refine ends_of_command e fun hh => ends_whenLive fun hl => ?_
    unfold acquireFreeBufferRule
    split
    · exact .inl ⟨rfl, hl, .inl rfl⟩
    · exact ends_done ⟨hl, _, _, ‹_›, rfl⟩
  | fillBuffer h =>
    refine ends_of_command e fun hh => ends_whenLive fun hl => ?_
    unfold fillBufferRule
    split
    · exact ends_refuse (by decide) (by decide)
    · split
      · exact ends_raise hh
      · exact ends_done ⟨hl, Nat.lt_of_not_le ‹_›, not_not.1 ‹_›, rfl⟩
  | submitValidBuffer h tok =>
    refine ends_of_command e fun hh => ends_whenLive fun hl => ?_
    unfold submitValidBufferRule
    split
    · exact ends_refuse (by decide) (by decide)
    · split
      · exact ends_raise hh
      · split
        · exact ends_raise hh
        · cases hp : pushValid h { s.setToken h tok with prodBufs := removeHandle h s.prodBufs } with
          | error c => exact ends_raise hh
          | ok u =>
            obtain ⟨h1, rfl⟩ := pushValid_ok hp
            exact ends_done ⟨hl, not_not.1 ‹_›, h1, rfl⟩
  | acquireFreeAudioSlot =>
    refine ends_of_command e fun hh => ends_whenLive fun hl => ?_
    unfold acquireFreeAudioSlotRule
    split
    · exact ends_done ⟨hl, .inl rfl⟩
    · exact .inl ⟨rfl, hl, .inr rfl⟩
    · exact ends_done ⟨hl, .inr ⟨_, _, ‹_›, ‹_›, rfl⟩⟩
  | submitAudioSamples =>
    refine ends_of_command e fun hh => ends_whenLive fun hl => ?_
    unfold submitAudioSamplesRule
    split
    · exact ends_refuse (by decide) (by decide)
    · split
      · exact ends_refuse (by decide) (by decide)
      · rename_i p u hp
        split
        · exact ends_raise hh
        · dsimp only
          split
          · rename_i w hw
            obtain ⟨rest, hr, rfl⟩ := takePair_eq hp
            obtain ⟨-, rfl⟩ := pushPairValid_ok hw
            exact ends_done ⟨hl, p, _, rest, hr, rfl⟩
          · exact ends_raise hh
  | setAudioEnabled b =>
    refine ends_of_command e fun hh => ends_whenLive fun hl => ?_
    unfold setAudioEnabledRule
    split
    · exact ends_refuse (by decide) (by decide)
    · split
      · exact ends_refuse (by decide) (by decide)
      · rename_i h2
        exact ends_done ⟨hl, fun hb => by simpa [hb] using h2, rfl⟩
  | ringPush =>
    refine ends_of_command e fun hh => ends_whenLive fun hl => ?_
    unfold ringPushRule
    split
    · exact ends_refuse (by decide) (by decide)
    · exact ends_done ⟨hl, rfl⟩
  | ringWriteSlot k =>
    refine ends_of_command e fun hh => ends_whenLive fun hl => ?_
    unfold ringWriteSlotRule
    split
    · exact ends_raise hh
    · exact ends_done ⟨hl, rfl⟩
  | ringAdvanceWrite n =>
    refine ends_of_command e fun hh => ends_whenLive fun hl => ?_
    unfold ringAdvanceWriteRule
    split
    · exact ends_raise hh
    · exact ends_done ⟨hl, rfl⟩
  | ringWriteSize => exact ends_of_command e fun _ => ends_whenLive fun _ => ends_done rfl
  | ringPopAvailable => exact ends_of_command e fun _ => ends_whenLive fun _ => ends_done rfl
  | ringReadSlot k =>
    refine ends_of_command e fun hh => ends_whenLive fun hl => ?_
    unfold ringReadSlotRule
    split
    · exact ends_raise hh
    · split
      · exact ends_raise hh
      · exact ends_done rfl
  | ringAdvanceRead n =>
    refine ends_of_command e fun hh => ends_whenLive fun hl => ?_
    unfold ringAdvanceReadRule
    split
    · exact ends_raise hh
    · exact ends_done ⟨hl, rfl⟩

/-! ## Lifecycle effects in closed form -/

/-- The steps of STOP in closed form (R237). -/
theorem stopSteps_ok {s t : State} (e : stopSteps s = .ok t) :
    t = { s with
      irqEn := false, prog := none, laneLine := none
      freeq := s.freeq ++ (s.inFlight ++ s.validq), validq := []
      rel1 := none, rel0 := none, cur := none
      pfreeq := s.pfreeq ++ s.pvalidq, pvalidq := [] } := by
  unfold stopSteps at e
  dsimp only at e
  cases h : pushFreeAll ((abortLanes { s with irqEn := false }).inFlight ++ (abortLanes { s with irqEn := false }).validq)
      { abortLanes { s with irqEn := false } with rel1 := none, rel0 := none, cur := none, validq := [] } with
  | error c => rw [h] at e; cases e
  | ok u =>
    rw [h] at e
    have hu := pushFreeAll_ok h
    have ht := pushPairFreeAll_ok (show pushPairFreeAll u.pvalidq { u with pvalidq := [] } = .ok t from e)
    rw [ht, hu]
    rfl

theorem stopSteps_room {s : State} (h₁ : s.freeq.length + (s.inFlight.length + s.validq.length) ≤ s.params.n)
    (h₂ : s.pfreeq.length + s.pvalidq.length ≤ s.params.m) :
    stopSteps s = .ok { s with
      irqEn := false, prog := none, laneLine := none
      freeq := s.freeq ++ (s.inFlight ++ s.validq), validq := []
      rel1 := none, rel0 := none, cur := none
      pfreeq := s.pfreeq ++ s.pvalidq, pvalidq := [] } := by
  unfold stopSteps
  dsimp only
  rw [pushFreeAll_room (by simpa [abortLanes, State.inFlight, Nat.add_assoc] using h₁)]
  simp only [Except.bind]
  rw [pushPairFreeAll_room (by simpa [abortLanes] using h₂)]
  rfl

/-- The island source of the first line (R236). -/
def startIsland (s : State) : IslandSrc :=
  if s.audioEn then (if s.frame.toNat % 2 = 0 then .avi else .ainfo) else .null false

/-- START's effects in closed form (R236); they raise nothing. -/
theorem startEffects_eq (s : State) :
    startEffects s = .ok { install .vnosync none (startIsland s) { s with phase := .frontPorch, vctr := 0 } with
      irqEn := true, lifecycle := .started } := by
  unfold startEffects buildLine videoSelect islandSelect startIsland
  cases h : s.audioEn
  · rfl
  · simp

end Sys2Proof.Machine
end

