-- ==== Sys2Proof/Laws/Decode.lean ====
section
/-! SUPPORT. The laws of the encoder and the decoder: the fields of an encoded command, the command its fields name, and the
word a decoded command came from. -/

namespace Sys2Proof

theorem opField_encode (i : Instr) : opField (encode i) = i.opcode := by
  unfold opField encode
  generalize i.immOperand = m, i.hOperand = h, i.opcode = o
  apply BitVec.eq_of_getLsbD_eq
  intro k hk
  simp only [BitVec.getLsbD_extractLsb', BitVec.getLsbD_append]
  rw [if_pos (by omega)]
  simp [hk]

theorem hField_encode (i : Instr) : hField (encode i) = i.hOperand := by
  unfold hField encode
  generalize i.immOperand = m, i.hOperand = h, i.opcode = o
  apply BitVec.eq_of_getLsbD_eq
  intro k hk
  simp only [BitVec.getLsbD_extractLsb', BitVec.getLsbD_append]
  rw [if_neg (by omega), if_pos (by omega)]
  simp [hk]

theorem immField_encode (i : Instr) : immField (encode i) = i.immOperand := by
  unfold immField encode
  generalize i.immOperand = m, i.hOperand = h, i.opcode = o
  apply BitVec.eq_of_getLsbD_eq
  intro k hk
  simp only [BitVec.getLsbD_extractLsb', BitVec.getLsbD_append]
  rw [if_neg (by omega), if_neg (by omega)]
  rw [show 0 + 16 + k - 8 - 8 = k by omega]
  simp [hk]

/-- A word is the concatenation of its three fields. -/
theorem eq_of_fields {v w : Word} (ho : opField v = opField w) (hh : hField v = hField w)
    (hi : immField v = immField w) : v = w := by
  unfold opField at ho
  unfold hField at hh
  unfold immField at hi
  apply BitVec.eq_of_getLsbD_eq
  intro k hk
  have eo := congrArg (fun x => x.getLsbD k) ho
  have eh := congrArg (fun x => x.getLsbD (k - 8)) hh
  have ei := congrArg (fun x => x.getLsbD (k - 16)) hi
  simp only [BitVec.getLsbD_extractLsb'] at eo eh ei
  by_cases h1 : k < 8
  · simpa [h1] using eo
  · by_cases h2 : k < 16
    · have a : k - 8 < 8 := by omega
      have b : 8 + (k - 8) = k := by omega
      simpa [a, b] using eh
    · have a : k - 16 < 16 := by omega
      have b : 16 + (k - 16) = k := by omega
      simpa [a, b] using ei

/-- The fields of a command name the command. -/
theorem commandOf_fields (i : Instr) : commandOf i.opcode i.hOperand i.immOperand = some i := by
  cases i <;> rfl

theorem unusedFieldsZero_encode (i : Instr) : unusedFieldsZero i (encode i) = true := by
  unfold unusedFieldsZero
  rw [hField_encode, immField_encode]
  cases i <;> simp [Instr.usesH, Instr.usesImm, Instr.hOperand, Instr.immOperand]

/-- What the fields of a named command are. -/
theorem commandOf_eq_some {op h : Byte} {imm : Half} {i : Instr} (e : commandOf op h imm = some i) :
    op = i.opcode ∧ (i.usesH = true → h = i.hOperand) ∧ (i.usesImm = true → imm = i.immOperand) := by
  unfold commandOf at e
  split at e <;> first | (cases e; done) | skip
  all_goals
    cases Option.some.inj e
    refine ⟨BitVec.eq_of_toNat_eq (by assumption), ?_, ?_⟩ <;>
      simp [Instr.usesH, Instr.usesImm, Instr.hOperand, Instr.immOperand]

theorem hOperand_eq_zero {i : Instr} (h : i.usesH = false) : i.hOperand = 0 := by
  cases i <;> first | rfl | cases h

theorem immOperand_eq_zero {i : Instr} (h : i.usesImm = false) : i.immOperand = 0 := by
  cases i <;> first | rfl | cases h

/-- When the decoder answers a command. -/
theorem decode_eq_ok {o : Origin} {w : Word} {i : Instr} (e : decode o w = .ok i) :
    commandOf (opField w) (hField w) (immField w) = some i ∧ i.wellFormed o = true ∧ unusedFieldsZero i w = true := by
  unfold decode at e
  split at e
  · cases e
  · split at e
    · split at e
      · cases Except.ok.inj e
        exact ⟨‹_›, ‹_›, ‹_›⟩
      · cases e
    · cases e

/-- A word whose command uses every field that is not zero is that command's encoding. -/
theorem encode_of_commandOf {w : Word} {i : Instr} (hc : commandOf (opField w) (hField w) (immField w) = some i)
    (hz : unusedFieldsZero i w = true) : encode i = w := by
  obtain ⟨ho, hh, hi⟩ := commandOf_eq_some hc
  simp only [unusedFieldsZero, Bool.and_eq_true, Bool.or_eq_true, beq_iff_eq] at hz
  refine eq_of_fields (by rw [opField_encode, ho]) ?_ ?_
  · rw [hField_encode]
    cases hu : i.usesH with
    | true => exact (hh hu).symm
    | false => rw [hOperand_eq_zero hu, hz.1.resolve_left (by simp [hu])]
  · rw [immField_encode]
    cases hu : i.usesImm with
    | true => exact (hi hu).symm
    | false => rw [immOperand_eq_zero hu, hz.2.resolve_left (by simp [hu])]

/-- The opcodes of R83, and no others, name a command. -/
theorem commandOf_eq_none (op h : Byte) (imm : Half) :
    commandOf op h imm = none ↔ op.toNat ∉ [0x01, 0x02, 0x03, 0x04, 0x05, 0x06, 0x10, 0x11, 0x12, 0x13, 0x14, 0x15, 0x20,
      0x21, 0x22, 0x28, 0x29, 0x2A, 0x2B, 0x30, 0x40] := by
  unfold commandOf
  split <;> simp_all

end Sys2Proof
end

