-- ==== Sys2Proof/Laws/Frame.lean ====
section
/-! SUPPORT. INIT, SUBMIT_AUDIO_SAMPLES, START and TICK in closed form, and what no command that completes changes. -/

namespace Sys2Proof.Machine

/-! ## INIT -/

theorem buildTemplates_eq (s : State) : buildTemplates s = { s with mem := (buildTemplates s).mem } := by
  unfold buildTemplates writeDescriptor
  exact foldl_mem _ (fun s t => foldl_mem _ (fun s l => foldl_mem _ (fun s seg => foldl_mem _ (fun _ _ => rfl) _ s) _ s) _ s) _ s

theorem setAudioValues_eq (s : State) :
    setAudioValues s = { s with
      audioOk := (audioValues s.params s.tt s.rateCode).isSome
      cts := ((audioValues s.params s.tt s.rateCode).map Prod.fst).getD 0
      nval := ((audioValues s.params s.tt s.rateCode).map Prod.snd).getD 0 } := by
  unfold setAudioValues
  cases audioValues s.params s.tt s.rateCode <;> rfl

theorem memOnly_trans {s t u : State} (h₁ : t = { s with mem := t.mem }) (h₂ : u = { t with mem := u.mem }) :
    u = { s with mem := u.mem } :=
  h₂.trans (by rw [h₁])

theorem setStatic_eq (s : State) (i : StaticId) (v : Nat) : s.setStatic i v = { s with mem := (s.setStatic i v).mem } :=
  rfl

theorem buildStreams_eq (s : State) : buildStreams s = { s with mem := (buildStreams s).mem } := by
  unfold buildStreams
  dsimp only
  have h : ∀ a b c d : Nat,
      (((s.setStatic (.null false) a).setStatic (.null true) b).setStatic .avi c).setStatic .ainfo d = { s with
        mem := ((((s.setStatic (.null false) a).setStatic (.null true) b).setStatic .avi c).setStatic .ainfo d).mem } :=
    fun _ _ _ _ => memOnly_trans (memOnly_trans (memOnly_trans (setStatic_eq s _ _) (setStatic_eq _ _ _))
      (setStatic_eq _ _ _)) (setStatic_eq _ _ _)
  split
  · exact memOnly_trans (h _ _ _ _) (setStatic_eq _ _ _)
  · exact h _ _ _ _

/-- INIT's effects in closed form but for the memory. -/
theorem initEffects_eq (tt : TimingTable) (s : State) :
    initEffects tt s =
      { setAudioValues (clearRun (allocatePools (latchConfig tt s))) with mem := (initEffects tt s).mem } := by
  unfold initEffects
  rw [buildStreams_eq, setAudioValues_eq, setAudioValues_eq, buildTemplates_eq]

/-! ## Writes of the audio producer -/

theorem encodePair_eq (s : State) (p : Handle) (bytes : List Byte) :
    encodePair s p bytes = { s with mem := (encodePair s p bytes).mem } := rfl

/-! ## What stays -/

/-- The fields no command that completes changes, nor a TICK. -/
structure Stays (s t : State) : Prop where
  params   : t.params = s.params
  fault    : t.fault = s.fault
  bus      : t.bus = s.bus
  control  : t.control = s.control
  producer : t.producer = s.producer
  source   : t.source = s.source
  issued   : ∀ p, t.issued p = s.issued p
  turns    : t.env.turns = s.env.turns
  clock    : t.env.clock = s.env.clock

theorem Stays.port {s t : State} (h : Stays s t) (p : PortId) : t.port p = s.port p := by
  cases p
  · exact h.control
  · exact h.producer
  · exact h.source

theorem setCfg_stays (s : State) (idx : Byte) (v : Half) : Stays s (s.setCfg idx v) := by
  unfold State.setCfg
  split <;> exact ⟨rfl, rfl, rfl, rfl, rfl, rfl, fun p => by cases p <;> rfl, rfl, rfl⟩

/-- `WRITE_CFG` changes configuration registers only. -/
theorem setCfg_eq (s : State) (idx : Byte) (v : Half) :
    s.setCfg idx v = { s with
      cfgRepeatK := (s.setCfg idx v).cfgRepeatK, cfgBandFirst := (s.setCfg idx v).cfgBandFirst
      cfgBandCount := (s.setCfg idx v).cfgBandCount, cfgScanlineEmu := (s.setCfg idx v).cfgScanlineEmu
      cfgSampleRate := (s.setCfg idx v).cfgSampleRate } := by
  unfold State.setCfg
  split <;> rfl

theorem Effect.stays {i : Instr} {s u : State} (h : Effect i s u) : Stays s u := by
  have self : ∀ u : State, u.params = s.params → u.fault = s.fault → u.bus = s.bus → u.control = s.control →
      u.producer = s.producer → u.source = s.source → u.env = s.env → Stays s u :=
    fun u h₁ h₂ h₃ h₄ h₅ h₆ h₇ => ⟨h₁, h₂, h₃, h₄, h₅, h₆, fun p => by cases p <;> simp [State.issued, h₇], by rw [h₇], by rw [h₇]⟩
  cases i with
  | init mode =>
    obtain ⟨-, tt, -, rfl⟩ := h
    rw [initEffects_eq, setAudioValues_eq]
    exact ⟨rfl, rfl, rfl, rfl, rfl, rfl, fun p => by cases p <;> rfl, rfl, rfl⟩
  | registerIrq c => obtain ⟨-, -, rfl⟩ := h; exact self _ rfl rfl rfl rfl rfl rfl rfl
  | start =>
    obtain ⟨-, -, h⟩ := h
    rw [startEffects_eq] at h
    cases Except.ok.inj h
    rw [install_eq]
    exact ⟨rfl, rfl, rfl, rfl, rfl, rfl, fun p => by cases p <;> rfl, rfl, rfl⟩
  | stop =>
    obtain ⟨-, -, rfl⟩ | ⟨-, t, ht, rfl⟩ := h
    · exact self _ rfl rfl rfl rfl rfl rfl rfl
    · rw [stopSteps_ok ht]; exact self _ rfl rfl rfl rfl rfl rfl rfl
  | destroy =>
    obtain ⟨-, rfl⟩ | ⟨-, -, -, t, ht, rfl⟩ := h
    · exact self _ rfl rfl rfl rfl rfl rfl rfl
    · split at ht
      · rw [stopSteps_ok ht]; exact self _ rfl rfl rfl rfl rfl rfl rfl
      · cases Except.ok.inj ht; exact self _ rfl rfl rfl rfl rfl rfl rfl
  | writeCfg idx v => obtain ⟨-, rfl⟩ := h; exact setCfg_stays s idx v
  | acquireFreeBuffer => obtain ⟨-, _, _, -, rfl⟩ := h; exact self _ rfl rfl rfl rfl rfl rfl rfl
  | fillBuffer h' => obtain ⟨-, -, -, rfl⟩ := h; exact self _ rfl rfl rfl rfl rfl rfl rfl
  | submitValidBuffer h' tok => obtain ⟨-, -, -, rfl⟩ := h; exact self _ rfl rfl rfl rfl rfl rfl rfl
  | acquireFreeAudioSlot =>
    obtain ⟨-, rfl | ⟨_, _, -, -, rfl⟩⟩ := h <;> exact self _ rfl rfl rfl rfl rfl rfl rfl
  | submitAudioSamples => obtain ⟨-, _, _, _, -, rfl⟩ := h; exact self _ rfl rfl rfl rfl rfl rfl rfl
  | setAudioEnabled b => obtain ⟨-, -, rfl⟩ := h; exact self _ rfl rfl rfl rfl rfl rfl rfl
  | ringPush => obtain ⟨-, rfl⟩ := h; exact self _ rfl rfl rfl rfl rfl rfl rfl
  | ringWriteSlot k => obtain ⟨-, rfl⟩ := h; exact self _ rfl rfl rfl rfl rfl rfl rfl
  | ringAdvanceWrite n => obtain ⟨-, rfl⟩ := h; exact self _ rfl rfl rfl rfl rfl rfl rfl
  | ringAdvanceRead n => obtain ⟨-, rfl⟩ := h; exact self _ rfl rfl rfl rfl rfl rfl rfl
  | ringPopAvailable => cases h; exact self _ rfl rfl rfl rfl rfl rfl rfl
  | ringReadSlot k => cases h; exact self _ rfl rfl rfl rfl rfl rfl rfl
  | ringWriteSize => cases h; exact self _ rfl rfl rfl rfl rfl rfl rfl
  | readDiag sel => cases h; exact self _ rfl rfl rfl rfl rfl rfl rfl
  | tick => cases h

/-! ## TICK -/

/-- What `video_select` leaves, but for the counters and the buffers. -/
theorem videoCase_frame {s : State} {v : Selection} (h : VideoCase s v) :
    v.state = { s with
      lateCnt := v.state.lateCnt, errCnt := v.state.errCnt, freeq := v.state.freeq, validq := v.state.validq
      cur := v.state.cur, rel0 := v.state.rel0 } := by
  have end_ : ∀ (c : LineClass) (u : State), endGroup c u = { u with cur := (endGroup c u).cur, rel0 := (endGroup c u).rel0 } := by
    intro c u
    rw [endGroup_eq]
    split <;> rfl
  cases h with
  | sync _ hv => rw [hv]
  | porch _ hv => rw [hv]
  | blanked _ _ hv => rw [hv]; dsimp only; rw [end_]
  | held h _ _ _ hv => rw [hv]; dsimp only; rw [end_]
  | acquired h late rest _ _ _ _ _ _ _ hv => rw [hv]; dsimp only; rw [end_]
  | starved late rest _ _ _ _ _ _ hv => rw [hv]

/-- What `island_select` leaves, but for the pairs. -/
theorem islandSelect_frame {g : Bool} {s t : State} {isl : IslandSrc} (e : islandSelect g s = .ok (t, isl)) :
    t = { s with pfreeq := t.pfreeq, pvalidq := t.pvalidq } := by
  obtain ⟨rfl, -⟩ | ⟨p, rest, -, -, -, rfl⟩ := islandSelect_ok e <;> rfl

/-- A TICK that raises nothing, in closed form but for the buffers, the pairs, the counters and the memory. -/
theorem tickSteps_frame {s t : State} (e : tickSteps s = .ok t) :
    ∃ p, p.phase = (advance s).phase ∧ p.vctr = (advance s).vctr ∧ p.frame = (advance s).frame ∧
      t = { s with
            phase := (advance s).phase, vctr := (advance s).vctr, frame := (advance s).frame
            laneLine := s.prog, prog := some p, env := { s.env with trace := s.env.trace ++ [p] }
            lateCnt := t.lateCnt, errCnt := t.errCnt, freeq := t.freeq, validq := t.validq
            pfreeq := t.pfreeq, pvalidq := t.pvalidq, cur := t.cur, rel0 := t.rel0, rel1 := s.rel0
            mem := t.mem } := by
  obtain ⟨v, u, isl, hv, -, hi, rfl⟩ := tickSteps_closed e
  have h1 := videoCase_frame hv
  have h2 := islandSelect_frame hi
  refine ⟨programOf u v.template v.buf isl, ?_, ?_, ?_, ?_⟩
  · rw [h2, h1]; rfl
  · rw [h2, h1]; rfl
  · rw [h2, h1]; rfl
  · rw [install_eq]
    have h3 : u = { s with
        phase := (advance s).phase, vctr := (advance s).vctr, frame := (advance s).frame, laneLine := s.prog
        lateCnt := u.lateCnt, errCnt := u.errCnt, freeq := u.freeq, validq := u.validq
        pfreeq := u.pfreeq, pvalidq := u.pvalidq, cur := u.cur, rel0 := u.rel0, rel1 := s.rel0 } := by
      rw [h2, h1]; rfl
    generalize programOf u v.template v.buf isl = p
    generalize installMem v.template v.buf isl u = m
    rw [h3]

theorem tickSteps_stays {s t : State} (e : tickSteps s = .ok t) : Stays s t := by
  obtain ⟨p, -, -, -, h⟩ := tickSteps_frame e
  rw [h]
  exact ⟨rfl, rfl, rfl, rfl, rfl, rfl, fun p => by cases p <;> rfl, rfl, rfl⟩

end Sys2Proof.Machine
end

