-- ==== Sys2Proof/Laws/Templates.lean ====
section
/-! SUPPORT. The template memory: where a descriptor stands, what INIT builds there, and what a patch changes. -/

namespace Sys2Proof.Machine

/-! ## Folds of updates -/

/-- A fold keeps what every one of its updates keeps. -/
theorem foldl_keeps {α : Type} {f : State → α → State} {Q : State → Prop} {l : List α}
    (h : ∀ s, ∀ b ∈ l, Q s → Q (f s b)) {s : State} (hs : Q s) : Q (l.foldl f s) := by
  induction l generalizing s with
  | nil => exact hs
  | cons a rest ih =>
    exact ih (fun s b hb => h s b (List.mem_cons_of_mem _ hb)) (h s a (List.mem_cons_self ..) hs)

/-- What one update of a fold brings about and the others keep holds after the fold. -/
theorem foldl_written {α : Type} {f : State → α → State} {I Q : State → Prop} {a : α} {l : List α} (ha : a ∈ l)
    (hI : ∀ s b, I s → I (f s b)) (hQ : ∀ s, I s → Q (f s a)) (hK : ∀ s, ∀ b ∈ l, b ≠ a → I s → Q s → Q (f s b))
    {s : State} (hs : I s) : Q (l.foldl f s) := by
  obtain ⟨l₁, l₂, rfl⟩ := List.append_of_mem ha
  rw [List.foldl_append, List.foldl_cons]
  have h₁ : I (l₁.foldl f s) := foldl_keeps (fun s b _ => hI s b) hs
  refine (foldl_keeps (Q := fun s => I s ∧ Q s) (fun s b hb h => ⟨hI s b h.1, ?_⟩) ⟨hI _ _ h₁, hQ _ h₁⟩).2
  by_cases e : b = a
  · exact e ▸ hQ s h.1
  · exact hK s b (by simp [hb]) e h.1 h.2

/-! ## Where a descriptor stands -/

theorem Template.code_lt (t : Template) : t.code.toNat < 5 := by
  cases t <;> decide

theorem Template.code_inj {t t' : Template} (h : t.code.toNat = t'.code.toNat) : t = t' := by
  cases t <;> cases t' <;> first | rfl | exact absurd h (by decide)

theorem tplIndex_lt {p : Params} (t : Template) {l seg : Nat} (hl : l < p.l) (hs : seg < 4) :
    tplIndex p t l seg < 5 * p.l * 4 := by
  have := Nat.mul_le_mul_right p.l (Nat.succ_le_of_lt t.code_lt)
  rw [Nat.succ_mul] at this
  unfold tplIndex
  omega

theorem tplIndex_inj {p : Params} {t t' : Template} {l l' seg seg' : Nat} (hl : l < p.l) (hl' : l' < p.l) (hs : seg < 4)
    (hs' : seg' < 4) (h : tplIndex p t l seg = tplIndex p t' l' seg') : t = t' ∧ l = l' ∧ seg = seg' := by
  unfold tplIndex at h
  have h₁ : t.code.toNat * p.l + l = t'.code.toNat * p.l + l' ∧ seg = seg' := by omega
  have hc : t.code.toNat = t'.code.toNat := by
    rcases Nat.lt_trichotomy t.code.toNat t'.code.toNat with hc | hc | hc
    · have := Nat.mul_le_mul_right p.l (Nat.succ_le_of_lt hc)
      rw [Nat.succ_mul] at this; omega
    · exact hc
    · have := Nat.mul_le_mul_right p.l (Nat.succ_le_of_lt hc)
      rw [Nat.succ_mul] at this; omega
  exact ⟨Template.code_inj hc, by rw [hc] at h₁; omega, h₁.2⟩

/-- A 32-bit word written to the template memory reads back. -/
theorem tplWord_of_read {s : State} {t : Template} {l seg i : Nat} {w : Word}
    (h : s.read .tplmem (16 * tplIndex s.params t l seg + 4 * i) 4 = some w.toNat) : s.tplWord t l seg i = some w := by
  simp [State.tplWord, h]

theorem read_write_word (s : State) {o : MemObj} {off : Nat} (w : Word) (h : off + 4 ≤ objSize s.params o) :
    (s.write o off 4 w.toNat).read o off 4 = some w.toNat := by
  rw [State.read_write_self _ _ h, Nat.mod_eq_of_lt (show w.toNat < 256 ^ 4 from w.isLt)]

/-! ## What INIT builds -/

theorem writeDescriptor_eq (s : State) (t : Template) (l seg : Nat) (d : Descriptor) :
    writeDescriptor s t l seg d = { s with mem := (writeDescriptor s t l seg d).mem } :=
  foldl_mem _ (fun _ _ => rfl) _ s

theorem writeDescriptor_params (s : State) (t : Template) (l seg : Nat) (d : Descriptor) :
    (writeDescriptor s t l seg d).params = s.params := by
  rw [writeDescriptor_eq]

theorem writeDescriptor_tt (s : State) (t : Template) (l seg : Nat) (d : Descriptor) :
    (writeDescriptor s t l seg d).tt = s.tt := by
  rw [writeDescriptor_eq]

/-- A descriptor just written stands in its four words. -/
theorem tplWord_writeDescriptor_self (s : State) (t : Template) {l seg i : Nat} (d : Descriptor) (hl : l < s.params.l)
    (hs : seg < 4) (hi : i < 4) : (writeDescriptor s t l seg d).tplWord t l seg i = some (d.word i) := by
  refine tplWord_of_read ?_
  rw [writeDescriptor_params]
  have hb := tplIndex_lt t hl hs
  have key := foldl_written (l := List.range 4) (a := i) (s := s)
    (f := fun s i => s.write .tplmem (16 * tplIndex s.params t l seg + 4 * i) 4 (d.word i).toNat)
    (I := fun u => u.params = s.params)
    (Q := fun u => u.read .tplmem (16 * tplIndex s.params t l seg + 4 * i) 4 = some (d.word i).toNat)
    (List.mem_range.2 hi) (fun _ _ h => h) (fun u h => ?_) (fun u b _ hne h hu => ?_) rfl
  · exact key
  · rw [h]
    exact read_write_word _ _ (by simp only [objSize, h]; omega)
  · rw [h, State.read_write_outside u _ (by right; omega)]
    exact hu

/-- A descriptor written elsewhere leaves a descriptor's words. -/
theorem tplWord_writeDescriptor_other (s : State) {t t' : Template} {l l' seg seg' i : Nat} (d : Descriptor)
    (hi : i < 4) (h : tplIndex s.params t l seg ≠ tplIndex s.params t' l' seg') :
    (writeDescriptor s t l seg d).tplWord t' l' seg' i = s.tplWord t' l' seg' i := by
  have key := foldl_keeps (l := List.range 4)
    (f := fun s i => s.write .tplmem (16 * tplIndex s.params t l seg + 4 * i) 4 (d.word i).toNat) (s := s)
    (Q := fun u => u.params = s.params ∧ u.read .tplmem (16 * tplIndex s.params t' l' seg' + 4 * i) 4
      = s.read .tplmem (16 * tplIndex s.params t' l' seg' + 4 * i) 4) (fun u b hb' hu => ⟨hu.1, ?_⟩) ⟨rfl, rfl⟩
  · unfold State.tplWord
    rw [writeDescriptor_params]
    exact congrArg _ key.2
  · have := List.mem_range.1 hb'
    rw [hu.1, State.read_write_outside u _ (by right; omega)]
    exact hu.2

/-- One chain of a template. -/
def buildChain (t : Template) (l : Nat) (s : State) : State :=
  (List.range 4).foldl (fun s seg => writeDescriptor s t l seg (buildDescriptor s.params s.tt t l seg)) s

/-- One template. -/
def buildTemplate (t : Template) (s : State) : State :=
  (List.range s.params.l).foldl (fun s l => buildChain t l s) s

/-- What the building reads stays. -/
abbrev SameTable (s u : State) : Prop := u.params = s.params ∧ u.tt = s.tt

/-- The word INIT builds stands in its place. -/
abbrev Built (s : State) (t : Template) (l seg i : Nat) (u : State) : Prop :=
  u.tplWord t l seg i = some ((buildDescriptor s.params s.tt t l seg).word i)

theorem writeDescriptor_table {s u : State} (t : Template) (l seg : Nat) (d : Descriptor) (h : SameTable s u) :
    SameTable s (writeDescriptor u t l seg d) := by
  rw [SameTable, writeDescriptor_params, writeDescriptor_tt]
  exact h

theorem buildChain_table {s u : State} (t : Template) (l : Nat) (h : SameTable s u) : SameTable s (buildChain t l u) :=
  foldl_keeps (Q := SameTable s) (fun _ b _ hu => writeDescriptor_table t l b _ hu) h

theorem buildTemplate_table {s u : State} (t : Template) (h : SameTable s u) : SameTable s (buildTemplate t u) :=
  foldl_keeps (Q := SameTable s) (fun _ l _ hu => buildChain_table t l hu) h

section
variable {s : State} {t : Template} {l seg i : Nat} (hl : l < s.params.l) (hs : seg < 4) (hi : i < 4)
include hl hs hi

theorem writeDescriptor_built {u : State} {t' : Template} {l' b : Nat} (h : SameTable s u) (hl' : l' < s.params.l)
    (hb : b < 4) (hq : Built s t l seg i u ∨ (t', l', b) = (t, l, seg)) :
    Built s t l seg i (writeDescriptor u t' l' b (buildDescriptor u.params u.tt t' l' b)) := by
  by_cases e : (t', l', b) = (t, l, seg)
  · cases e
    rw [Built, tplWord_writeDescriptor_self u t _ (h.1 ▸ hl) hs hi, h.1, h.2]
  · rw [Built, tplWord_writeDescriptor_other u _ hi]
    · exact hq.resolve_right e
    · rw [h.1]
      intro c
      obtain ⟨rfl, rfl, rfl⟩ := tplIndex_inj hl' hl hb hs c
      exact e rfl

theorem buildChain_built {u : State} {t' : Template} {l' : Nat} (h : SameTable s u) (hl' : l' < s.params.l)
    (hq : Built s t l seg i u ∨ (t', l') = (t, l)) : Built s t l seg i (buildChain t' l' u) := by
  rcases hq with hq | e
  · exact (foldl_keeps (Q := fun u => SameTable s u ∧ Built s t l seg i u) (fun _ b hb hu =>
      ⟨writeDescriptor_table t' l' b _ hu.1,
        writeDescriptor_built hl hs hi hu.1 hl' (List.mem_range.1 hb) (.inl hu.2)⟩) ⟨h, hq⟩).2
  · cases e
    exact foldl_written (I := SameTable s) (Q := Built s t l seg i) (List.mem_range.2 hs)
      (fun _ b hu => writeDescriptor_table t l b _ hu)
      (fun u hu => writeDescriptor_built hl hs hi hu hl hs (.inr rfl))
      (fun u b hb _ hu hq => writeDescriptor_built hl hs hi hu hl (List.mem_range.1 hb) (.inl hq)) h

theorem buildTemplate_built {u : State} {t' : Template} (h : SameTable s u)
    (hq : Built s t l seg i u ∨ t' = t) : Built s t l seg i (buildTemplate t' u) := by
  have hm : ∀ {b}, b ∈ List.range u.params.l → b < s.params.l := fun hb => h.1 ▸ List.mem_range.1 hb
  rcases hq with hq | rfl
  · exact (foldl_keeps (Q := fun u => SameTable s u ∧ Built s t l seg i u) (fun _ b hb hu =>
      ⟨buildChain_table t' b hu.1, buildChain_built hl hs hi hu.1 (hm hb) (.inl hu.2)⟩) ⟨h, hq⟩).2
  · exact foldl_written (I := SameTable s) (Q := Built s t' l seg i) (List.mem_range.2 (h.1.symm ▸ hl))
      (fun u b hu => buildChain_table t' b hu) (fun u hu => buildChain_built hl hs hi hu hl (.inr rfl))
      (fun u b hb _ hu hq => buildChain_built hl hs hi hu (hm hb) (.inl hq)) h

/-- Every word of every descriptor INIT builds (R122). -/
theorem tplWord_buildTemplates :
    (buildTemplates s).tplWord t l seg i = some ((buildDescriptor s.params s.tt t l seg).word i) :=
  foldl_written (I := SameTable s) (Q := Built s t l seg i) (f := fun u t => buildTemplate t u) (l := allTemplates)
    (by cases t <;> decide) (fun u t' hu => buildTemplate_table t' hu)
    (fun u hu => buildTemplate_built hl hs hi hu (.inr rfl))
    (fun u t' _ _ hu hq => buildTemplate_built hl hs hi hu (.inl hq)) ⟨rfl, rfl⟩

end

/-! ## Patches -/

@[simp] theorem patchSrc_params (s : State) (t : Template) (l seg : Nat) (a : Word) :
    (patchSrc s t l seg a).params = s.params := rfl

/-- A patched source field holds its address. -/
theorem tplWord_patchSrc_self {s : State} (t : Template) {l seg : Nat} (a : Word) (hl : l < s.params.l) (hs : seg < 4) :
    (patchSrc s t l seg a).tplWord t l seg 0 = some a :=
  tplWord_of_read (read_write_word s a (by have := tplIndex_lt t hl hs; simp only [objSize]; omega))

/-- A patch changes no byte outside its field. -/
theorem byteAt_patchSrc {s : State} {t : Template} {l seg : Nat} {a : Word} {o : MemObj} {off : Nat}
    (h : ¬ (o = .tplmem ∧ 16 * tplIndex s.params t l seg ≤ off ∧ off < 16 * tplIndex s.params t l seg + 4)) :
    (patchSrc s t l seg a).byteAt o off = s.byteAt o off := by
  refine s.byteAt_write_outside _ ?_
  by_cases e : o = .tplmem
  · have : ¬ (16 * tplIndex s.params t l seg ≤ off ∧ off < 16 * tplIndex s.params t l seg + 4) := fun c => h ⟨e, c⟩
    omega
  · exact .inl e

/-- A patch of another descriptor leaves a source field. -/
theorem tplWord_patchSrc_other {s : State} {t t' : Template} {l l' seg seg' : Nat} {a : Word}
    (h : tplIndex s.params t l seg ≠ tplIndex s.params t' l' seg') :
    (patchSrc s t l seg a).tplWord t' l' seg' 0 = s.tplWord t' l' seg' 0 := by
  unfold State.tplWord
  rw [patchSrc_params]
  refine congrArg _ (State.read_eq_of_byteAt rfl fun x h₁ h₂ => byteAt_patchSrc ?_)
  omega

theorem patchIsland_params (t : Template) (isl : IslandSrc) (s : State) : (patchIsland t isl s).params = s.params := by
  rw [patchIsland_eq]

theorem patchActive_params (h : Handle) (s : State) : (patchActive h s).params = s.params := by
  rw [patchActive_eq]

/-- The island source of every lane after `patch_island` (R124). -/
theorem tplWord_patchIsland_self (t : Template) (isl : IslandSrc) {s : State} {l : Nat} (hl : l < s.params.l) :
    (patchIsland t isl s).tplWord t l 1 0 = some (islandAddr s.params isl l) := by
  unfold patchIsland
  refine foldl_written (I := fun u => u.params = s.params)
    (Q := fun u => u.tplWord t l 1 0 = some (islandAddr s.params isl l)) (List.mem_range.2 hl) ?_
    (fun u h => ?_) (fun u b hb hne h hu => ?_) rfl
  · exact fun _ _ h => h
  · rw [tplWord_patchSrc_self _ _ (h.symm ▸ hl) (by omega), h]
    rfl
  · rw [tplWord_patchSrc_other]
    · exact hu
    · rw [h]
      exact fun c => hne (tplIndex_inj (List.mem_range.1 hb) hl (by omega) (by omega) c).2.1

/-- `patch_island` changes no byte outside the island-source fields of its template. -/
theorem byteAt_patchIsland {t : Template} {isl : IslandSrc} {s : State} {o : MemObj} {off : Nat}
    (h : ¬ inIslandField s.params t o off) : (patchIsland t isl s).byteAt o off = s.byteAt o off := by
  unfold patchIsland
  refine (foldl_keeps (Q := fun u => u.params = s.params ∧ u.byteAt o off = s.byteAt o off)
    (fun u b hb hu => ?_) ⟨rfl, rfl⟩).2
  refine ⟨hu.1, ?_⟩
  rw [byteAt_patchSrc]
  · exact hu.2
  · rw [hu.1]
    exact fun c => h ⟨c.1, b, List.mem_range.1 hb, c.2⟩

/-- `patch_island` leaves every other source field. -/
theorem tplWord_patchIsland_other {t t' : Template} {isl : IslandSrc} {s : State} {l seg : Nat} (hl : l < s.params.l)
    (hs : seg < 4) (h : seg ≠ 1) : (patchIsland t isl s).tplWord t' l seg 0 = s.tplWord t' l seg 0 := by
  unfold State.tplWord
  rw [patchIsland_params]
  refine congrArg _ (State.read_eq_of_byteAt (patchIsland_params ..) fun x h₁ h₂ =>
    byteAt_patchIsland ?_)
  rintro ⟨-, b, hb', h₃, h₄⟩
  exact h (tplIndex_inj (p := s.params) (t := t') (t' := t) hl hb' hs (by omega) (by omega)).2.2

theorem pictureLanes_eq (p : Params) : pictureLanes p = List.range' 1 (p.l - 1) := by
  unfold pictureLanes Config.syncLane
  cases p.l with
  | zero => rfl
  | succ n =>
    rw [List.range_eq_range', List.range'_succ, List.filter_cons]
    simp only [ne_eq, decide_not, Nat.zero_add, decide_true, Bool.not_true, Bool.false_eq_true, if_false, Nat.add_sub_cancel]
    refine List.filter_eq_self.2 fun a ha => ?_
    have := (List.mem_range'_1.1 ha).1
    simp; omega

/-- The picture lanes with their places: lane `j + 1` is the `j`-th. -/
theorem mem_pictureLanes {p : Params} {lj : Nat × Nat} :
    lj ∈ (pictureLanes p).zipIdx ↔ lj.1 = lj.2 + 1 ∧ lj.1 < p.l := by
  rw [pictureLanes_eq]
  obtain ⟨l, j⟩ := lj
  rw [List.mem_zipIdx_iff_getElem?]
  simp only [List.getElem?_eq_some_iff, List.getElem_range', List.length_range']
  constructor
  · rintro ⟨h, rfl⟩
    omega
  · rintro ⟨rfl, h⟩
    exact ⟨by omega, by omega⟩

/-- The active source of every picture lane after `patch_active` (R124). -/
theorem tplWord_patchActive_self (h : Handle) {s : State} {l : Nat} (h₀ : 0 < l) (hl : l < s.params.l) :
    (patchActive h s).tplWord .active l 3 0 = some (Config.addr (.buf h) ((l - 1) * s.params.laneStride)) := by
  unfold patchActive
  refine foldl_written (I := fun u => u.params = s.params) (a := (l, l - 1))
    (Q := fun u => u.tplWord .active l 3 0 = some (Config.addr (.buf h) ((l - 1) * s.params.laneStride)))
    (mem_pictureLanes.2 ⟨by dsimp only; omega, hl⟩) ?_
    (fun u hu => ?_) (fun u b hb hne hi hu => ?_) rfl
  · exact fun _ _ h => h
  · rw [tplWord_patchSrc_self _ _ (hu.symm ▸ hl) (by omega), hu]
  · rw [tplWord_patchSrc_other]
    · exact hu
    · rw [hi]
      intro c
      have hb := mem_pictureLanes.1 hb
      have := (tplIndex_inj hb.2 hl (by omega) (by omega) c).2.1
      exact hne (Prod.ext this (by dsimp only; omega))

/-- `patch_active` changes no byte outside the active-source fields. -/
theorem byteAt_patchActive {h : Handle} {s : State} {o : MemObj} {off : Nat} (hn : ¬ inActiveField s.params o off) :
    (patchActive h s).byteAt o off = s.byteAt o off := by
  unfold patchActive
  refine (foldl_keeps (Q := fun u => u.params = s.params ∧ u.byteAt o off = s.byteAt o off)
    (fun u b hb hu => ?_) ⟨rfl, rfl⟩).2
  refine ⟨hu.1, ?_⟩
  rw [byteAt_patchSrc]
  · exact hu.2
  · rw [hu.1]
    have hb := mem_pictureLanes.1 hb
    exact fun c => hn ⟨c.1, b.1, by omega, hb.2, c.2⟩

/-! ## Install -/

/-- The island source of every lane of the template installed (R124, R132). -/
theorem tplWord_install_island (t : Template) (buf : Option Handle) (isl : IslandSrc) {s : State} {l : Nat}
    (hl : l < s.params.l) : (install t buf isl s).tplWord t l 1 0 = some (islandAddr s.params isl l) := by
  cases buf with
  | none => exact tplWord_patchIsland_self t isl hl
  | some h =>
    have e := tplWord_patchIsland_self t isl (s := patchActive h s) (l := l) (by rwa [patchActive_params])
    rw [patchActive_params] at e
    exact e

/-- The active source of every picture lane where a buffer is installed (R124, R132). -/
theorem tplWord_install_active (t : Template) (h : Handle) (isl : IslandSrc) {s : State} {l : Nat} (h₀ : 0 < l)
    (hl : l < s.params.l) : (install t (some h) isl s).tplWord .active l 3 0
      = some (Config.addr (.buf h) ((l - 1) * s.params.laneStride)) := by
  have e := tplWord_patchIsland_other (t := t) (t' := .active) (isl := isl) (s := patchActive h s) (l := l) (seg := 3)
    (by rwa [patchActive_params]) (by omega) (by omega)
  exact e.trans (tplWord_patchActive_self h h₀ hl)

/-- An install changes no byte outside the fields it patches. -/
theorem byteAt_install {t : Template} {buf : Option Handle} {isl : IslandSrc} {s : State} {o : MemObj} {off : Nat}
    (h₁ : ¬ inIslandField s.params t o off) (h₂ : buf = none ∨ ¬ inActiveField s.params o off) :
    (install t buf isl s).byteAt o off = s.byteAt o off := by
  cases buf with
  | none => exact byteAt_patchIsland h₁
  | some h =>
    have e := byteAt_patchIsland (t := t) (isl := isl) (s := patchActive h s) (o := o) (off := off)
      (by rwa [patchActive_params])
    exact e.trans (byteAt_patchActive (h₂.resolve_left (fun c => by cases c)))

end Sys2Proof.Machine
end

