-- ==== Sys2Proof/Laws/Streams.lean ====
section
/-! SUPPORT. The island streams: those INIT encodes into `STATIC`, and those a submit encodes into a pair; and the
canonical form of the memory under the operations that write it. -/

namespace Sys2Proof.Machine

/-! ## Static streams -/

theorem StaticId.index_lt (i : StaticId) : i.index < 5 := by
  cases i with
  | null pol => cases pol <;> decide
  | _ => decide

theorem StaticId.index_inj {i j : StaticId} (h : i.index = j.index) : i = j := by
  cases i with
  | null p => cases j with
    | null q => cases p <;> cases q <;> first | rfl | exact absurd h (by decide)
    | _ => cases p <;> exact absurd h (by decide)
  | _ => cases j with
    | null q => cases q <;> exact absurd h (by decide)
    | _ => first | rfl | exact absurd h (by decide)

/-- Streams at different places do not overlap. -/
theorem place_apart {a b n : Nat} (h : a ≠ b) : a * n + n ≤ b * n ∨ b * n + n ≤ a * n := by
  rcases Nat.lt_or_gt_of_ne h with h | h
  · left; have := Nat.mul_le_mul_right n (Nat.succ_le_of_lt h); rwa [Nat.succ_mul] at this
  · right; have := Nat.mul_le_mul_right n (Nat.succ_le_of_lt h); rwa [Nat.succ_mul] at this

theorem place_fits {a b n : Nat} (h : a < b) : a * n + n ≤ b * n := by
  have := Nat.mul_le_mul_right n (Nat.succ_le_of_lt h); rwa [Nat.succ_mul] at this

theorem staticStream_setStatic_self (s : State) (i : StaticId) (v : Nat) :
    (s.setStatic i v).staticStream i = some (v % 256 ^ streamBytes s.params) :=
  State.read_write_self s v (place_fits i.index_lt)

theorem staticStream_setStatic_other (s : State) {i j : StaticId} (v : Nat) (h : j ≠ i) :
    (s.setStatic i v).staticStream j = s.staticStream j := by
  exact State.read_write_outside s v (.inr (place_apart fun c => h (StaticId.index_inj c)))

theorem byteAt_setStatic_outside (s : State) {i : StaticId} (v : Nat) {o : MemObj} {off : Nat}
    (h : o ≠ .static ∨ (i.index + 1) * streamBytes s.params ≤ off) : (s.setStatic i v).byteAt o off = s.byteAt o off := by
  refine State.byteAt_write_outside s v ?_
  rcases h with h | h
  · exact .inl h
  · rw [Nat.succ_mul] at h
    exact .inr (.inr h)

/-- The static streams after INIT has encoded them (R176 to R178). -/
theorem staticStream_buildStreams (s : State) :
    (∀ pol, (buildStreams s).staticStream (.null pol)
      = some (encodeIsland s.params s.tt nullPacket pol % 256 ^ streamBytes s.params)) ∧
    (buildStreams s).staticStream .avi
      = some (encodeIsland s.params s.tt (aviPacket s.params) false % 256 ^ streamBytes s.params) ∧
    (buildStreams s).staticStream .ainfo
      = some (encodeIsland s.params s.tt (ainfoPacket s.params) false % 256 ^ streamBytes s.params) ∧
    (s.audioOk = true → (buildStreams s).staticStream .acr
      = some (encodeIsland s.params s.tt (acrPacket s.params s.cts s.nval) false % 256 ^ streamBytes s.params)) := by
  have p1 : ∀ (u : State) (i : StaticId) (v : Nat), (u.setStatic i v).params = u.params := fun _ _ _ => rfl
  unfold buildStreams
  dsimp only
  refine ⟨fun pol => ?_, ?_, ?_, fun h => ?_⟩
  · split <;> cases pol <;>
      simp only [staticStream_setStatic_other, ne_eq, reduceCtorEq, not_false_eq_true, StaticId.null.injEq,
        Bool.false_eq_true, staticStream_setStatic_self, p1]
  · split <;>
      simp only [staticStream_setStatic_other, ne_eq, reduceCtorEq, not_false_eq_true, staticStream_setStatic_self, p1]
  · split <;>
      simp only [staticStream_setStatic_other, ne_eq, reduceCtorEq, not_false_eq_true, staticStream_setStatic_self, p1]
  · simp only [if_pos h, staticStream_setStatic_self, p1]

/-- What the encoding of the static streams does not touch. -/
theorem byteAt_buildStreams (s : State) {o : MemObj} {off : Nat}
    (h : o ≠ .static ∨ (s.audioOk = false ∧ 4 * streamBytes s.params ≤ off)) :
    (buildStreams s).byteAt o off = s.byteAt o off := by
  have p1 : ∀ (u : State) (i : StaticId) (v : Nat), (u.setStatic i v).params = u.params := fun _ _ _ => rfl
  have key : ∀ (u : State) (i : StaticId) (v : Nat), u.params = s.params → (i ≠ .acr ∨ o ≠ .static) →
      (u.setStatic i v).byteAt o off = u.byteAt o off := by
    intro u i v hu hi
    refine byteAt_setStatic_outside u v ?_
    rcases h with h | ⟨-, h⟩
    · exact .inl h
    · rcases hi with hi | hi
      · have : i.index + 1 ≤ 4 := by
          have := i.index_lt
          have : i.index ≠ 4 := fun c => hi (StaticId.index_inj c)
          omega
        have := Nat.mul_le_mul_right (streamBytes u.params) this
        rw [hu] at this ⊢
        right; omega
      · exact .inl hi
  unfold buildStreams
  dsimp only
  split
  · rename_i ha
    have ho : o ≠ .static := h.resolve_right (fun c => by rw [ha] at c; cases c.1)
    iterate 5 refine (key _ _ _ (by simp only [p1]) (.inr ho)).trans ?_
    rfl
  · iterate 4 refine (key _ _ _ (by simp only [p1]) (.inl (by decide))).trans ?_
    rfl

/-- The building of the templates touches the template memory only. -/
theorem byteAt_buildTemplates (s : State) {o : MemObj} {off : Nat} (h : o ≠ .tplmem) :
    (buildTemplates s).byteAt o off = s.byteAt o off := by
  have w : ∀ (u : State) (t : Template) (l seg : Nat) (d : Descriptor),
      (writeDescriptor u t l seg d).byteAt o off = u.byteAt o off := by
    intro u t l seg d
    exact foldl_keeps (l := List.range 4) (s := u)
      (f := fun s i => s.write .tplmem (16 * tplIndex s.params t l seg + 4 * i) 4 (d.word i).toNat)
      (Q := fun v => v.byteAt o off = u.byteAt o off)
      (fun v b _ hv => (State.byteAt_write_outside v _ (.inl h)).trans hv) rfl
  have c : ∀ (u : State) (t : Template) (l : Nat), (buildChain t l u).byteAt o off = u.byteAt o off := fun u t l =>
    foldl_keeps (Q := fun v => v.byteAt o off = u.byteAt o off) (fun v b _ hv => (w v t l b _).trans hv) rfl
  have t : ∀ (u : State) (t : Template), (buildTemplate t u).byteAt o off = u.byteAt o off := fun u t =>
    foldl_keeps (Q := fun v => v.byteAt o off = u.byteAt o off) (fun v l _ hv => (c v t l).trans hv) rfl
  exact foldl_keeps (f := fun u t => buildTemplate t u) (Q := fun v => v.byteAt o off = s.byteAt o off)
    (fun v t' _ hv => (t v t').trans hv) rfl

/-- The words INIT builds stay when the streams are encoded. -/
theorem tplWord_buildStreams (s : State) (t : Template) (l seg i : Nat) :
    (buildStreams s).tplWord t l seg i = s.tplWord t l seg i := by
  have hp : (buildStreams s).params = s.params := by rw [buildStreams_eq]
  unfold State.tplWord
  rw [hp]
  exact congrArg _ (State.read_eq_of_byteAt hp fun x _ _ =>
    byteAt_buildStreams s (.inl (by decide)))

/-! ## Encodings of a pair -/

theorem setEnc_fits (p : Params) (q : Handle) (pol : Bool) :
    pol.toNat * streamBytes p + streamBytes p ≤ objSize p (.pair q) := by
  cases pol <;> simp only [objSize, Bool.toNat_true, Bool.toNat_false] <;> omega

theorem enc_setEnc_self (s : State) (p : Handle) (pol : Bool) (v : Nat) :
    (s.setEnc p pol v).enc p pol = some (v % 256 ^ streamBytes s.params) :=
  State.read_write_self s v (setEnc_fits s.params p pol)

theorem enc_setEnc_other (s : State) (p : Handle) {pol pol' : Bool} (v : Nat) (h : pol' ≠ pol) :
    (s.setEnc p pol v).enc p pol' = s.enc p pol' :=
  State.read_write_outside s v (.inr (place_apart (by cases pol <;> cases pol' <;> simp_all)))

theorem byteAt_setEnc_other (s : State) {p : Handle} {pol : Bool} (v : Nat) {o : MemObj} {off : Nat} (h : o ≠ .pair p) :
    (s.setEnc p pol v).byteAt o off = s.byteAt o off :=
  State.byteAt_write_outside s v (.inl h)

/-- Both encodings of a pair after a submit (R185). -/
theorem enc_encodePair (s : State) (p : Handle) (bytes : List Byte) (pol : Bool) :
    (encodePair s p bytes).enc p pol
      = some (encodeIsland s.params s.tt bytes pol % 256 ^ streamBytes s.params) := by
  unfold encodePair
  cases pol
  · rw [enc_setEnc_other _ _ _ (by decide), enc_setEnc_self]
  · rw [enc_setEnc_self]
    rfl

/-- A submit writes its pair only. -/
theorem byteAt_encodePair (s : State) {p : Handle} (bytes : List Byte) {o : MemObj} {off : Nat} (h : o ≠ .pair p) :
    (encodePair s p bytes).byteAt o off = s.byteAt o off := by
  unfold encodePair
  rw [byteAt_setEnc_other _ _ h, byteAt_setEnc_other _ _ h]

/-! ## The canonical form -/

/-- A fold of updates that keep the canonical form keeps it. -/
theorem foldl_wf {α : Type} {f : State → α → State} {l : List α} (h : ∀ s b, s.mem.wf → (f s b).mem.wf) {s : State}
    (hs : s.mem.wf) : (l.foldl f s).mem.wf :=
  foldl_keeps (Q := fun s => s.mem.wf) (fun s b _ => h s b) hs

theorem patchIsland_wf (t : Template) (isl : IslandSrc) {s : State} (h : s.mem.wf) : (patchIsland t isl s).mem.wf :=
  foldl_wf (fun _ _ hs => State.write_wf _ _ _ _ hs) h

theorem patchActive_wf (x : Handle) {s : State} (h : s.mem.wf) : (patchActive x s).mem.wf :=
  foldl_wf (fun _ _ hs => State.write_wf _ _ _ _ hs) h

theorem install_wf (t : Template) (buf : Option Handle) (isl : IslandSrc) {s : State} (h : s.mem.wf) :
    (install t buf isl s).mem.wf := by
  cases buf with
  | none => exact patchIsland_wf _ _ h
  | some x => exact patchIsland_wf _ _ (patchActive_wf _ h)

theorem buildTemplates_wf {s : State} (h : s.mem.wf) : (buildTemplates s).mem.wf :=
  foldl_wf (fun _ _ hs => foldl_wf (fun _ _ hs => foldl_wf (fun _ _ hs =>
    foldl_wf (fun _ _ hs => State.write_wf _ _ _ _ hs) hs) hs) hs) h

theorem buildStreams_wf {s : State} (h : s.mem.wf) : (buildStreams s).mem.wf := by
  unfold buildStreams
  dsimp only
  split <;> repeat (first | exact h | apply State.write_wf)

end Sys2Proof.Machine
end

