-- ==== Sys2Proof/Laws/Views.lean ====
section
/-! SUPPORT. The views of the state (bytes, words, streams, tokens, sizes) under the updates that leave what they read. -/

namespace Sys2Proof.Machine

/-! ## `reply` -/

@[simp] theorem State.reply_byteAt (s : State) (st : Status) (v : Word) (o : MemObj) (off : Nat) :
    (s.reply st v).byteAt o off = s.byteAt o off := by
  unfold State.byteAt; simp

@[simp] theorem State.reply_read (s : State) (st : Status) (v : Word) (o : MemObj) (off n : Nat) :
    (s.reply st v).read o off n = s.read o off n := by
  unfold State.read; simp

@[simp] theorem State.reply_ringSlot (s : State) (st : Status) (v : Word) (i : Half) :
    (s.reply st v).ringSlot i = s.ringSlot i := by
  unfold State.ringSlot State.read; simp

@[simp] theorem State.reply_tplWord (s : State) (st : Status) (v : Word) (t : Template) (l seg i : Nat) :
    (s.reply st v).tplWord t l seg i = s.tplWord t l seg i := by
  unfold State.tplWord State.read; simp

@[simp] theorem State.reply_staticStream (s : State) (st : Status) (v : Word) (i : StaticId) :
    (s.reply st v).staticStream i = s.staticStream i := by
  unfold State.staticStream State.read; simp

@[simp] theorem State.reply_enc (s : State) (st : Status) (v : Word) (q : Handle) (pol : Bool) :
    (s.reply st v).enc q pol = s.enc q pol := by
  unfold State.enc State.read; simp

@[simp] theorem State.reply_content (s : State) (st : Status) (v : Word) (h : Handle) :
    (s.reply st v).content h = s.content h := by
  unfold State.content State.read; simp

@[simp] theorem State.reply_tokenOf (s : State) (st : Status) (v : Word) (h : Handle) :
    (s.reply st v).tokenOf h = s.tokenOf h := by
  unfold State.tokenOf; simp

@[simp] theorem State.reply_isFilled (s : State) (st : Status) (v : Word) (h : Handle) :
    (s.reply st v).isFilled h = s.isFilled h := by
  unfold State.isFilled; simp

@[simp] theorem State.reply_readSize (s : State) (st : Status) (v : Word) :
    (s.reply st v).readSize = s.readSize := by
  unfold State.readSize; simp

@[simp] theorem State.reply_writeSize (s : State) (st : Status) (v : Word) :
    (s.reply st v).writeSize = s.writeSize := by
  unfold State.writeSize; simp

@[simp] theorem State.reply_aSrc (s : State) (st : Status) (v : Word) :
    (s.reply st v).aSrc = s.aSrc := by
  unfold State.aSrc State.bandLen; simp

/-! ## `hold` -/

@[simp] theorem State.hold_byteAt (s : State) (o : MemObj) (off : Nat) :
    s.hold.byteAt o off = s.byteAt o off := by
  unfold State.byteAt; simp

@[simp] theorem State.hold_read (s : State) (o : MemObj) (off n : Nat) :
    s.hold.read o off n = s.read o off n := by
  unfold State.read; simp

@[simp] theorem State.hold_ringSlot (s : State) (i : Half) :
    s.hold.ringSlot i = s.ringSlot i := by
  unfold State.ringSlot State.read; simp

@[simp] theorem State.hold_tplWord (s : State) (t : Template) (l seg i : Nat) :
    s.hold.tplWord t l seg i = s.tplWord t l seg i := by
  unfold State.tplWord State.read; simp

@[simp] theorem State.hold_staticStream (s : State) (i : StaticId) :
    s.hold.staticStream i = s.staticStream i := by
  unfold State.staticStream State.read; simp

@[simp] theorem State.hold_enc (s : State) (q : Handle) (pol : Bool) :
    s.hold.enc q pol = s.enc q pol := by
  unfold State.enc State.read; simp

@[simp] theorem State.hold_content (s : State) (h : Handle) :
    s.hold.content h = s.content h := by
  unfold State.content State.read; simp

@[simp] theorem State.hold_tokenOf (s : State) (h : Handle) :
    s.hold.tokenOf h = s.tokenOf h := by
  unfold State.tokenOf; simp

@[simp] theorem State.hold_isFilled (s : State) (h : Handle) :
    s.hold.isFilled h = s.isFilled h := by
  unfold State.isFilled; simp

@[simp] theorem State.hold_readSize (s : State) :
    s.hold.readSize = s.readSize := by
  unfold State.readSize; simp

@[simp] theorem State.hold_writeSize (s : State) :
    s.hold.writeSize = s.writeSize := by
  unfold State.writeSize; simp

@[simp] theorem State.hold_aSrc (s : State) :
    s.hold.aSrc = s.aSrc := by
  unfold State.aSrc State.bandLen; simp

/-! ## `raise` -/

@[simp] theorem State.raise_byteAt (s : State) (c : FaultCode) (o : MemObj) (off : Nat) :
    (s.raise c).byteAt o off = s.byteAt o off := by
  unfold State.byteAt; simp

@[simp] theorem State.raise_read (s : State) (c : FaultCode) (o : MemObj) (off n : Nat) :
    (s.raise c).read o off n = s.read o off n := by
  unfold State.read; simp

@[simp] theorem State.raise_ringSlot (s : State) (c : FaultCode) (i : Half) :
    (s.raise c).ringSlot i = s.ringSlot i := by
  unfold State.ringSlot State.read; simp

@[simp] theorem State.raise_tplWord (s : State) (c : FaultCode) (t : Template) (l seg i : Nat) :
    (s.raise c).tplWord t l seg i = s.tplWord t l seg i := by
  unfold State.tplWord State.read; simp

@[simp] theorem State.raise_staticStream (s : State) (c : FaultCode) (i : StaticId) :
    (s.raise c).staticStream i = s.staticStream i := by
  unfold State.staticStream State.read; simp

@[simp] theorem State.raise_enc (s : State) (c : FaultCode) (q : Handle) (pol : Bool) :
    (s.raise c).enc q pol = s.enc q pol := by
  unfold State.enc State.read; simp

@[simp] theorem State.raise_content (s : State) (c : FaultCode) (h : Handle) :
    (s.raise c).content h = s.content h := by
  unfold State.content State.read; simp

@[simp] theorem State.raise_tokenOf (s : State) (c : FaultCode) (h : Handle) :
    (s.raise c).tokenOf h = s.tokenOf h := by
  unfold State.tokenOf; simp

@[simp] theorem State.raise_isFilled (s : State) (c : FaultCode) (h : Handle) :
    (s.raise c).isFilled h = s.isFilled h := by
  unfold State.isFilled; simp

@[simp] theorem State.raise_readSize (s : State) (c : FaultCode) :
    (s.raise c).readSize = s.readSize := by
  unfold State.readSize; simp

@[simp] theorem State.raise_writeSize (s : State) (c : FaultCode) :
    (s.raise c).writeSize = s.writeSize := by
  unfold State.writeSize; simp

@[simp] theorem State.raise_aSrc (s : State) (c : FaultCode) :
    (s.raise c).aSrc = s.aSrc := by
  unfold State.aSrc State.bandLen; simp

/-! ## `halt` -/

@[simp] theorem State.halt_byteAt (s : State) (c : FaultCode) (o : MemObj) (off : Nat) :
    (s.halt c).byteAt o off = s.byteAt o off := rfl

@[simp] theorem State.halt_read (s : State) (c : FaultCode) (o : MemObj) (off n : Nat) :
    (s.halt c).read o off n = s.read o off n := rfl

@[simp] theorem State.halt_ringSlot (s : State) (c : FaultCode) (i : Half) :
    (s.halt c).ringSlot i = s.ringSlot i := rfl

@[simp] theorem State.halt_tplWord (s : State) (c : FaultCode) (t : Template) (l seg i : Nat) :
    (s.halt c).tplWord t l seg i = s.tplWord t l seg i := rfl

@[simp] theorem State.halt_staticStream (s : State) (c : FaultCode) (i : StaticId) :
    (s.halt c).staticStream i = s.staticStream i := rfl

@[simp] theorem State.halt_enc (s : State) (c : FaultCode) (q : Handle) (pol : Bool) :
    (s.halt c).enc q pol = s.enc q pol := rfl

@[simp] theorem State.halt_content (s : State) (c : FaultCode) (h : Handle) :
    (s.halt c).content h = s.content h := rfl

@[simp] theorem State.halt_tokenOf (s : State) (c : FaultCode) (h : Handle) :
    (s.halt c).tokenOf h = s.tokenOf h := rfl

@[simp] theorem State.halt_isFilled (s : State) (c : FaultCode) (h : Handle) :
    (s.halt c).isFilled h = s.isFilled h := rfl

@[simp] theorem State.halt_readSize (s : State) (c : FaultCode) :
    (s.halt c).readSize = s.readSize := rfl

@[simp] theorem State.halt_writeSize (s : State) (c : FaultCode) :
    (s.halt c).writeSize = s.writeSize := rfl

@[simp] theorem State.halt_aSrc (s : State) (c : FaultCode) :
    (s.halt c).aSrc = s.aSrc := rfl

/-! ## `latch` -/

@[simp] theorem State.latch_byteAt (s : State) (p : PortId) (c : Command) (o : MemObj) (off : Nat) :
    (s.latch p c).byteAt o off = s.byteAt o off := by
  unfold State.byteAt; simp

@[simp] theorem State.latch_read (s : State) (p : PortId) (c : Command) (o : MemObj) (off n : Nat) :
    (s.latch p c).read o off n = s.read o off n := by
  unfold State.read; simp

@[simp] theorem State.latch_ringSlot (s : State) (p : PortId) (c : Command) (i : Half) :
    (s.latch p c).ringSlot i = s.ringSlot i := by
  unfold State.ringSlot State.read; simp

@[simp] theorem State.latch_tplWord (s : State) (p : PortId) (c : Command) (t : Template) (l seg i : Nat) :
    (s.latch p c).tplWord t l seg i = s.tplWord t l seg i := by
  unfold State.tplWord State.read; simp

@[simp] theorem State.latch_staticStream (s : State) (p : PortId) (c : Command) (i : StaticId) :
    (s.latch p c).staticStream i = s.staticStream i := by
  unfold State.staticStream State.read; simp

@[simp] theorem State.latch_enc (s : State) (p : PortId) (c : Command) (q : Handle) (pol : Bool) :
    (s.latch p c).enc q pol = s.enc q pol := by
  unfold State.enc State.read; simp

@[simp] theorem State.latch_content (s : State) (p : PortId) (c : Command) (h : Handle) :
    (s.latch p c).content h = s.content h := by
  unfold State.content State.read; simp

@[simp] theorem State.latch_tokenOf (s : State) (p : PortId) (c : Command) (h : Handle) :
    (s.latch p c).tokenOf h = s.tokenOf h := by
  unfold State.tokenOf; simp

@[simp] theorem State.latch_isFilled (s : State) (p : PortId) (c : Command) (h : Handle) :
    (s.latch p c).isFilled h = s.isFilled h := by
  unfold State.isFilled; simp

@[simp] theorem State.latch_readSize (s : State) (p : PortId) (c : Command) :
    (s.latch p c).readSize = s.readSize := by
  unfold State.readSize; simp

@[simp] theorem State.latch_writeSize (s : State) (p : PortId) (c : Command) :
    (s.latch p c).writeSize = s.writeSize := by
  unfold State.writeSize; simp

@[simp] theorem State.latch_aSrc (s : State) (p : PortId) (c : Command) :
    (s.latch p c).aSrc = s.aSrc := by
  unfold State.aSrc State.bandLen; simp

/-! ## `takeTurn` -/

@[simp] theorem State.takeTurn_byteAt (s : State) (o : MemObj) (off : Nat) :
    s.takeTurn.byteAt o off = s.byteAt o off := rfl

@[simp] theorem State.takeTurn_read (s : State) (o : MemObj) (off n : Nat) :
    s.takeTurn.read o off n = s.read o off n := rfl

@[simp] theorem State.takeTurn_ringSlot (s : State) (i : Half) :
    s.takeTurn.ringSlot i = s.ringSlot i := rfl

@[simp] theorem State.takeTurn_tplWord (s : State) (t : Template) (l seg i : Nat) :
    s.takeTurn.tplWord t l seg i = s.tplWord t l seg i := rfl

@[simp] theorem State.takeTurn_staticStream (s : State) (i : StaticId) :
    s.takeTurn.staticStream i = s.staticStream i := rfl

@[simp] theorem State.takeTurn_enc (s : State) (q : Handle) (pol : Bool) :
    s.takeTurn.enc q pol = s.enc q pol := rfl

@[simp] theorem State.takeTurn_content (s : State) (h : Handle) :
    s.takeTurn.content h = s.content h := rfl

@[simp] theorem State.takeTurn_tokenOf (s : State) (h : Handle) :
    s.takeTurn.tokenOf h = s.tokenOf h := rfl

@[simp] theorem State.takeTurn_isFilled (s : State) (h : Handle) :
    s.takeTurn.isFilled h = s.isFilled h := rfl

@[simp] theorem State.takeTurn_readSize (s : State) :
    s.takeTurn.readSize = s.readSize := rfl

@[simp] theorem State.takeTurn_writeSize (s : State) :
    s.takeTurn.writeSize = s.writeSize := rfl

@[simp] theorem State.takeTurn_aSrc (s : State) :
    s.takeTurn.aSrc = s.aSrc := rfl

/-! ## `setIssued` -/

@[simp] theorem State.setIssued_byteAt (s : State) (p : PortId) (cs : List Command) (o : MemObj) (off : Nat) :
    (s.setIssued p cs).byteAt o off = s.byteAt o off := by
  unfold State.byteAt; simp

@[simp] theorem State.setIssued_read (s : State) (p : PortId) (cs : List Command) (o : MemObj) (off n : Nat) :
    (s.setIssued p cs).read o off n = s.read o off n := by
  unfold State.read; simp

@[simp] theorem State.setIssued_ringSlot (s : State) (p : PortId) (cs : List Command) (i : Half) :
    (s.setIssued p cs).ringSlot i = s.ringSlot i := by
  unfold State.ringSlot State.read; simp

@[simp] theorem State.setIssued_tplWord (s : State) (p : PortId) (cs : List Command) (t : Template) (l seg i : Nat) :
    (s.setIssued p cs).tplWord t l seg i = s.tplWord t l seg i := by
  unfold State.tplWord State.read; simp

@[simp] theorem State.setIssued_staticStream (s : State) (p : PortId) (cs : List Command) (i : StaticId) :
    (s.setIssued p cs).staticStream i = s.staticStream i := by
  unfold State.staticStream State.read; simp

@[simp] theorem State.setIssued_enc (s : State) (p : PortId) (cs : List Command) (q : Handle) (pol : Bool) :
    (s.setIssued p cs).enc q pol = s.enc q pol := by
  unfold State.enc State.read; simp

@[simp] theorem State.setIssued_content (s : State) (p : PortId) (cs : List Command) (h : Handle) :
    (s.setIssued p cs).content h = s.content h := by
  unfold State.content State.read; simp

@[simp] theorem State.setIssued_tokenOf (s : State) (p : PortId) (cs : List Command) (h : Handle) :
    (s.setIssued p cs).tokenOf h = s.tokenOf h := by
  unfold State.tokenOf; simp

@[simp] theorem State.setIssued_isFilled (s : State) (p : PortId) (cs : List Command) (h : Handle) :
    (s.setIssued p cs).isFilled h = s.isFilled h := by
  unfold State.isFilled; simp

@[simp] theorem State.setIssued_readSize (s : State) (p : PortId) (cs : List Command) :
    (s.setIssued p cs).readSize = s.readSize := by
  unfold State.readSize; simp

@[simp] theorem State.setIssued_writeSize (s : State) (p : PortId) (cs : List Command) :
    (s.setIssued p cs).writeSize = s.writeSize := by
  unfold State.writeSize; simp

@[simp] theorem State.setIssued_aSrc (s : State) (p : PortId) (cs : List Command) :
    (s.setIssued p cs).aSrc = s.aSrc := by
  unfold State.aSrc State.bandLen; simp

end Sys2Proof.Machine
end

