-- ==== Sys2Proof/Laws/Init.lean ====
section
/-! SUPPORT. What INIT leaves, and the fields of the descriptors it builds. -/

namespace Sys2Proof.Machine

/-- The fields of a descriptor's second word (R89). -/
theorem Descriptor.word_one (d : Descriptor) :
    (d.word 1).extractLsb' 0 16 = d.count ∧ (d.word 1).getLsbD 16 = d.incr ∧ (d.word 1).getLsbD 17 = d.irq ∧
    (d.word 1).extractLsb' 18 2 = d.patch ∧ (d.word 1).extractLsb' 20 12 = 0 := by
  have h1 := d.count.isLt
  have h2 := Bool.toNat_lt d.incr
  have h3 := Bool.toNat_lt d.irq
  have h4 := d.patch.isLt
  have e : (d.word 1).toNat = d.count.toNat + d.incr.toNat * 2 ^ 16 + d.irq.toNat * 2 ^ 17 + d.patch.toNat * 2 ^ 18 := by
    simp only [Descriptor.word, BitVec.toNat_ofNat]
    omega
  generalize d.word 1 = w at *
  refine ⟨?_, ?_, ?_, ?_, ?_⟩
  · apply BitVec.eq_of_toNat_eq
    simp only [BitVec.extractLsb'_toNat, Nat.shiftRight_eq_div_pow]; omega
  · rw [BitVec.getLsbD, Nat.testBit_eq_decide_div_mod_eq, e]
    cases hd : d.incr <;> simp [hd] at * <;> omega
  · rw [BitVec.getLsbD, Nat.testBit_eq_decide_div_mod_eq, e]
    cases hd : d.irq <;> simp [hd] at * <;> omega
  · apply BitVec.eq_of_toNat_eq
    simp only [BitVec.extractLsb'_toNat, Nat.shiftRight_eq_div_pow]; omega
  · apply BitVec.eq_of_toNat_eq
    simp only [BitVec.extractLsb'_toNat, Nat.shiftRight_eq_div_pow]
    rw [Nat.div_eq_of_lt (by omega)]; rfl

theorem byteAt_setAudioValues (s : State) (o : MemObj) (off : Nat) :
    (setAudioValues s).byteAt o off = s.byteAt o off := by
  rw [setAudioValues_eq]
  rfl

/-- How an INIT that leaves the ENGINE initialized has come about. -/
theorem init_completes {s t : State} {mode : Byte} (hl : s.lifecycle = .uninit ∨ s.lifecycle = .destroyed)
    (e : exec (.init mode) s = .next t) (ht : t.lifecycle = .initialized) :
    ∃ tt u v, acceptedTable s mode = some tt ∧ t = State.reply u .ok v ∧
      u = { initEffects tt s with lifecycle := .initialized } := by
  rcases exec_ends (by simp) e with ⟨rfl, hl', -⟩ | ⟨hh, c, rfl⟩ | ⟨st, rfl, -, -⟩ | ⟨hh, rfl⟩ | ⟨v, u, hu, rfl⟩
  · rcases hl with h | h <;> simp [State.live, h] at hl'
  · simp at ht
  · rcases hl with h | h <;> simp [h] at ht
  · rcases hl with h | h <;> simp [h] at hh
  · obtain ⟨-, tt, h, h'⟩ := hu
    exact ⟨tt, u, v, h, rfl, h'⟩

/-- What INIT's effects leave: the audio values, and a memory in which only the templates and the streams are written. -/
theorem initEffects_view {s u : State} {tt : TimingTable} (h : u = { initEffects tt s with lifecycle := .initialized }) :
    u.params = s.params ∧ u.tt = tt ∧
      u.audioOk = (audioValues s.params tt s.cfgSampleRate).isSome ∧
      u.cts = ((audioValues s.params tt s.cfgSampleRate).map Prod.fst).getD 0 ∧
      u.nval = ((audioValues s.params tt s.cfgSampleRate).map Prod.snd).getD 0 ∧
      ∃ x : State, x.params = s.params ∧ x.tt = tt ∧ x.audioOk = u.audioOk ∧ x.cts = u.cts ∧ x.nval = u.nval ∧
        u.mem = (buildStreams x).mem ∧ (∀ o off, o ≠ .tplmem → x.byteAt o off = none) ∧
        ∀ tpl l seg i, l < s.params.l → seg < 4 → i < 4 →
          x.tplWord tpl l seg i = some ((buildDescriptor s.params tt tpl l seg).word i) := by
  subst h
  obtain ⟨W, hW, w1, w2, w3, w4⟩ : ∃ W, clearRun (allocatePools (latchConfig tt s)) = W ∧ W.params = s.params ∧ W.tt = tt ∧
    W.rateCode = s.cfgSampleRate ∧ W.mem = Memory.empty := ⟨_, rfl, rfl, rfl, rfl, rfl⟩
  have e : initEffects tt s = buildStreams (setAudioValues (buildTemplates W)) := by rw [← hW]; rfl
  rw [e]
  clear e hW
  have b1 := buildTemplates_eq W
  have b2 := fun o off h => byteAt_buildTemplates W (o := o) (off := off) h
  have b3 := fun tpl l seg i hl hs hi => tplWord_buildTemplates (s := W) (t := tpl) (l := l) (seg := seg) (i := i) hl hs hi
  generalize hB : buildTemplates W = B at *
  have c1 : B.params = s.params := by rw [b1]; exact w1
  have c2 : B.tt = tt := by rw [b1]; exact w2
  have c3 : B.rateCode = s.cfgSampleRate := by rw [b1]; exact w3
  have a1 := setAudioValues_eq B
  have a2 : ∀ o off, (setAudioValues B).byteAt o off = B.byteAt o off := byteAt_setAudioValues B
  have a3 : ∀ tpl l seg i, (setAudioValues B).tplWord tpl l seg i = B.tplWord tpl l seg i := by
    intro tpl l seg i; rw [a1]; rfl
  rw [c1, c2, c3] at a1
  generalize setAudioValues B = X at *
  have x1 := buildStreams_eq X
  refine ⟨?_, ?_, ?_, ?_, ?_, X, ?_, ?_, ?_, ?_, ?_, rfl, ?_, ?_⟩
  · rw [x1, a1]
  · rw [x1, a1]
  · rw [x1, a1]
  · rw [x1, a1]
  · rw [x1, a1]
  · rw [a1]
  · rw [a1]
  · rw [x1]
  · rw [x1]
  · rw [x1]
  · intro o off h1
    rw [a2, b2 _ _ h1, State.byteAt_empty w4]
  · intro tpl l seg i hl hs hi
    rw [a3, b3 _ _ _ _ (w1.symm ▸ hl) hs hi, w1, w2]

end Sys2Proof.Machine
end

