-- ==== Sys2Proof/Laws/Ring.lean ====
section
/-! SUPPORT. The laws of the ring: its sizes and offsets as numbers, and its slots. -/

namespace Sys2Proof.Machine

theorem isPowerOfTwo_iff {lo hi v : Nat} : isPowerOfTwo lo hi v = true ↔ ∃ e, lo ≤ e ∧ e ≤ hi ∧ v = 2 ^ e := by
  simp [isPowerOfTwo]
  constructor
  · rintro ⟨e, h1, h2, h3⟩; exact ⟨e, h2, h1, h3⟩
  · rintro ⟨e, h1, h2, h3⟩; exact ⟨e, h2, h1, h3⟩

/-- The bounds of the parameters (R9). -/
theorem Params.legal_bounds {p : Params} (h : p.legal = true) :
    (∃ e, 1 ≤ e ∧ e ≤ 16 ∧ p.c = 2 ^ e) ∧ (∃ e, e ≤ 8 ∧ p.n = 2 ^ e) ∧ p.m ≤ 256 ∧ (p.l = 3 ∨ p.l = 4) := by
  simp only [Params.legal, Bool.and_eq_true, isPowerOfTwo_iff, decide_eq_true_eq, Bool.or_eq_true, beq_iff_eq] at h
  obtain ⟨⟨⟨⟨⟨⟨⟨⟨⟨⟨⟨⟨hn, hm⟩, hc⟩, hl⟩, -⟩, -⟩, -⟩, -⟩, -⟩, -⟩, -⟩, -⟩, -⟩ := h
  obtain ⟨e, -, h2, h3⟩ := hn
  exact ⟨hc, ⟨e, h2, h3⟩, hm.2, hl⟩

theorem Params.legal_n_le {p : Params} (h : p.legal = true) : p.n ≤ 256 := by
  obtain ⟨-, ⟨e, he, hn⟩, -⟩ := Params.legal_bounds h
  rw [hn]
  exact Nat.pow_le_pow_right (by omega) he

/-- The index mask keeps an offset's remainder modulo `C`. -/
theorem and_ringMask {p : Params} (h : p.legal = true) (x : Half) : (x &&& ringMask p).toNat = x.toNat % p.c := by
  obtain ⟨⟨e, h1, h2, hc⟩, -⟩ := Params.legal_bounds h
  have hlt : 2 ^ e - 1 < 2 ^ 16 := by
    have : 2 ^ e ≤ 2 ^ 16 := Nat.pow_le_pow_right (by omega) h2
    have : 0 < 2 ^ e := Nat.two_pow_pos e
    omega
  simp only [ringMask, BitVec.toNat_and, BitVec.toNat_ofNat, hc, Nat.mod_eq_of_lt hlt]
  exact Nat.and_two_pow_sub_one_eq_mod x.toNat e

/-- `C` divides the range of an offset. -/
theorem legal_c_dvd {p : Params} (h : p.legal = true) : p.c ∣ 65536 := by
  obtain ⟨⟨e, h1, h2, hc⟩, -⟩ := Params.legal_bounds h
  rw [hc, show (65536 : Nat) = 2 ^ 16 by decide]
  exact Nat.pow_dvd_pow 2 h2

theorem legal_c_pos {p : Params} (h : p.legal = true) : 2 ≤ p.c ∧ p.c ≤ 65536 := by
  obtain ⟨⟨e, h1, h2, hc⟩, -⟩ := Params.legal_bounds h
  refine ⟨?_, Nat.le_of_dvd (by omega) (legal_c_dvd h)⟩
  rw [hc]
  calc 2 = 2 ^ 1 := rfl
    _ ≤ 2 ^ e := Nat.pow_le_pow_right (by omega) h1

theorem readSize_toNat {s : State} (h : s.params.legal = true) :
    s.readSize.toNat = (65536 - s.ringRd.toNat + s.ringWr.toNat) % s.params.c := by
  rw [State.readSize, and_ringMask h, BitVec.toNat_sub, Nat.mod_mod_of_dvd _ (legal_c_dvd h)]

theorem ringSlotAt_toNat {p : Params} (h : p.legal = true) (off k : Half) :
    (ringSlotAt p off k).toNat = (off.toNat + k.toNat) % p.c := by
  rw [ringSlotAt, and_ringMask h, BitVec.toNat_add, Nat.mod_mod_of_dvd _ (legal_c_dvd h)]

/-- A masked offset is one of the ring. -/
theorem ringSlotAt_lt {p : Params} (h : p.legal = true) (off k : Half) : (ringSlotAt p off k).toNat < p.c := by
  rw [ringSlotAt_toNat h]
  exact Nat.mod_lt _ (by have := legal_c_pos h; omega)

/-- A slot just written holds its frame. -/
theorem ringSlot_setRingSlot_self {s : State} {i : Half} (f : Word) (hi : i.toNat < s.params.c) :
    (s.setRingSlot i f).ringSlot i = some f := by
  unfold State.ringSlot State.setRingSlot
  rw [State.read_write_self _ _ (by simp only [objSize]; omega)]
  rw [Nat.mod_eq_of_lt (show f.toNat < 256 ^ 4 from f.isLt)]
  simp

/-- Outside a slot just written, every byte of memory is as before. -/
theorem byteAt_setRingSlot {s : State} {i : Half} (f : Word) {o : MemObj} {off : Nat}
    (h : ¬ (o = .ring ∧ 4 * i.toNat ≤ off ∧ off < 4 * i.toNat + 4)) :
    (s.setRingSlot i f).byteAt o off = s.byteAt o off := by
  refine s.byteAt_write_outside _ ?_
  by_cases e : o = .ring
  · right
    have : ¬ (4 * i.toNat ≤ off ∧ off < 4 * i.toNat + 4) := fun c => h ⟨e, c⟩
    omega
  · exact .inl e

/-- Another slot of the ring keeps its frame. -/
theorem ringSlot_setRingSlot_other {s : State} {i j : Half} (f : Word)
    (h : j ≠ i) : (s.setRingSlot i f).ringSlot j = s.ringSlot j := by
  have hn : j.toNat ≠ i.toNat := fun c => h (BitVec.eq_of_toNat_eq c)
  unfold State.ringSlot State.setRingSlot
  rw [State.read_write_outside s _ (by right; omega)]

end Sys2Proof.Machine
end

