-- ==== Sys2Proof/Machine/Lanes.lean ====
section
/-! DEFINITION. What the lanes stream for a line program (R122, R133): a view of the state, which no step changes. The
lanes' segments are not stepped (R133); their effect on the state is `LANE_LINE` and the output trace. -/

namespace Sys2Proof.Machine

/-- `n` words of a memory object from an offset on; `none` for a word that is not wholly written, or not in the
object (R61). For legal parameters every word a lane streams lies in its object (log entry 26). -/
def State.wordsFrom (s : State) (o : MemObj) (off n : Nat) : List (Option Word) :=
  (List.range n).map fun i => (s.read o (off + 4 * i) 4).map (BitVec.ofNat 32)

/-- The words lane `l` streams in segment `seg` of a line program: the island stream in segment 1, the buffer in segment
3 of `T_ACTIVE` on a picture lane, else `COUNT` times the constant symbol of the template (R89, R122, R134). -/
def segmentWords (s : State) (p : LineProgram) (l seg : Nat) : List (Option Word) :=
  let g := segmentOf s.params s.tt p.template l seg
  match (patchKind p.template l seg).toNat, p.buf with
  | 2, _ =>
      s.wordsFrom (streamPlace s.params p.island).1
        ((streamPlace s.params p.island).2 + l * s.params.islStride) g.count.toNat
  | 1, some h => s.wordsFrom (.buf h) ((pictureLanes s.params).idxOf l * s.params.laneStride) g.count.toNat
  | _, _ => List.replicate g.count.toNat (some g.symbol)

/-- What lane `l` streams in the line of a program, its four segments in order (R122, R133). -/
def lineWords (s : State) (p : LineProgram) (l : Nat) : List (Option Word) :=
  ((List.range 4).map (segmentWords s p l)).flatten

end Sys2Proof.Machine
end

