-- ==== Sys2Proof/Laws/Lanes.lean ====
section
/-! SUPPORT. The lanes' reads for legal parameters: every word stands in the memory object it is read from (R61, R133). -/

namespace Sys2Proof.Machine

/-- The template sets of legal parameters fit the memory objects. -/
theorem Params.legal_fits {p : Params} (h : p.legal = true) {t : TemplateSet} (ht : t ∈ p.templates) : t.fits p = true := by
  simp only [Params.legal, Bool.and_eq_true] at h
  obtain ⟨⟨⟨⟨-, hf⟩, -⟩, -⟩, -⟩ := h
  exact List.all_eq_true.1 hf t ht

theorem segmentOf_count (p : Params) (tt : TimingTable) (t : Template) (l s : Nat) :
    (segmentOf p tt t l s).count = 0 ∨ ∃ g ∈ p.templates,
      (segmentOf p tt t l s).count = ((g.segments[tplIndex p t l s]?).getD default).count := by
  unfold segmentOf segmentsFor
  cases h : templateSetFor p tt with
  | none => exact .inl rfl
  | some g =>
    refine .inr ⟨g, List.mem_of_find?_eq_some h, ?_⟩
    rw [Option.map_some, Option.getD_some, List.getD_eq_getElem?_getD]
    cases g.segments[tplIndex p t l s]? <;> rfl

/-- The island segment of a lane stands inside the lane's part of a stream. -/
theorem island_count_fits {p : Params} (h : p.legal = true) (tt : TimingTable) (t : Template) {l : Nat} (hl : l < p.l) :
    4 * (segmentOf p tt t l 1).count.toNat ≤ p.islStride := by
  obtain h0 | ⟨g, hg, hc⟩ := segmentOf_count p tt t l 1
  · simp [h0]
  · have hf := Params.legal_fits h hg
    simp only [TemplateSet.fits, Bool.and_eq_true, List.all_eq_true, List.mem_range, decide_eq_true_eq] at hf
    have hb : t.code.toNat * p.l + l < 5 * p.l := by
      have := Nat.mul_le_mul_right p.l (Nat.succ_le_of_lt t.code_lt)
      rw [Nat.succ_mul] at this
      omega
    have := hf.1 _ hb
    rw [hc]
    rwa [Nat.mul_comm 4 (t.code.toNat * p.l + l)] at this

/-- The active segment of a picture lane stands inside the buffer. -/
theorem picture_count_fits {p : Params} (h : p.legal = true) (tt : TimingTable) {l i : Nat} (h₀ : 0 < l) (hl : l < p.l)
    (hi : i < (segmentOf p tt .active l 3).count.toNat) (x : Handle) :
    (l - 1) * p.laneStride + 4 * i + 4 ≤ objSize p (.buf x) := by
  obtain h0 | ⟨g, hg, hc⟩ := segmentOf_count p tt .active l 3
  · simp [h0] at hi
  · have hf := Params.legal_fits h hg
    simp only [TemplateSet.fits, Bool.and_eq_true, List.all_eq_true, List.mem_range, decide_eq_true_eq] at hf
    have := hf.2 (l - 1) (by omega)
    have e : tplIndex p .active l 3 = 4 * (l - 1 + 1) + 3 := by
      show (0 * p.l + l) * 4 + 3 = _
      omega
    rw [← e, ← hc] at this
    simp only [objSize]
    omega

/-- A word of an island segment stands in the object of the stream. -/
theorem island_word_fits {p : Params} (h : p.legal = true) (tt : TimingTable) (t : Template) {l i : Nat} (hl : l < p.l)
    (hi : i < (segmentOf p tt t l 1).count.toNat) (isl : IslandSrc) :
    (streamPlace p isl).2 + l * p.islStride + 4 * i + 4 ≤ objSize p (streamPlace p isl).1 := by
  have h1 := island_count_fits h tt t hl
  have h2 : l * p.islStride + p.islStride ≤ streamBytes p := place_fits hl
  have h3 : (streamPlace p isl).2 + streamBytes p ≤ objSize p (streamPlace p isl).1 := by
    cases isl with
    | pair q pol => exact setEnc_fits p q pol
    | null pol => exact place_fits (StaticId.index_lt _)
    | avi => exact place_fits (StaticId.index_lt _)
    | ainfo => exact place_fits (StaticId.index_lt _)
    | acr => exact place_fits (StaticId.index_lt _)
  omega

end Sys2Proof.Machine
end

