-- ==== Sys2Proof/Laws/PerInstr.lean ====
section
/-! SUPPORT. Statements made per command: `Fields`, that the word a command encodes to carries the command's opcode and
operands in the fields of the format and zero in the fields it does not use (R81, R82), and that those fields name it. -/

namespace Sys2Proof.Laws.Fields

/-- The fields of a command's word (R81, R82, R83). -/
def Statement (i : Instr) : Prop :=
  opField (encode i) = i.opcode ∧ hField (encode i) = i.hOperand ∧ immField (encode i) = i.immOperand ∧
    unusedFieldsZero i (encode i) = true ∧
    commandOf (opField (encode i)) (hField (encode i)) (immField (encode i)) = some i

theorem statement_of_encode (i : Instr) : Statement i := by
  refine ⟨opField_encode i, hField_encode i, immField_encode i, unusedFieldsZero_encode i, ?_⟩
  rw [opField_encode, hField_encode, immField_encode, commandOf_fields]

theorem init (mode : Byte) : Statement (.init mode) := statement_of_encode _

theorem registerIrq (core : Byte) : Statement (.registerIrq core) := statement_of_encode _

theorem start : Statement .start := statement_of_encode _

theorem stop : Statement .stop := statement_of_encode _

theorem destroy : Statement .destroy := statement_of_encode _

theorem writeCfg (index : Byte) (value : Half) : Statement (.writeCfg index value) := statement_of_encode _

theorem acquireFreeBuffer : Statement .acquireFreeBuffer := statement_of_encode _

theorem fillBuffer (h : Handle) : Statement (.fillBuffer h) := statement_of_encode _

theorem submitValidBuffer (h : Handle) (token : Half) : Statement (.submitValidBuffer h token) := statement_of_encode _

theorem acquireFreeAudioSlot : Statement .acquireFreeAudioSlot := statement_of_encode _

theorem submitAudioSamples : Statement .submitAudioSamples := statement_of_encode _

theorem setAudioEnabled (b : Byte) : Statement (.setAudioEnabled b) := statement_of_encode _

theorem ringPopAvailable : Statement .ringPopAvailable := statement_of_encode _

theorem ringReadSlot (k : Half) : Statement (.ringReadSlot k) := statement_of_encode _

theorem ringAdvanceRead (n : Half) : Statement (.ringAdvanceRead n) := statement_of_encode _

theorem ringPush : Statement .ringPush := statement_of_encode _

theorem ringWriteSize : Statement .ringWriteSize := statement_of_encode _

theorem ringWriteSlot (k : Half) : Statement (.ringWriteSlot k) := statement_of_encode _

theorem ringAdvanceWrite (n : Half) : Statement (.ringAdvanceWrite n) := statement_of_encode _

theorem readDiag (selector : Byte) : Statement (.readDiag selector) := statement_of_encode _

theorem tick : Statement .tick := statement_of_encode _

end Sys2Proof.Laws.Fields
end

