-- ==== Sys2Proof/Laws/Pools.lean ====
section
/-! SUPPORT. What the pool invariants give: no duplicates, room in the queues, and so no fault in a TICK or a STOP. -/

namespace Sys2Proof.Machine

theorem handlesBelow_nodup {n : Nat} (h : n ≤ 256) : (handlesBelow n).Nodup := by
  refine (List.nodup_map_iff_inj_on List.nodup_range).2 fun a ha b hb e => ?_
  have ha := List.mem_range.1 ha
  have hb := List.mem_range.1 hb
  have := congrArg BitVec.toNat e
  simpa [Nat.mod_eq_of_lt (show a < 256 by omega), Nat.mod_eq_of_lt (show b < 256 by omega)] using this

@[simp] theorem handlesBelow_length (n : Nat) : (handlesBelow n).length = n := by
  simp [handlesBelow]

/-- The buffers are `n` in number, none twice. -/
theorem PoolInv.owned {s : State} (h : PoolInv s) (ha : s.allocated = true) :
    s.owned.length = s.params.n ∧ s.owned.Nodup := by
  have hp := (h.2 ha).1
  exact ⟨hp.length_eq.trans (handlesBelow_length _),
    hp.nodup_iff.2 (handlesBelow_nodup (Params.legal_n_le h.1))⟩

/-- The pairs are `m` in number, none twice. -/
theorem PoolInv.pairsOwned {s : State} (h : PoolInv s) (ha : s.allocated = true) :
    s.pairsOwned.length = s.params.m ∧ s.pairsOwned.Nodup := by
  have hp := (h.2 ha).2.1
  exact ⟨hp.length_eq.trans (handlesBelow_length _),
    hp.nodup_iff.2 (handlesBelow_nodup (Params.legal_bounds h.1).2.2.1)⟩

/-- `FREEQ` has room for every buffer that is not in it (R156). -/
theorem PoolInv.room {s : State} (h : PoolInv s) (ha : s.allocated = true) :
    s.freeq.length + s.validq.length + s.cur.toList.length + s.rel0.toList.length + s.rel1.toList.length
      + s.prodBufs.length = s.params.n := by
  have := (h.owned ha).1
  simpa [State.owned, Nat.add_assoc] using this

theorem PoolInv.pairRoom {s : State} (h : PoolInv s) (ha : s.allocated = true) :
    s.pfreeq.length + s.pvalidq.length + s.prodPair.toList.length = s.params.m := by
  have := (h.pairsOwned ha).1
  simpa [State.pairsOwned, Nat.add_assoc] using this

/-- Two arrangements of the buffers are the same when each handle stands in them equally often. -/
theorem owned_perm {s t : State}
    (h : ∀ x, t.freeq.count x + t.validq.count x + t.cur.toList.count x + t.rel0.toList.count x + t.rel1.toList.count x
        + t.prodBufs.count x
      = s.freeq.count x + s.validq.count x + s.cur.toList.count x + s.rel0.toList.count x + s.rel1.toList.count x
        + s.prodBufs.count x) : t.owned.Perm s.owned := by
  refine List.perm_iff_count.2 fun x => ?_
  simpa [State.owned, List.count_append, Nat.add_assoc] using h x

theorem pairsOwned_perm {s t : State}
    (h : ∀ x, t.pfreeq.count x + t.pvalidq.count x + t.prodPair.toList.count x
      = s.pfreeq.count x + s.pvalidq.count x + s.prodPair.toList.count x) : t.pairsOwned.Perm s.pairsOwned := by
  refine List.perm_iff_count.2 fun x => ?_
  simpa [State.pairsOwned, List.count_append, Nat.add_assoc] using h x

/-- The end of a group moves the buffer held from one place to another. -/
theorem endGroup_owned (c : LineClass) {s : State} (h : s.rel0 = none) : (endGroup c s).owned.Perm s.owned := by
  rw [endGroup_eq]
  split
  · refine owned_perm fun x => ?_
    simp only [h, Option.toList_none, List.count_nil]
    omega
  · exact .refl _

/-- Selecting a template moves buffers between the sets of R32 and loses none. -/
theorem videoCase_owned {s : State} {v : Selection} (h : VideoCase s v) (h0 : s.rel0 = none) :
    v.state.owned.Perm s.owned := by
  cases h with
  | sync _ hv => rw [hv]
  | porch _ hv => rw [hv]
  | blanked _ _ hv => rw [hv]; exact endGroup_owned _ h0
  | held h _ _ _ hv => rw [hv]; exact endGroup_owned _ h0
  | acquired h late rest _ _ hc _ hq _ _ hv =>
    rw [hv]
    refine (endGroup_owned _ (by exact h0)).trans (owned_perm fun x => ?_)
    simp only [hc, hq, List.count_append, List.count_cons, Option.toList_some, Option.toList_none, List.count_nil]
    omega
  | starved late rest _ _ hc _ hq _ hv =>
    rw [hv]
    refine owned_perm fun x => ?_
    simp only [hq, List.count_append]
    omega

/-- A TICK moves buffers between the sets of R32 and pairs between those of R33, and loses none. -/
theorem tickSteps_owned {s t : State} (e : tickSteps s = .ok t) :
    t.owned.Perm s.owned ∧ t.pairsOwned.Perm s.pairsOwned := by
  obtain ⟨v, u, isl, hv, -, hi, rfl⟩ := tickSteps_closed e
  have h1 : (ticked s).owned.Perm s.owned := owned_perm fun x => by
    simp only [ticked, List.count_append, Option.toList_none, List.count_nil]
    omega
  have h2 := videoCase_owned hv rfl
  have h3 : u.owned.Perm v.state.owned ∧ u.pairsOwned.Perm v.state.pairsOwned := by
    obtain ⟨rfl, -⟩ | ⟨p, rest, -, hq, -, rfl⟩ := islandSelect_ok hi
    · exact ⟨.refl _, .refl _⟩
    · refine ⟨.refl _, pairsOwned_perm fun x => ?_⟩
      simp only [hq, List.count_append, List.count_cons, List.count_nil]
      omega
  rw [install_eq]
  refine ⟨(h3.1.trans h2).trans h1, h3.2.trans ?_⟩
  rw [videoCase_frame hv]
  exact .refl _

/-- Under the pool invariants a TICK raises nothing (R108, R260). -/
theorem tickSteps_safe {s : State} (h : PoolInv s) (ha : s.allocated = true) : ∃ t, tickSteps s = .ok t := by
  have r1 := h.room ha
  have r2 := h.pairRoom ha
  unfold tickSteps
  rw [advance_laneLine, releaseStep_room (by simp only; omega)]
  show ∃ t, buildLine (ticked s) = .ok t
  obtain ⟨v, hv⟩ := videoSelect_room (s := ticked s) (by simp only [ticked, List.length_append]; omega)
  have hf := videoCase_frame (videoSelect_ok hv)
  obtain ⟨⟨u, isl⟩, hi⟩ := islandSelect_room (g := (ticked s).audioEn) (s := v.state)
    (by rw [hf]; simp only [ticked]; omega)
  unfold buildLine
  rw [hv]
  dsimp only
  rw [hi]
  exact ⟨_, rfl⟩

/-- Under the pool invariants the steps of STOP raise nothing (R156). -/
theorem stopSteps_safe {s : State} (h : PoolInv s) (ha : s.allocated = true) :
    stopSteps s = .ok { s with
      irqEn := false, prog := none, laneLine := none
      freeq := s.freeq ++ (s.inFlight ++ s.validq), validq := []
      rel1 := none, rel0 := none, cur := none
      pfreeq := s.pfreeq ++ s.pvalidq, pvalidq := [] } := by
  have r1 := h.room ha
  have r2 := h.pairRoom ha
  exact stopSteps_room (by simp only [State.inFlight, List.length_append]; omega) (by omega)

end Sys2Proof.Machine
end

