-- ==== Sys2Proof/Laws/Step.lean ====
section
/-! SUPPORT. A step taken apart, once: what any property needs to hold after every step. -/

namespace Sys2Proof.Machine

/-- A property that every part of a step keeps holds after the step: the taking of a turn, the delivery of a command, its
result, its hold, its fault, its own effect, and a TICK. Power-on reset is left to `Kept.step`. -/
structure Kept (P : State → Prop) : Prop where
  turn    : ∀ s, P s → P s.takeTurn
  issued  : ∀ s p cs, P s → P (s.setIssued p cs)
  latch   : ∀ s p c, P s → P (s.latch p c)
  reply   : ∀ s st v, P s → P (s.reply st v)
  hold    : ∀ s, P s → P s.hold
  raise   : ∀ s c, P s → s.lifecycle ≠ .halted → P (s.raise c)
  effect  : ∀ i s u, P s → Effect i s u → P u
  tick    : ∀ s t, P s → s.ticking = true → tickSteps s = .ok t → P t
  halt    : ∀ s c, P s → s.ticking = true → P (s.halt c)

/-- A port command that is executed keeps the property. -/
theorem Kept.exec {P : State → Prop} (k : Kept P) {i : Instr} {s t : State} (hi : i ≠ .tick) (h : P s)
    (e : exec i s = .next t) : P t := by
  rcases exec_ends hi e with ⟨rfl, -⟩ | ⟨hh, c, rfl⟩ | ⟨st, rfl, -⟩ | ⟨-, rfl⟩ | ⟨v, u, hu, rfl⟩
  · exact k.hold s h
  · exact k.raise s c h hh
  · exact k.reply s _ _ h
  · exact k.reply s _ _ h
  · exact k.reply u _ _ (k.effect i s u h hu)

theorem Kept.runCommand {P : State → Prop} (k : Kept P) {p : PortId} {c : Command} {s t : State} (h : P s)
    (e : runCommand p c s = .next t) : P t := by
  unfold Machine.runCommand at e
  have h := k.latch s p c h
  split at e
  · rename_i i hd
    refine k.exec ?_ h e
    rintro rfl
    unfold decode at hd
    split at hd
    · cases hd
    · rename_i j _
      split at hd
      · rename_i hw
        split at hd
        · cases Except.ok.inj hd
          cases p <;> cases hw
        · cases hd
      · cases hd
  · have e := Host.Outcome.next.inj e
    subst e
    split <;> exact k.reply _ _ _ h

theorem Kept.step {P : State → Prop} (k : Kept P) {s t : State} (h : P s)
    (hp : s.turn = .powerOn → P s.takeTurn.powerOn) (e : step s = .next t) : P t := by
  have h := k.turn s h
  have port : ∀ p, portStep p s.takeTurn = .next t → P t := by
    intro p e
    unfold portStep at e
    split at e
    · exact k.runCommand h e
    · split at e
      · cases Host.Outcome.next.inj e
        exact h
      · exact k.runCommand (k.issued _ _ _ h) e
  unfold Machine.step turnStep at e
  cases ht : s.turn <;> rw [ht] at e <;> dsimp only at e
  · exact port _ e
  · exact port _ e
  · exact port _ e
  · unfold lanesStep at e
    split at e
    · rename_i ht
      rcases execTick_next e with e | ⟨c, -, rfl⟩
      · exact k.tick _ _ h ht e
      · exact k.halt _ _ h ht
    · cases Host.Outcome.next.inj e
      exact h
  · cases Host.Outcome.next.inj e
    exact hp ht

end Sys2Proof.Machine
end

