-- ==== Sys2Proof/Laws/Tick.lean ====
section
/-! SUPPORT. A TICK seen from outside: its position, the class of its line, the buffers it takes and what it installs. -/

namespace Sys2Proof.Machine

/-- No phase of a valid table is empty (R25). -/
theorem phaseLen_pos {tt : TimingTable} (h : TimingTable.valid tt = true) (p : Phase) : 1 ≤ (phaseLen tt p).toNat := by
  simp only [TimingTable.valid, Bool.and_eq_true, decide_eq_true_eq] at h
  cases p <;> simp only [phaseLen] <;> omega

/-- `advance` keeps the line index within its phase (R102). -/
theorem advance_within {s : State} (hv : TimingTable.valid s.tt = true) (h : s.vctr.toNat < (phaseLen s.tt s.phase).toNat) :
    (advance s).vctr.toNat < (phaseLen s.tt (advance s).phase).toNat := by
  unfold advance
  split
  · exact phaseLen_pos hv _
  · dsimp only
    have := (phaseLen s.tt s.phase).isLt
    rw [BitVec.toNat_add]
    simp
    omega

/-- The class of a line depends on the latched configuration only. -/
theorem classifyLine_congr {s t : State} (h₁ : t.bandFirst = s.bandFirst) (h₂ : t.bandEnd = s.bandEnd)
    (h₃ : t.scanlineEmu = s.scanlineEmu) (h₄ : t.k = s.k) (a : Nat) : classifyLine t a = classifyLine s a := by
  unfold classifyLine
  rw [h₁, h₂, h₃, h₄]

/-- The line after an in-band line that does not end its group is an in-band line of the same group (R126). -/
theorem classify_next {s : State} (hc : ConfigValid s) (hp : s.phase = .active) (hi : (classify s).inBand = true)
    (hg : (classify s).groupEnd = false) : (ticked s).phase = .active ∧ (classify (ticked s)).inBand = true ∧
      (classify (ticked s)).src = (classify s).src := by
  obtain ⟨hv, hk, -, hb, hbe, -⟩ := hc
  simp only [classify, classifyLine, decide_eq_true_eq] at hi
  simp only [classify, classifyLine] at hg
  simp only [hi, and_self, decide_true, Bool.true_and, Bool.or_eq_false_iff, beq_eq_false_iff_ne, ne_eq] at hg
  have h1 : ¬ (s.vctr.toNat + 1 = (phaseLen s.tt s.phase).toNat) := by rw [hp]; simp only [phaseLen]; omega
  have e : advance s = { s with vctr := s.vctr + 1 } := by unfold advance; rw [if_neg h1]
  have ev : (s.vctr + 1).toNat = s.vctr.toNat + 1 := by
    have := s.tt.vActiveLines.isLt
    rw [BitVec.toNat_add]; simp; omega
  have : (ticked s).vctr = s.vctr + 1 := by unfold ticked; rw [e]
  refine ⟨by unfold ticked; rw [e]; exact hp, ?_, ?_⟩
  · simp only [classify, classifyLine, this, ev, decide_eq_true_eq]
    show s.bandFirst.toNat ≤ _ ∧ _ < s.bandEnd.toNat
    omega
  · simp only [classify, classifyLine, this, ev]
    show (s.vctr.toNat + 1 - s.bandFirst.toNat) / s.k.toNat = _
    rw [show s.vctr.toNat + 1 - s.bandFirst.toNat = s.vctr.toNat - s.bandFirst.toNat + 1 by omega]
    generalize s.vctr.toNat - s.bandFirst.toNat = r at *
    generalize s.k.toNat = k at *
    rw [Nat.succ_div, if_neg]
    · rfl
    intro hd
    have := Nat.mod_lt r (show k > 0 by omega)
    have h2 : (r + 1) % k = 0 := Nat.mod_eq_zero_of_dvd hd
    rw [Nat.add_mod] at h2
    by_cases h3 : k = 1
    · subst h3; simp at hg; omega
    · rw [Nat.mod_eq_of_lt (show 1 < k by omega)] at h2
      have : r % k + 1 < k := by omega
      rw [Nat.mod_eq_of_lt this] at h2; omega

/-- A run of late buffers at the head of `VALIDQ`, one iteration each. -/
theorem acquire_late {src : Nat} {late : List Handle} : ∀ {n : Nat} {s : State} {rest : List Handle},
    (∀ x ∈ late, (s.tokenOf x).toNat ≠ src) → s.freeq.length + late.length ≤ s.params.n → s.validq = late ++ rest →
    acquire (late.length + n) src s = acquire n src { s with
      validq := rest, freeq := s.freeq ++ late, lateCnt := s.lateCnt + BitVec.ofNat 32 late.length } := by
  induction late with
  | nil => intro n s rest h1 h2 h3; have h3 : s.validq = rest := h3; subst h3; simp
  | cons a late ih =>
    intro n s rest h1 h2 h3
    have h3 : s.validq = a :: (late ++ rest) := h3
    simp only [List.length_cons] at h2
    rw [List.length_cons, show late.length + 1 + n = (late.length + n) + 1 by omega]
    conv_lhs => unfold acquire
    rw [h3]
    dsimp only
    rw [if_neg (h1 a (by simp)), pushFree_room (by simp only; omega)]
    dsimp only
    have := ih (n := n) (rest := rest)
      (s := { s with validq := late ++ rest, freeq := s.freeq ++ [a], lateCnt := s.lateCnt + 1 })
      (fun x hx => h1 x (List.mem_cons_of_mem _ hx)) (by simp; omega) rfl
    rw [this]
    simp only [List.append_assoc, List.singleton_append, ofNat_succ_word]

/-- A TICK that does not halt the ENGINE has run its steps. -/
theorem tickSteps_of_exec {s t : State} (e : exec .tick s = .next t) (h : t.lifecycle ≠ .halted) : tickSteps s = .ok t := by
  rcases execTick_next e with e | ⟨c, -, rfl⟩
  · exact e
  · exact absurd rfl h

/-- What a TICK that raises nothing installs and leaves, by the case of its selection. -/
theorem tickSteps_view {s t : State} (e : tickSteps s = .ok t) :
    ∃ v, VideoCase (ticked s) v ∧ (∃ p, t.prog = some p ∧ p.template = v.template ∧ p.buf = v.buf) ∧
      t.phase = (ticked s).phase ∧ classify t = classify (ticked s) ∧ t.validq = v.state.validq ∧
      t.cur = v.state.cur ∧ t.errCnt = v.state.errCnt ∧ t.freeq = v.state.freeq ∧ t.lateCnt = v.state.lateCnt ∧
      t.rel0 = v.state.rel0 := by
  obtain ⟨v, u, isl, hv, -, hi, rfl⟩ := tickSteps_closed e
  have f1 := videoCase_frame hv
  have f2 := islandSelect_frame hi
  refine ⟨v, hv, ?_⟩
  rw [install_eq]
  refine ⟨⟨_, rfl, rfl, rfl⟩, ?_, ?_, ?_, ?_, ?_, ?_, ?_, ?_⟩
  · show u.phase = _; rw [f2, f1]
  · unfold classify
    rw [classifyLine_congr (s := ticked s) (t := _) (by show u.bandFirst = _; rw [f2, f1])
      (by show u.bandEnd = _; rw [f2, f1]) (by show u.scanlineEmu = _; rw [f2, f1]) (by show u.k = _; rw [f2, f1])]
    show classifyLine _ u.vctr.toNat = _
    rw [f2, f1]
  · show u.validq = _; rw [f2]
  · show u.cur = _; rw [f2]
  · show u.errCnt = _; rw [f2]
  · show u.freeq = _; rw [f2]
  · show u.lateCnt = _; rw [f2]
  · show u.rel0 = _; rw [f2]

theorem tickSteps_tokenOf {s t : State} (e : tickSteps s = .ok t) (h : Handle) : t.tokenOf h = s.tokenOf h := by
  obtain ⟨p, -, -, -, hf⟩ := tickSteps_frame e
  rw [hf]; rfl

end Sys2Proof.Machine
end

