-- ==== Sys2Proof/Tests/Slice0.lean ====
section
/-! SUPPORT. Tests: words written out from the encoding of R81 and R83, the spec's worked examples (95_test_vectors.md), and a
concrete witness of the hypotheses of every statement. -/

namespace Sys2Proof.Tests

open Sys2Proof.Machine

/-! ## Small states -/

/-- The table T0 of the test vectors (section 0): phases of 2, 1, 1 and 4 lines. -/
def tableT0 : TimingTable :=
  { vFrontPorch := 2, vSyncWidth := 1, vBackPorch := 1, vActiveLines := 4, hFrontPorch := 16, hSyncWidth := 62,
    hBackPorch := 60, hActivePixels := 720, hSyncPolarity := false, vSyncPolarity := false, pixelClockHz := 27000000 }

/-- Any constant template: four segments of one word for every chain. -/
def constSegments (lanes : Nat) : List Segment :=
  List.replicate (5 * lanes * 4) { src := 0, count := 1, symbol := 0 }

/-- The parameters of the test vectors (section 0), with one mode. -/
def params0 : Params :=
  { n := 4, m := 2, c := 8, l := 4, bufBytes := 12, laneStride := 4, islStride := 4, modes := [{ id := 1, table := tableT0 }],
    rates := Config.defaultRates, templates := [{ table := tableT0, segments := constSegments 4, hsyncInIsland := false }],
    aviPb := List.replicate 13 0, ainfoPb := List.replicate 10 0, csBits := 0, ecc := .bch }

/-- After power-on reset, the next allocation given. -/
def fresh (alloc : Bool) : State :=
  { State.resetWith params0 with env := { Env.empty with allocDraws := [alloc] } }

/-- INITIALIZED on T0, as INIT leaves the registers and the pools; no memory is written. -/
def ready : State :=
  { State.resetWith params0 with
    lifecycle := .initialized, allocated := true, tt := tableT0, k := 1, bandEnd := 4, rateCode := 1
    audioOk := true, cts := 30000, nval := 6272
    freeq := [0, 1, 2, 3], pfreeq := [0, 1], token := [0, 0, 0, 0], filled := [false, false, false, false] }

/-- A line program with the null stream. -/
def nullLine (t : Template) (ph : Phase) (v : Half) : LineProgram :=
  { template := t, buf := none, island := .null (ph == .sync), phase := ph, vctr := v, frame := 0 }

/-- STARTED on core 0, at the line given. -/
def running (ph : Phase) (v : Half) : State :=
  { ready with
    lifecycle := .started, irqCore := 0, irqEn := true, phase := ph, vctr := v, prog := some (nullLine .vnosync ph v) }

/-- A state in which the command being executed came from a core on a port. -/
def onPort (p : PortId) (core : CoreId) (s : State) : State :=
  { s with bus := { port := p, cmd := { s.bus.cmd with core := core } } }

/-- A command with a word and no data. -/
def cmdOf (w : Word) : Command :=
  { core := 0, word := w, d0 := 0, d1 := 0, d2 := 0, d3 := 0, content := 0 }

/-- The turn given comes first. -/
def atTurn (t : Turn) (s : State) : State :=
  { s with env := { s.env with turns := [t] } }

/-- What a command leaves, where it leaves a next state. -/
def leaves (i : Instr) (s : State) (f : State → Bool) : Bool :=
  match exec i s with
  | .next t => f t
  | .fault _ => false
  | .refused _ => false

theorem test_params_legal : params0.legal = true := by decide

/-! ## Which origin may issue a command (R83, R84 check 2) -/

theorem test_init_is_control_only : (Instr.init 1).wellFormed (.port .producer) = false := by decide
theorem test_tick_is_lanes_only : Instr.tick.wellFormed (.port .control) = false := by decide
theorem test_push_is_source_only : Instr.ringPush.wellFormed (.port .producer) = false := by decide
theorem test_enable_has_two_ports :
    (Instr.setAudioEnabled 1).wellFormed (.port .source) = false ∧
    (Instr.setAudioEnabled 1).wellFormed (.port .control) = true := by decide

/-! ## Words, written out bit by bit from R81 and R83: IMM, H, OP -/

theorem test_word_init : decode (.port .control) 0b0000000000000000_00000001_00000001 = .ok (.init 1) := by decide
theorem test_word_register_irq :
    decode (.port .control) 0b0000000000000000_00000001_00000010 = .ok (.registerIrq 1) := by decide
theorem test_word_start : decode (.port .control) 0b0000000000000000_00000000_00000011 = .ok .start := by decide
theorem test_word_stop : decode (.port .control) 0b0000000000000000_00000000_00000100 = .ok .stop := by decide
theorem test_word_destroy : decode (.port .control) 0b0000000000000000_00000000_00000101 = .ok .destroy := by decide
theorem test_word_write_cfg :
    decode (.port .control) 0b0000000000000010_00000100_00000110 = .ok (.writeCfg 4 2) := by decide
theorem test_word_acquire_buffer :
    decode (.port .producer) 0b0000000000000000_00000000_00010000 = .ok .acquireFreeBuffer := by decide
theorem test_word_fill_buffer :
    decode (.port .producer) 0b0000000000000000_00000011_00010001 = .ok (.fillBuffer 3) := by decide
theorem test_word_submit_buffer :
    decode (.port .producer) 0b0000000000000101_00000011_00010010 = .ok (.submitValidBuffer 3 5) := by decide
theorem test_word_acquire_slot :
    decode (.port .producer) 0b0000000000000000_00000000_00010011 = .ok .acquireFreeAudioSlot := by decide
theorem test_word_submit_audio :
    decode (.port .producer) 0b0000000000000000_00000000_00010100 = .ok .submitAudioSamples := by decide
theorem test_word_enable_audio :
    decode (.port .producer) 0b0000000000000000_00000001_00010101 = .ok (.setAudioEnabled 1) := by decide
theorem test_word_pop_available :
    decode (.port .producer) 0b0000000000000000_00000000_00100000 = .ok .ringPopAvailable := by decide
theorem test_word_read_slot :
    decode (.port .producer) 0b0000000000000011_00000000_00100001 = .ok (.ringReadSlot 3) := by decide
theorem test_word_advance_read :
    decode (.port .producer) 0b0000000000000100_00000000_00100010 = .ok (.ringAdvanceRead 4) := by decide
theorem test_word_push : decode (.port .source) 0b0000000000000000_00000000_00101000 = .ok .ringPush := by decide
theorem test_word_write_size :
    decode (.port .source) 0b0000000000000000_00000000_00101001 = .ok .ringWriteSize := by decide
theorem test_word_write_slot :
    decode (.port .source) 0b0000000000000111_00000000_00101010 = .ok (.ringWriteSlot 7) := by decide
theorem test_word_advance_write :
    decode (.port .source) 0b0000000000000010_00000000_00101011 = .ok (.ringAdvanceWrite 2) := by decide
theorem test_word_read_diag :
    decode (.port .source) 0b0000000000000000_00000010_00110000 = .ok (.readDiag 2) := by decide
theorem test_word_tick : decode .lanes 0b0000000000000000_00000000_01000000 = .ok .tick := by decide

/-- 95 section 2.1: the words that are illegal. -/
theorem test_illegal_words :
    decode (.port .control) 0x00000000 = .error .reservedOpcode ∧
    decode (.port .producer) 0x00000101 = .error .wrongPort ∧
    decode (.port .control) 0x00000040 = .error .wrongPort ∧
    decode (.port .control) 0x00010003 = .error .unusedField ∧
    decode (.port .source) 0x00000115 = .error .wrongPort ∧
    decode (.port .producer) 0x00000028 = .error .wrongPort ∧
    decode (.port .source) 0x000000FF = .error .reservedOpcode := by decide

/-- R85: the ends of each run of reserved opcodes, and the assigned opcodes beside them. -/
theorem test_reserved_boundaries :
    (∀ op ∈ [0x00, 0x07, 0x0F, 0x16, 0x1F, 0x23, 0x27, 0x2C, 0x2F, 0x31, 0x3F, 0x41, 0xFF],
      commandOf (BitVec.ofNat 8 op) 0 0 = none) ∧
    ∀ op ∈ [0x01, 0x06, 0x10, 0x15, 0x20, 0x22, 0x28, 0x2B, 0x30, 0x40],
      commandOf (BitVec.ofNat 8 op) 0 0 ≠ none := by decide

theorem test_table_words :
    decodeTableWord 32 0x00000101 = some (.init 1) ∧ decodeTableWord 32 0x00000028 = some .ringPush ∧
    decodeTableWord 32 0x00000040 = some .tick ∧ decodeTableWord 32 0x00000007 = none := by decide

/-! ## The word placed is the first to run after reset -/

theorem test_placed_word_runs :
    ∃ t, step (State.reset.withFetchWord 32 0x00000630) = .next t ∧ t.control.resStatus = 0 ∧ t.control.resValue = 0 :=
  ⟨_, rfl, by decide, by decide⟩

theorem test_placed_tick_runs : ∃ t, step (State.reset.withFetchWord 32 0x00000040) = .next t := ⟨_, rfl⟩

/-! ## Pseudo-instructions (R88) and the memory primitives (R61) -/

theorem test_put_line :
    (Pseudo.putLine 5 0x0102).expand (fun _ => 3) =
      [.plain .acquireFreeBuffer, { instr := .fillBuffer 3, frames := none, content := some 0x0102 },
        .plain (.submitValidBuffer 3 5)] := by decide

theorem test_pop4_submit :
    ((Pseudo.pop4Submit.expand fun k => BitVec.ofNat 32 (k + 4)).getLast?.map PseudoCommand.frames) = some (some (5, 6, 7, 8)) ∧
    Pseudo.pop4Submit.expand (fun _ => 3) = [.plain .ringPopAvailable] := by decide

/-- An access that leaves its object is none. -/
theorem test_read_past_object :
    let s := { ready with mem := { Memory.empty with buf := (List.range 24).map fun a => (a, 1) } }
    s.read (.buf 0) 8 4 = some 0x01010101 ∧ s.read (.buf 0) 9 4 = none ∧ (s.write (.buf 0) 9 4 0).mem = s.mem := by decide

/-! ## The packet formatter (95 section 2.5) -/

theorem test_ecc8 : ecc8 params0 [0x01] = 0xD9 ∧ ecc8 params0 [0x02] = 0xB5 ∧ ecc8 params0 [0x03] = 0x6C := by decide

theorem test_acr_packet :
    (acrPacket params0 30000 6272).take 12 = [0x01, 0x00, 0x00, 0x4A, 0x00, 0x00, 0x75, 0x30, 0x00, 0x18, 0x80, 0x5A] := by decide +kernel

/-- R188: the default `ecc8` of an all-zero input is 0. -/
theorem test_null_packet : packet params0 [0, 0, 0] (List.replicate 4 (List.replicate 7 0)) = nullPacket := by decide +kernel

/-- R24, R176: horizontal sync is low when active (T0) and not asserted in the island, or asserted. -/
theorem test_hs_level :
    hsLevelIsland params0 tableT0 = true ∧
    hsLevelIsland { params0 with templates := [{ table := tableT0, segments := [], hsyncInIsland := true }] } tableT0 = false := by
  decide

theorem test_avi_packet :
    (aviPacket params0).take 12 = [0x82, 0x02, 0x0D, 0xE4, 0x6F, 0x00, 0x00, 0x00, 0x00, 0x00, 0x00, 0x5F] := by decide +kernel

theorem test_ainfo_packet :
    (ainfoPacket params0).take 12 = [0x84, 0x01, 0x0A, 0x4A, 0x71, 0x00, 0x00, 0x00, 0x00, 0x00, 0x00, 0xF6] := by decide +kernel

theorem test_audio_packet :
    audioSamplePacket params0 [0x00020001, 0x00040003, 0x00060005, 0x00080007] 0 =
      [0x02, 0x0F, 0x10, 0x63] ++ [0x00, 0x01, 0x00, 0x00, 0x02, 0x00, 0x88, 0xF9] ++
      [0x00, 0x03, 0x00, 0x00, 0x04, 0x00, 0x80, 0xF0] ++ [0x00, 0x05, 0x00, 0x00, 0x06, 0x00, 0x00, 0x5F] ++
      [0x00, 0x07, 0x00, 0x00, 0x08, 0x00, 0x88, 0x8B] := by decide +kernel

/-- The subpackets 0 and 2 of that packet, as the statements describe them. -/
theorem test_sample_bytes :
    SampleBytes 0x00020001 false [0x00, 0x01, 0x00, 0x00, 0x02, 0x00, 0x88] ∧
    SampleBytes 0x00060005 false [0x00, 0x05, 0x00, 0x00, 0x06, 0x00, 0x00] :=
  ⟨⟨0x88, by decide⟩, ⟨0x00, by decide⟩⟩

theorem test_parity :
    audioSubpacket 0xFFFF1234 false = [0x00, 0x34, 0x12, 0x00, 0xFF, 0xFF, 0x08] := by decide

/-- 95 section 2.5: the stamps, each beside the value that is not valid. -/
theorem test_stamps :
    audioValues params0 tableT0 1 = some (30000, 6272) ∧ audioValues params0 tableT0 3 = none ∧
    (audioValues params0 { tableT0 with pixelClockHz := 943718399 } 1).map Prod.fst = some 1048575 ∧
    audioValues params0 { tableT0 with pixelClockHz := 943718400 } 1 = none ∧
    audioValues params0 { tableT0 with pixelClockHz := 899 } 1 = none ∧
    audioValues params0 { tableT0 with pixelClockHz := 0 } 1 = none := by decide

/-! ## Timing, classes and islands (95 sections 2.2, 2.3, 2.5) -/

theorem test_advance_wraps :
    (advance { running .active 3 with frame := 0xFFFFFFFF }).frame = 0 ∧
    (advance { running .active 3 with frame := 0xFFFFFFFF }).phase = .frontPorch ∧
    (advance (running .sync 0)).phase = .backPorch ∧ (advance (running .frontPorch 0)).vctr = 1 := by decide

/-- The partial last group (92 D51): band of lines 1 to 3, two lines a source line. -/
theorem test_partial_group :
    let s := { ready with k := 2, bandFirst := 1, bandEnd := 4 }
    (classifyLine s 0).blanked = true ∧ (classifyLine s 2).groupEnd = true ∧ (classifyLine s 2).src = 0 ∧
    (classifyLine s 3).src = 1 ∧ (classifyLine s 3).groupEnd = true ∧ s.aSrc = 2 := by decide

theorem test_scanlines :
    let s := { ready with k := 2, scanlineEmu := 1 }
    (classifyLine s 1).blanked = true ∧ (classifyLine s 1).groupEnd = true ∧ (classifyLine s 2).blanked = false ∧
    (classifyLine s 2).src = 1 := by decide

/-! ## One step of each command (95 sections 2.4, 2.6, 2.7 and the programs) -/

theorem test_init_mode_unknown : exec (.init 9) (fresh true) = .next ((fresh true).reply .badArg 0) := rfl
theorem test_init_result :
    leaves (.init 1) (fresh true) (fun t => t.control.resStatus == 0 && t.control.resValue == 1 && t.cts == 30000) = true := by
  decide
theorem test_register_irq_range : exec (.registerIrq 2) ready = .next (ready.reply .badArg 0) := rfl
theorem test_start_program :
    leaves .start { ready with irqCore := 0 } (fun t => t.prog == some (nullLine .vnosync .frontPorch 0)) = true := by decide
theorem test_start_context :
    leaves .start { ready with irqCore := 1 } (fun t => t.control.resStatus == 0x04) = true := by decide
theorem test_stop_context :
    leaves .stop { running .active 0 with irqCore := 1 } (fun t => t.fault == 0x08 && t.control.resValue == 0x08) = true := by
  decide
theorem test_stop_drains :
    leaves .stop { running .active 3 with freeq := [0], rel1 := some 1, rel0 := some 2, validq := [3] }
      (fun t => t.freeq == [0, 1, 2, 3] && t.lifecycle == .stopped && t.prog == none) = true := by decide
theorem test_destroy_owned :
    leaves .destroy { ready with freeq := [1, 2, 3], prodBufs := [0] } (fun t => t.fault == 7 && t.freeq == [1, 2, 3]) = true := by
  decide
theorem test_write_cfg_index : exec (.writeCfg 5 0) ready = .next (ready.reply .badArg 0) := rfl
theorem test_acquire_buffer :
    leaves .acquireFreeBuffer (onPort .producer 0 ready)
      (fun t => t.freeq == [1, 2, 3] && t.prodBufs == [0] && t.producer.resValue == 0) = true := by decide
theorem test_acquire_buffer_holds :
    leaves .acquireFreeBuffer (onPort .producer 0 { ready with freeq := [] }) (fun t => t.producer.held.isSome) = true := by
  decide
theorem test_fill_buffer_content :
    leaves (.fillBuffer 0)
      { ready with prodBufs := [0], bus := { port := .producer, cmd := { cmdOf 0x11 with content := 0x0102 } } }
      (fun t => t.isFilled 0 && t.content 0 == some 0x0102) = true := by decide
theorem test_submit_unfilled :
    leaves (.submitValidBuffer 0 0) (onPort .producer 0 { ready with prodBufs := [0] }) (fun t => t.fault == 0x0A) = true := by
  decide
theorem test_submit_token_range :
    leaves (.submitValidBuffer 0 4) (onPort .producer 0 { ready with prodBufs := [0] })
      (fun t => t.producer.resStatus == 0x05) = true := by decide
theorem test_acquire_slot :
    leaves .acquireFreeAudioSlot (onPort .producer 0 ready) (fun t => t.pfreeq == [1] && t.prodPair == some 0) = true := by
  decide
theorem test_submit_audio_race :
    leaves .submitAudioSamples (onPort .producer 0 { running .sync 0 with
        prog := some { nullLine .vsync .sync 0 with island := .pair 0 true } })
      (fun t => t.fault == 9 && t.pfreeq == [0, 1] && t.audFrameIdx == 0) = true := by decide
theorem test_enable_audio_unavailable :
    leaves (.setAudioEnabled 1) (onPort .producer 0 { ready with audioOk := false })
      (fun t => t.producer.resStatus == 0x06) = true := by decide
theorem test_push_full :
    leaves .ringPush (onPort .source 0 { ready with ringWr := 7 }) (fun t => t.source.resStatus == 1 && t.ringWr == 7) = true := by
  decide
theorem test_push_wraps :
    leaves .ringPush { (onPort .source 0 { ready with ringWr := 7, ringRd := 4 }) with source := { Port.reset with d0 := 9 } }
      (fun t => t.ringWr == 0 && t.ringSlot 7 == some 9) = true := by decide
theorem test_write_size : leaves .ringWriteSize (onPort .source 0 ready) (fun t => t.source.resValue == 7) = true := by decide
theorem test_write_slot_overrun :
    leaves (.ringWriteSlot 7) (onPort .source 0 ready) (fun t => t.fault == 0x04) = true := by decide
theorem test_advance_write : leaves (.ringAdvanceWrite 2) (onPort .source 0 ready) (fun t => t.readSize == 2) = true := by decide
theorem test_pop_available :
    leaves .ringPopAvailable (onPort .producer 0 { ready with ringWr := 1, ringRd := 4 })
      (fun t => t.producer.resValue == 5) = true := by decide
theorem test_read_slot_unwritten :
    leaves (.ringReadSlot 0) (onPort .producer 0 { ready with ringWr := 2 }) (fun t => t.fault == 0x06) = true := by decide
theorem test_advance_read_underrun :
    leaves (.ringAdvanceRead 1) (onPort .producer 0 ready) (fun t => t.fault == 0x05) = true := by decide
theorem test_read_diag_position :
    leaves (.readDiag 5) (running .active 3) (fun t => t.control.resValue == 0x00030003) = true := by decide
/-- P1, TICK 4: the buffer of source line 0 is shown, and released at its group's end. -/
theorem test_tick_shows :
    leaves .tick { running .backPorch 0 with freeq := [1, 2, 3], validq := [0] }
      (fun t => t.prog == some { nullLine .active .active 0 with buf := some 0 } && t.rel0 == some 0 && t.cur == none
        && t.errCnt == 0) = true := by decide
/-- P2, TICK 12: a late buffer is recycled, and the line is the fallback's. -/
theorem test_tick_late :
    leaves .tick { running .backPorch 0 with freeq := [3, 0, 1], validq := [2], token := [0, 0, 2, 0] }
      (fun t => t.prog == some (nullLine .error .active 0) && t.lateCnt == 1 && t.errCnt == 1 && t.freeq == [3, 0, 1, 2]) = true := by
  decide

/-! ## Witnesses: states and operands that meet the hypotheses of each statement, clause by clause -/

/-- A command waits on a port, and its agent is next. -/
def issuing (p : PortId) (c : Command) (s : State) : State :=
  (s.setIssued p [c]).withTurn (PortId.turn p)

/-- A port is busy with a command, and its agent is next. -/
def holding (p : PortId) (c : Command) (s : State) : State :=
  (s.setPort p { s.port p with held := some c }).withTurn (PortId.turn p)

/-- After power-on reset, with T0 at another pixel clock. -/
def freshClock (clock : Word) (code : Half) : State :=
  let tt := { tableT0 with pixelClockHz := clock }
  { State.resetWith { params0 with
        modes := [{ id := 1, table := tt }], templates := [{ table := tt, segments := constSegments 4, hsyncInIsland := false }] } with
    cfgSampleRate := code, env := { Env.empty with allocDraws := [true] } }

theorem test_meets_DecodeInvertsEncode :
    Instr.tick.wellFormed .lanes = true ∧ (Instr.submitValidBuffer 0xFF 0xFFFF).wellFormed (.port .producer) = true := by
  decide

theorem test_meets_IllegalWordsCompleteAtOnce :
    (fresh true).lifecycle ≠ .halted ∧ decode (.port .control) (cmdOf 0xFF).word = .error .reservedOpcode := by decide

theorem test_meets_StepRunsDecodedCommand :
    ((holding .producer (cmdOf 0x10) ready).turn = PortId.turn .producer ∧
      ((holding .producer (cmdOf 0x10) ready).port .producer).held = some (cmdOf 0x10)) ∧
    ((issuing .source (cmdOf 0x28) ready).turn = PortId.turn .source ∧
      ((issuing .source (cmdOf 0x28) ready).port .source).held = none ∧
      (issuing .source (cmdOf 0x28) ready).issued .source = [cmdOf 0x28]) ∧
    ((atTurn .control ready).turn = PortId.turn .control ∧ ((atTurn .control ready).port .control).held = none ∧
      (atTurn .control ready).issued .control = []) ∧
    decode (.port .producer) (cmdOf 0x10).word = .ok .acquireFreeBuffer ∧
    decode (.port .source) (cmdOf 0x28).word = .ok .ringPush ∧
    (decode (.port .source) (cmdOf 0xFF).word = .error .reservedOpcode ∧
      ((holding .source (cmdOf 0xFF) ready).port .source).held = some (cmdOf 0xFF) ∧
      (issuing .source (cmdOf 0xFF) ready).issued .source = [cmdOf 0xFF] ∧
      (issuing .source (cmdOf 0xFF) (ready.halt .ownership)).lifecycle = .halted) ∧
    ((atTurn .lanes (running .active 0)).turn = .lanes ∧ (atTurn .lanes (running .active 0)).prog ≠ none) ∧
    ((atTurn .lanes ready).turn = .lanes ∧ (atTurn .lanes ready).lifecycle ≠ .started) := by decide

theorem test_meets_CommonChecksComeFirst :
    (ready.halt .ownership).lifecycle = .halted ∧ decode (.port .control) (cmdOf 0x03).word = .ok .start ∧
    ready.lifecycle ≠ .halted ∧ decode (.port .control) (cmdOf 0).word = .error .reservedOpcode := by decide

theorem test_meets_ResetValues :
    Instr.acquireFreeBuffer.wellFormed (.port .producer) = true ∧ Instr.ringPush.wellFormed (.port .source) = true := by decide

theorem test_meets_OnlyPowerOnLeavesHalted :
    (atTurn .powerOn (ready.halt .ownership)).turn = .powerOn ∧
    (atTurn .control (ready.halt .ownership)).turn ≠ .powerOn ∧
    (atTurn .control (ready.halt .ownership)).lifecycle = .halted := by decide

/-- R9: one allocation draw per INIT, the failed one too. -/
theorem test_failed_draw_is_used_up :
    (State.powerOn ((fresh false).raise .poolExhausted)).env.allocDraws = (fresh false).env.allocDraws.tail ∧
    (State.powerOn (ready.raise .ownership)).env.allocDraws = ready.env.allocDraws := by decide

theorem test_meets_RaiseHaltsTheEngine :
    PortId.source ≠ ready.bus.port ∧ (ready.port .source).held = none ∧
    ((holding .source (cmdOf 0) ready).port .source).held ≠ none ∧ ready.fault = 0 ∧
    (ready.halt .ownership).fault ≠ 0 ∧
    leaves .tick { running .active 0 with rel1 := some 0 } (fun t => t.lifecycle == .halted && t.fault == 3) = true ∧
    leaves .tick (holding .producer (cmdOf 0x10) { running .active 0 with rel1 := some 0 })
      (fun t => t.producer.held == none && t.producer.resStatus == 0x07 && t.producer.resValue == 3) = true := by decide

theorem test_meets_FaultIsSticky :
    ∃ t, step (issuing .control (cmdOf 0x04) { running .active 0 with irqCore := 1 }) = .next t ∧
      (issuing .control (cmdOf 0x04) { running .active 0 with irqCore := 1 }).turn ≠ .powerOn ∧
      t.fault ≠ (issuing .control (cmdOf 0x04) { running .active 0 with irqCore := 1 }).fault :=
  ⟨_, rfl, by decide, by decide⟩

theorem test_meets_RefusalsChangeNothing :
    ∃ t, exec (.init 9) (fresh true) = .next t ∧ (t.port (fresh true).bus.port).held = none ∧
      (t.port (fresh true).bus.port).resStatus ≠ Status.ok.code ∧
      (t.port (fresh true).bus.port).resStatus ≠ Status.halted.code :=
  ⟨_, rfl, by decide, by decide, by decide⟩

theorem test_meets_CommandsOutsideTheLiveStates :
    (fresh true).lifecycle = .uninit ∧ ({ ready with lifecycle := .destroyed } : State).lifecycle = .destroyed ∧
    (ready.halt .ownership).lifecycle = .halted ∧ Instr.start.wellFormed (.port .control) = true ∧
    ¬ 4 < (4 : Byte).toNat ∧ 4 < (5 : Byte).toNat := by decide

theorem test_meets_WriteCfgResult :
    ready.lifecycle ≠ .halted ∧ 4 < (5 : Byte).toNat ∧ 4 < (255 : Byte).toNat := by decide

theorem test_meets_ReadDiagResult : 10 < (11 : Byte).toNat ∧ 10 < (255 : Byte).toNat := by decide

/-- Each way a configuration is refused, at its boundary, and one at every bound that is accepted. -/
theorem test_meets_InitOutcomes :
    ready.lifecycle = .initialized ∧ (fresh true).lifecycle = .uninit ∧ modeTable (fresh true).params 9 = none ∧
    modeTable (fresh true).params 1 = some tableT0 ∧
    TimingTable.valid { tableT0 with vSyncWidth := 0 } = false ∧
    ({ fresh true with cfgRepeatK := 0 } : State).cfgRepeatK.toNat = 0 ∧
    255 < ({ fresh true with cfgRepeatK := 256 } : State).cfgRepeatK.toNat ∧
    tableT0.vActiveLines.toNat ≤ ({ fresh true with cfgBandFirst := 4 } : State).cfgBandFirst.toNat ∧
    tableT0.vActiveLines.toNat < (1 : Half).toNat + (4 : Half).toNat ∧
    1 < ({ fresh true with cfgScanlineEmu := 2 } : State).cfgScanlineEmu.toNat ∧
    InitAccepts { fresh true with cfgRepeatK := 255, cfgBandFirst := 3, cfgBandCount := 1, cfgScanlineEmu := 1 } tableT0 ∧
    (fresh true).allocDraw = true ∧ (fresh false).allocDraw = false := by decide

theorem test_meets_InitBuildsTheEngine :
    (fresh true).lifecycle = .uninit ∧ modeTable (fresh true).params 1 = some tableT0 ∧ InitAccepts (fresh true) tableT0 ∧
    (fresh true).allocDraw = true := by decide

/-- The clocks at which the stamp is the greatest valid one, too great, zero; no clock; a code without a row. -/
theorem test_meets_InitComputesTheStamp :
    ∀ x ∈ [(27000000, 1, 30000, true), (943718399, 1, 1048575, true), (943718400, 1, 0, false), (899, 1, 0, false),
        (0, 1, 0, false), (27000000, 3, 0, false)],
      leaves (.init 1) (freshClock (BitVec.ofNat 32 x.1) (BitVec.ofNat 16 x.2.1))
        (fun t => t.lifecycle == .initialized && t.cts.toNat == x.2.2.1 && t.audioOk == x.2.2.2) = true := by decide

theorem test_meets_InitEncodesTheStaticStreams :
    (fresh true).lifecycle = .uninit ∧ (freshClock 27000000 3).lifecycle = .uninit ∧
    ((fresh true).params.templates.find? fun set => set.table == tableT0).isSome = true ∧
    leaves (.init 1) (fresh true) (fun t => t.lifecycle == .initialized && t.audioOk) = true ∧
    leaves (.init 1) (freshClock 27000000 3) (fun t => t.lifecycle == .initialized && !t.audioOk) = true := by decide

theorem test_meets_InitBuildsTheTemplates :
    (fresh true).params.legal = true ∧ (fresh true).lifecycle = .uninit ∧
    leaves (.init 1) (fresh true) (fun t => t.lifecycle == .initialized) = true ∧ 3 < (fresh true).params.l := by decide

theorem test_meets_RegisterIrqResult :
    ready.lifecycle = .initialized ∧ (1 : Byte).toNat < 2 ∧ 2 ≤ (2 : Byte).toNat ∧ (running .active 0).lifecycle = .started := by
  decide

theorem test_meets_StartResult :
    (running .active 0).lifecycle = .started ∧ ready.lifecycle = .initialized ∧ ready.irqCore = 0xFF ∧
    ({ ready with irqCore := 1 } : State).irqCore ≠ 0xFF ∧ ready.issuingCore ≠ 1 ∧
    State.issuingCore { ready with irqCore := 0 } = ({ ready with irqCore := 0 } : State).irqCore ∧
    (0 : Nat) < ready.params.l := by decide

theorem test_meets_StopResult :
    ready.lifecycle ≠ .started ∧ ready.lifecycle ≠ .halted ∧ (running .active 0).lifecycle = .started ∧
    State.issuingCore { running .active 0 with irqCore := 1 } ≠ 1 ∧
    (running .active 0).issuingCore = (running .active 0).irqCore ∧ PoolInv (running .active 0) ∧
    (running .active 0).allocated = true := by decide

theorem test_meets_DestroyResult :
    (fresh true).lifecycle = .uninit ∧ ready.lifecycle = .initialized ∧ (running .active 0).lifecycle = .started ∧
    (({ ready with irqCore := 1 } : State).irqCore ≠ 0xFF ∧ ready.issuingCore ≠ 1) ∧ ready.irqCore = 0xFF ∧
    (running .active 0).issuingCore = (running .active 0).irqCore ∧
    ({ ready with freeq := [1, 2, 3], prodBufs := [0] } : State).prodBufs ≠ [] ∧
    ready.prodBufs = [] ∧ ready.prodPair = none ∧ PoolInv ready ∧ PoolInv (running .active 0) ∧ ready.allocated = true := by
  decide

theorem test_meets_TeardownIsIdempotent :
    leaves .stop (running .active 0) (fun t => t.lifecycle == .stopped) = true ∧
    leaves .destroy (running .active 0) (fun t => t.lifecycle == .destroyed) = true := by decide

theorem test_meets_AcquireFreeBufferResult :
    ((fresh true).live = false ∧ (fresh true).lifecycle ≠ .halted) ∧ ready.live = true ∧ ready.freeq = 0 :: [1, 2, 3] ∧ ({ ready with freeq := [] } : State).freeq = [] := by decide

theorem test_meets_HeldAcquireCompletesWhenFree :
    (holding .producer (cmdOf 0x10) ready).turn = .producer ∧
    (holding .producer (cmdOf 0x10) ready).producer.held = some (cmdOf 0x10) ∧ (cmdOf 0x10).word = 0x00000010 ∧
    (holding .producer (cmdOf 0x10) ready).live = true ∧ (holding .producer (cmdOf 0x10) ready).freeq = 0 :: [1, 2, 3] ∧
    (holding .producer (cmdOf 0x10) { ready with freeq := [] }).freeq = [] ∧
    ((holding .producer (cmdOf 0x13) ready).producer.held = some (cmdOf 0x13) ∧ (cmdOf 0x13).word = 0x00000013 ∧
      (holding .producer (cmdOf 0x13) ready).prodPair = none ∧ (holding .producer (cmdOf 0x13) ready).pfreeq = 0 :: [1] ∧
      (holding .producer (cmdOf 0x13) { ready with pfreeq := [] }).pfreeq = [] ∧
      (holding .producer (cmdOf 0x13) { ready with pfreeq := [1], prodPair := some 0 }).prodPair = some 0) ∧
    (holding .producer (cmdOf 0x10) (fresh true)).live = false ∧
    (holding .producer (cmdOf 0x10) (fresh true)).lifecycle ≠ .halted := by decide

theorem test_meets_FillBufferResult :
    ((fresh true).live = false ∧ (fresh true).lifecycle ≠ .halted) ∧ ready.live = true ∧ ready.params.n ≤ (4 : Handle).toNat ∧ (3 : Handle).toNat < ready.params.n ∧ (3 : Handle) ∉ ready.prodBufs ∧
    (3 : Handle) ∈ ({ ready with freeq := [0, 1, 2], prodBufs := [3] } : State).prodBufs ∧
    ready.filled.length = ready.params.n := by decide

theorem test_meets_SubmitValidBufferResult :
    ((fresh true).live = false ∧ (fresh true).lifecycle ≠ .halted) ∧ ready.live = true ∧ ready.params.n ≤ (4 : Handle).toNat ∧ (ready.bandEnd.toNat - ready.bandFirst.toNat + ready.k.toNat - 1) / ready.k.toNat = 4 ∧
    4 ≤ (4 : Half).toNat ∧ (3 : Handle).toNat < ready.params.n ∧
    (3 : Half).toNat < 4 ∧ (3 : Handle) ∉ ready.prodBufs ∧
    (3 : Handle) ∈ ({ ready with prodBufs := [3] } : State).prodBufs ∧ ready.isFilled 3 = false ∧
    State.isFilled { ready with filled := [false, false, false, true] } 3 = true ∧
    ready.params.n ≤ ({ ready with validq := [0, 1, 2, 0] } : State).validq.length ∧ ready.validq.length < ready.params.n ∧
    ready.token.length = ready.params.n := by decide

theorem test_meets_SetAudioEnabledResult :
    (fresh true).live = false ∧ (fresh true).lifecycle ≠ .halted ∧ ready.live = true ∧ 1 < (2 : Byte).toNat ∧
    ready.audioOk = true ∧ ({ ready with audioOk := false } : State).audioOk = false := by decide

theorem test_meets_AcquireFreeAudioSlotResult :
    ((fresh true).live = false ∧ (fresh true).lifecycle ≠ .halted) ∧ ready.live = true ∧ ({ ready with pfreeq := [1], prodPair := some 0 } : State).prodPair = some 0 ∧
    ready.prodPair = none ∧ ready.pfreeq = 0 :: [1] ∧ ({ ready with pfreeq := [], pvalidq := [0, 1] } : State).pfreeq = [] := by
  decide

theorem test_meets_SubmitAudioSamplesResult :
    ((fresh true).live = false ∧ (fresh true).lifecycle ≠ .halted) ∧ ready.live = true ∧ ({ ready with audioOk := false } : State).audioOk = false ∧ ready.audioOk = true ∧
    ({ ready with pfreeq := [] } : State).pfreeq = [] ∧
    ({ ready with pfreeq := [1], prodPair := some 0 } : State).prodPair = some 0 ∧ ready.prodPair = none ∧
    ready.pfreeq = 0 :: [1] ∧ ready.prog = none ∧ ready.pvalidq.length < ready.params.m ∧
    ({ nullLine .vsync .sync 0 with island := .pair 0 true } : LineProgram).island = .pair 0 true := by decide

theorem test_meets_IslandSelection :
    (running .frontPorch 0).phase = .frontPorch ∧ (running .frontPorch 0).vctr = 0 ∧ (running .frontPorch 1).vctr = 1 ∧
    ¬ ((running .frontPorch 2).phase = .frontPorch ∧ (running .frontPorch 2).vctr.toNat ≤ 1) ∧
    ¬ ((running .sync 0).phase = .frontPorch ∧ (running .sync 0).vctr.toNat ≤ 1) ∧
    (running .sync 0).pvalidq = [] ∧ ({ running .sync 0 with pfreeq := [0], pvalidq := [1] } : State).pvalidq = 1 :: [] ∧
    ({ running .sync 0 with pfreeq := [0] } : State).pfreeq.length < (running .sync 0).params.m := by decide

theorem test_meets_DisabledAudioEmitsOnlyNull :
    (running .active 0).audioEn = false ∧ leaves .tick (running .active 0) (fun t => t.lifecycle == .started) = true := by decide

theorem test_meets_RingPushResult :
    ((fresh true).live = false ∧ (fresh true).lifecycle ≠ .halted) ∧ ready.live = true ∧ State.writeSize { ready with ringWr := 7 } = 0 ∧ ready.writeSize ≠ 0 ∧
    RingInv ready := by decide

theorem test_meets_RingBulkWriteResult :
    ((fresh true).live = false ∧ (fresh true).lifecycle ≠ .halted) ∧ ready.live = true ∧ ready.writeSize.toNat ≤ (7 : Half).toNat ∧ (6 : Half).toNat < ready.writeSize.toNat ∧
    ready.writeSize.toNat < (8 : Half).toNat ∧ (7 : Half).toNat ≤ ready.writeSize.toNat ∧ RingInv ready := by decide

theorem test_meets_RingSizeReadsResult :
    ((fresh true).live = false ∧ (fresh true).lifecycle ≠ .halted) ∧ ready.live = true := by decide

/-- The read size is 2: slot 0 is written, slot 1 is not. -/
theorem test_meets_RingReadSideResult :
    let s := { ready with ringWr := 2, mem := { Memory.empty with ring := [(0, 9), (1, 0), (2, 0), (3, 0)] } }
    ((fresh true).live = false ∧ (fresh true).lifecycle ≠ .halted) ∧ s.live = true ∧ s.readSize.toNat ≤ (2 : Half).toNat ∧ ((1 : Half).toNat < s.readSize.toNat ∧ s.written 1 = false) ∧
    s.ringSlot 0 = some 9 ∧ s.readSize.toNat < (3 : Half).toNat ∧ (2 : Half).toNat ≤ s.readSize.toNat := by decide

theorem test_meets_RingSizesSum : ready.params.legal = true := by decide

theorem test_meets_PushedFrameIsPublishedLast :
    RingInv { ready with ringWr := 2 } ∧ State.live { ready with ringWr := 2 } = true ∧
    State.writeSize { ready with ringWr := 2 } ≠ 0 ∧ (∃ t, exec .ringPush { ready with ringWr := 2 } = .next t) ∧
    (1 : Half).toNat < (State.readSize { ready with ringWr := 2 }).toNat :=
  ⟨by decide, by decide, by decide, ⟨_, rfl⟩, by decide⟩

theorem test_meets_AdvanceMovesOneLine :
    (running .frontPorch 1).vctr.toNat + 1 = tableT0.vFrontPorch.toNat ∧
    (running .sync 0).vctr.toNat + 1 = tableT0.vSyncWidth.toNat ∧
    (running .backPorch 0).vctr.toNat + 1 = tableT0.vBackPorch.toNat ∧
    (running .active 3).vctr.toNat + 1 = tableT0.vActiveLines.toNat ∧
    (running .active 2).vctr.toNat + 1 ≠ (phaseLen tableT0 (running .active 2).phase).toNat := by decide

theorem test_meets_FrameTakesItsTicks :
    PoolInv (running .active 3) ∧ LifecycleInv (running .active 3) ∧ PositionInv (running .active 3) ∧
    (running .active 3).lifecycle = .started := by decide

/-- Audio on, the pair 1 encoded and waiting. -/
def playing (ph : Phase) (v : Half) : State :=
  { running ph v with audioEn := true, pfreeq := [0], pvalidq := [1] }

/-- The island a TICK installs and the queues of pairs it leaves. -/
def islandAfter (s : State) (isl : IslandSrc) (free valid : List Handle) : Bool :=
  leaves .tick s fun t => t.prog.any (fun p => p.island == isl) && t.pfreeq == free && t.pvalidq == valid

/-- R173 with the gate on: the lines 0 of an even and of an odd frame, line 1, the lines after it, SYNC, and no pair. -/
theorem test_tick_audio :
    islandAfter { playing .active 3 with frame := 1 } .avi [0] [1] = true ∧
    islandAfter (playing .active 3) .ainfo [0] [1] = true ∧
    islandAfter (playing .frontPorch 0) .acr [0] [1] = true ∧
    islandAfter (playing .frontPorch 1) (.pair 1 true) [0, 1] [] = true ∧
    islandAfter (playing .sync 0) (.pair 1 false) [0, 1] [] = true ∧
    islandAfter { playing .backPorch 0 with pfreeq := [0, 1], pvalidq := [] } (.null false) [0, 1] [] = true := by decide

/-- With audio off and on, where a pair waits and where none does. -/
theorem test_meets_TickInstallsTheNextLine :
    (PoolInv (running .active 3) ∧ (running .active 3).allocated = true ∧ (running .active 3).audioEn = false) ∧
    (PoolInv (playing .sync 0) ∧ (playing .sync 0).allocated = true ∧ (playing .sync 0).audioEn = true ∧
      (playing .sync 0).pvalidq = 1 :: []) ∧
    PoolInv { playing .sync 0 with pfreeq := [0, 1], pvalidq := [] } := by decide

/-- A TICK into each phase, onto a line outside the band, onto an alternate line that ends its group with a buffer held, onto
a line that ends its group with a buffer held and with one acquired, onto one that does not end it, with no buffer, and behind
a late buffer while another is released. -/
theorem test_meets_TickSelectsTheTemplate :
    leaves .tick (running .frontPorch 1) (fun t => t.phase == .sync && t.lifecycle == .started) = true ∧
    leaves .tick (running .active 3) (fun t => t.phase == .frontPorch) = true ∧
    leaves .tick (running .sync 0) (fun t => t.phase == .backPorch) = true ∧
    leaves .tick { running .backPorch 0 with bandFirst := 1 } (fun t => t.phase == .active && t.vctr.toNat == 0) = true ∧
    leaves .tick { running .active 0 with k := 2, scanlineEmu := 1, freeq := [1, 2, 3], cur := some 0 }
      (fun t => t.vctr.toNat % 2 == 1 && t.rel0 == some 0 && t.cur == none && t.prog.any fun p => p.template == .blanked) = true ∧
    leaves .tick { running .backPorch 0 with k := 2, freeq := [1, 2, 3], validq := [0] }
      (fun t => t.vctr.toNat % 2 == 0 && t.cur == some 0 && t.rel0 == none) = true ∧
    leaves .tick { running .active 0 with k := 2, freeq := [1, 2, 3], cur := some 0 }
      (fun t => t.phase == .active && t.vctr.toNat % 2 == 1 && t.rel0 == some 0) = true ∧
    leaves .tick { running .backPorch 0 with freeq := [1, 2, 3], validq := [0] }
      (fun t => t.prog.any fun p => p.buf == some 0) = true ∧
    leaves .tick (running .backPorch 0) (fun t => t.prog.any fun p => p.template == .error) = true ∧
    leaves .tick { running .backPorch 0 with freeq := [3], rel1 := some 2, validq := [0, 1], token := [7, 0, 0, 0] }
      (fun t => t.freeq == [3, 2, 0] && t.lateCnt == 1 && t.validq == [] && t.prog.any fun p => p.buf == some 1) = true := by
  decide

/-- `VALIDQ = [0, 1]` with tokens 2 and 3: 95 section 2.3. -/
theorem test_meets_AcquireRecyclesLateBuffers :
    let s := { ready with freeq := [2, 3], validq := [0, 1], token := [2, 3, 0, 0] }
    ((∀ x ∈ [(0 : Handle)], (s.tokenOf x).toNat ≠ 3) ∧ s.freeq.length + 1 ≤ s.params.n ∧ s.validq = [0] ++ 1 :: [] ∧
      (s.tokenOf 1).toNat = 3 ∧ 1 < s.params.n) ∧
    ((∀ x ∈ [(0 : Handle), 1], (s.tokenOf x).toNat ≠ 0) ∧ s.freeq.length + 2 ≤ s.params.n ∧ s.validq = [0, 1]) := by decide

theorem test_meets_ReleaseStepMovesOneStage :
    ready.rel1 = none ∧ ({ ready with freeq := [0, 2], rel1 := some 1, rel0 := some 3 } : State).rel1 = some 1 ∧
    ({ ready with freeq := [0, 2, 3] } : State).freeq.length < ready.params.n := by decide

theorem test_meets_BufferIsFreeTwoTicksLater :
    PoolInv { running .active 0 with freeq := [1, 2, 3], rel0 := some 0 } ∧ (running .active 0).allocated = true ∧
    leaves .tick { running .active 0 with freeq := [1, 2, 3], rel0 := some 0 } (fun t => leaves .tick t fun u => u.freeq == [1, 2, 3, 0])
      = true := by decide

theorem test_meets_TickPatchesOnlySourceFields :
    leaves .tick { running .backPorch 0 with freeq := [1, 2, 3], validq := [0] }
      (fun t => t.lifecycle == .started && t.prog.any fun p => p.buf == some 0) = true ∧ 1 < (running .active 0).params.l ∧
    leaves .tick (running .frontPorch 0) (fun t => t.lifecycle == .started && t.prog.any fun p => p.buf == none) = true ∧
    ¬ inActiveField params0 .tplmem 0 := by
  refine ⟨by decide, by decide, by decide, ?_⟩
  rintro ⟨-, l, -, -, h, -⟩
  simp [tplIndex, Template.code] at h

theorem test_meets_LifecycleFollowsTheTable :
    leaves (.init 1) (fresh true) (fun t => t.lifecycle == .initialized) = true ∧
    leaves .start { ready with irqCore := 0 } (fun t => t.lifecycle == .started) = true ∧
    leaves .stop (running .active 0) (fun t => t.lifecycle == .stopped) = true ∧
    leaves .destroy ready (fun t => t.lifecycle == .destroyed) = true ∧
    leaves (.ringAdvanceRead 1) ready (fun t => t.lifecycle == .halted) = true := by decide

theorem test_meets_TimingAndCountersHaveFewWriters :
    (∃ t, exec .ringPush ready = .next t) ∧ Instr.ringPush ≠ .tick ∧ Instr.ringPush ≠ .start ∧ ∀ m, Instr.ringPush ≠ .init m :=
  ⟨⟨_, rfl⟩, by decide, by decide, by simp⟩

theorem test_meets_RingSidesAreSeparate :
    (∃ t, exec .ringPush ready = .next t) ∧ Instr.ringPush.wellFormed (.port .source) = true ∧
    (∃ t, exec (.ringAdvanceWrite 8) ready = .next t) ∧ (∃ t, exec (.ringAdvanceRead 0) ready = .next t) ∧ (Instr.ringAdvanceRead 0).wellFormed (.port .producer) = true :=
  ⟨⟨_, rfl⟩, by decide, ⟨_, rfl⟩, ⟨_, rfl⟩, by decide⟩

/-- One state, with a buffer held on the first line of its group, that meets every invariant, and its next step. -/
theorem test_meets_StepKeepsTheInvariants :
    let s := atTurn .lanes { running .active 0 with k := 2, freeq := [1, 2, 3], cur := some 0 }
    PoolInv s ∧ LifecycleInv s ∧ PositionInv s ∧ RingInv s ∧ s.mem.wf ∧ DisplayInv s ∧ ∃ t, step s = .next t := by
  refine ⟨by decide, by decide, by decide, by decide, by decide, fun _ h hh => ?_, _, rfl⟩
  obtain rfl : (0 : Handle) = h := Option.some.inj hh
  decide

theorem test_meets_BuffersAreShownOnTheirLine :
    let s := { running .active 0 with k := 2, freeq := [1, 2, 3], cur := some 0 }
    PoolInv s ∧ LifecycleInv s ∧ PositionInv s ∧ DisplayInv s ∧ s.lifecycle = .started ∧
    leaves .tick s (fun t => t.prog.any fun p => p.buf == some 0) = true := by
  refine ⟨by decide, by decide, by decide, fun _ h hh => ?_, by decide, by decide⟩
  obtain rfl : (0 : Handle) = h := Option.some.inj hh
  decide

/-- Two buffers for lines 0 and 1, a stall of all four lines. -/
theorem test_meets_StarvationIsCountedExactly :
    let s := { running .backPorch 0 with freeq := [2, 3], validq := [0, 1], token := [0, 1, 0, 0] }
    PoolInv s ∧ LifecycleInv s ∧ PositionInv s ∧ s.lifecycle = .started ∧ s.k = 1 ∧ s.bandFirst = 0 ∧
    s.bandEnd = s.tt.vActiveLines ∧ s.scanlineEmu = 0 ∧ s.cur = none ∧ (advance s).phase = .active ∧
    (advance s).vctr.toNat = 0 ∧ 0 + 4 ≤ s.tt.vActiveLines.toNat ∧
    (∀ j : Nat, j < s.validq.length → ∀ h ∈ s.validq[j]?, (s.tokenOf h).toNat = 0 + j) ∧ s.validq.length < 4 := by
  refine ⟨by decide, by decide, by decide, by decide, by decide, by decide, by decide, by decide, by decide, by decide,
    by decide, by decide, fun j hj h hh => ?_, by decide⟩
  match j, hj with
  | 0, _ => obtain rfl : (0 : Handle) = h := Option.some.inj hh; rfl
  | 1, _ => obtain rfl : (1 : Handle) = h := Option.some.inj hh; rfl

end Sys2Proof.Tests
end

/-! PROOFS. The family 10_state.md: what every step keeps of the pools, the lifecycle, FAULT and the ring offsets, who
writes the timing state, the static streams of INIT, and the values after power-on reset. -/

namespace Sys2Proof.Machine

/-! ## A step taken apart -/

/-- The machine with its ports, its bus and the outside replaced: all that the delivery and the result of a command
change. -/
def State.withOutside (s : State) (control producer source : Port) (bus : Bus) (env : Env) : State :=
  { s with control := control, producer := producer, source := source, bus := bus, env := env }

theorem State.setPort_eq_withOutside (s : State) (p : PortId) (q : Port) :
    ∃ a b c, s.setPort p q = s.withOutside a b c s.bus s.env := by
  cases p
  · exact ⟨q, s.producer, s.source, rfl⟩
  · exact ⟨s.control, q, s.source, rfl⟩
  · exact ⟨s.control, s.producer, q, rfl⟩

/-- A property that does not read the ports, the bus and the outside is kept by every step whose effect, TICK and fault
keep it. -/
theorem Kept.of_withOutside {P : State → Prop} (outside : ∀ s a b c d e, P s → P (s.withOutside a b c d e))
    (effect : ∀ i s u, P s → Effect i s u → P u)
    (tick : ∀ s t, P s → s.ticking = true → tickSteps s = .ok t → P t)
    (halt : ∀ s c, P s → P (s.halt c)) : Kept P := by
  have port : ∀ s p q, P s → P (s.setPort p q) := fun s p q h => by
    obtain ⟨a, b, c, e⟩ := s.setPort_eq_withOutside p q
    exact e ▸ outside s a b c s.bus s.env h
  exact {
    turn := fun s h => outside s s.control s.producer s.source s.bus s.takeTurn.env h
    issued := fun s p cs h => by
      cases p <;> exact outside s s.control s.producer s.source s.bus _ h
    latch := fun s p c h => by
      have h := port s p { s.port p with d0 := c.d0, d1 := c.d1, d2 := c.d2, d3 := c.d3 } h
      exact outside _ _ _ _ { port := p, cmd := c } _ h
    reply := fun s _ _ h => port s _ _ h
    hold := fun s h => port s _ _ h
    raise := fun s c h _ => port _ _ _ (halt s c h)
    effect := effect
    tick := tick
    halt := fun s c h _ => halt s c h }

/-! ## What a command that completes leaves alone -/

/-- The five commands that change the lifecycle or the interrupt core (R83). -/
def changesLifecycle : Instr → Bool
  | .init _ | .registerIrq _ | .start | .stop | .destroy => true
  | _ => false

/-- Every other command that completes changes, at most, configuration registers, queues, the producer's holdings, memory,
ring offsets, the audio gate and the frame index; the gate opens only where the audio is valid (R180). -/
theorem Effect.frame {i : Instr} {s u : State} (h : Effect i s u) (hi : changesLifecycle i = false) :
    (u.audioEn = true → s.audioEn = true ∨ s.audioOk = true) ∧ u = { s with
      cfgRepeatK := u.cfgRepeatK, cfgBandFirst := u.cfgBandFirst, cfgBandCount := u.cfgBandCount
      cfgScanlineEmu := u.cfgScanlineEmu, cfgSampleRate := u.cfgSampleRate
      freeq := u.freeq, validq := u.validq, pfreeq := u.pfreeq, pvalidq := u.pvalidq
      prodBufs := u.prodBufs, prodPair := u.prodPair, token := u.token, filled := u.filled
      mem := u.mem, ringWr := u.ringWr, ringRd := u.ringRd
      audioEn := u.audioEn, audFrameIdx := u.audFrameIdx } := by
  cases i with
  | init mode => cases hi
  | registerIrq c => cases hi
  | start => cases hi
  | stop => cases hi
  | destroy => cases hi
  | tick => cases h
  | writeCfg idx v => obtain ⟨-, rfl⟩ := h; rw [setCfg_eq]; exact ⟨.inl, rfl⟩
  | acquireFreeBuffer => obtain ⟨-, _, _, -, rfl⟩ := h; exact ⟨.inl, rfl⟩
  | fillBuffer b => obtain ⟨-, -, -, rfl⟩ := h; exact ⟨.inl, rfl⟩
  | submitValidBuffer b tok => obtain ⟨-, -, -, rfl⟩ := h; exact ⟨.inl, rfl⟩
  | acquireFreeAudioSlot => obtain ⟨-, rfl | ⟨_, _, -, -, rfl⟩⟩ := h <;> exact ⟨.inl, rfl⟩
  | submitAudioSamples => obtain ⟨-, _, _, _, -, rfl⟩ := h; exact ⟨.inl, rfl⟩
  | setAudioEnabled b => obtain ⟨-, hb, rfl⟩ := h; exact ⟨fun hu => .inr (hb (beq_iff_eq.1 hu)), rfl⟩
  | ringPush => obtain ⟨-, rfl⟩ := h; exact ⟨.inl, rfl⟩
  | ringWriteSlot k => obtain ⟨-, rfl⟩ := h; exact ⟨.inl, rfl⟩
  | ringAdvanceWrite n => obtain ⟨-, rfl⟩ := h; exact ⟨.inl, rfl⟩
  | ringAdvanceRead n => obtain ⟨-, rfl⟩ := h; exact ⟨.inl, rfl⟩
  | ringPopAvailable => cases h; exact ⟨.inl, rfl⟩
  | ringReadSlot k => cases h; exact ⟨.inl, rfl⟩
  | ringWriteSize => cases h; exact ⟨.inl, rfl⟩
  | readDiag sel => cases h; exact ⟨.inl, rfl⟩

/-- What START leaves, in closed form but for the memory (R236). -/
theorem Effect.start_eq {s u : State} (h : Effect .start s u) :
    ∃ p, u = { s with
      phase := .frontPorch, vctr := 0, prog := some p, irqEn := true, lifecycle := .started
      mem := u.mem, env := { s.env with trace := s.env.trace ++ [p] } } := by
  obtain ⟨-, -, h⟩ := h
  rw [startEffects_eq, install_eq] at h
  cases Except.ok.inj h
  exact ⟨_, rfl⟩

/-- What STOP leaves in closed form (R237, R241). -/
theorem Effect.stop_eq {s u : State} (h : Effect .stop s u) :
    (s.lifecycle ≠ .started ∧ s.lifecycle ≠ .halted ∧ u = s) ∨ (s.lifecycle = .started ∧ u = { s with
      lifecycle := .stopped, irqEn := false, prog := none, laneLine := none
      freeq := s.freeq ++ (s.inFlight ++ s.validq), validq := []
      rel1 := none, rel0 := none, cur := none
      pfreeq := s.pfreeq ++ s.pvalidq, pvalidq := [] }) := by
  obtain h | ⟨hl, t, ht, rfl⟩ := h
  · exact .inl h
  · exact .inr ⟨hl, by rw [stopSteps_ok ht]⟩

/-- What DESTROY leaves in closed form (R238, R241): the pools of the state, or of the one STOP leaves, are freed. -/
theorem Effect.destroy_eq {s u : State} (h : Effect .destroy s u) :
    ((s.lifecycle = .uninit ∨ s.lifecycle = .destroyed) ∧ u = s) ∨
      (s.live = true ∧ ∃ t, Effect .stop s t ∧ u = freePools t) := by
  obtain h | ⟨hl, -, -, t, ht, rfl⟩ := h
  · exact .inl h
  · refine .inr ⟨hl, ?_⟩
    split at ht
    · exact ⟨_, .inr ⟨‹_›, t, ht, rfl⟩, rfl⟩
    · cases Except.ok.inj ht
      exact ⟨s, .inl ⟨‹_›, live_not_halted hl, rfl⟩, rfl⟩

/-- While HALTED no command that completes changes anything. -/
theorem Effect.of_halted {i : Instr} {s u : State} (h : Effect i s u) (hs : s.lifecycle = .halted) : u = s := by
  have dead : s.live ≠ true := fun hl => live_not_halted hl hs
  cases i with
  | init mode => exact absurd h.1 (by simp [hs])
  | registerIrq c => exact absurd h.1 (by simp [hs])
  | start => exact absurd h.1 (by simp [hs])
  | stop =>
    obtain ⟨-, -, h⟩ | ⟨h, -⟩ := h
    · exact h
    · exact absurd h (by simp [hs])
  | destroy =>
    obtain ⟨-, h⟩ | ⟨h, -⟩ := h
    · exact h
    · exact absurd h dead
  | writeCfg idx v => exact absurd hs h.1
  | ringPopAvailable => exact h
  | ringReadSlot k => exact h
  | ringWriteSize => exact h
  | readDiag sel => exact h
  | tick => exact absurd h id
  | _ => exact absurd h.1 dead

/-! ## The pools -/

/-- The pool invariants survive any rearrangement of the handles. -/
theorem PoolInv.of_perm {s t : State} (h : PoolInv s) (hp : t.params = s.params) (ha : t.allocated = s.allocated)
    (ho : s.allocated = true → t.owned.Perm s.owned) (hq : s.allocated = true → t.pairsOwned.Perm s.pairsOwned)
    (ht : t.token.length = s.token.length) (hf : t.filled.length = s.filled.length) : PoolInv t := by
  refine ⟨hp ▸ h.1, fun hta => ?_⟩
  have hsa := ha ▸ hta
  obtain ⟨h1, h2, h3, h4⟩ := h.2 hsa
  exact ⟨hp ▸ (ho hsa).trans h1, hp ▸ (hq hsa).trans h2, by rw [ht, h3, hp], by rw [hf, h4, hp]⟩

/-- The head of `FREEQ` is not the PRODUCER's, and gaining it the PRODUCER's set grows by it alone. -/
theorem PoolInv.insertHandle_count {s : State} (h : PoolInv s) (ha : s.allocated = true) {b : Handle}
    {rest : List Handle} (hb : s.freeq = b :: rest) (x : Handle) :
    (insertHandle b s.prodBufs).count x = [b].count x + s.prodBufs.count x := by
  have hn : b ∉ s.prodBufs := by
    have hd := (h.owned ha).2
    rw [State.owned, hb] at hd
    simp only [List.cons_append, List.nodup_cons, List.mem_append, not_or] at hd
    obtain ⟨⟨-, hn⟩, -⟩ := hd
    exact hn
  rw [(insertHandle_perm hn).count_eq, ← List.singleton_append, List.count_append]

/-- A buffer of the PRODUCER taken out, the set shrinks by it alone. -/
theorem PoolInv.removeHandle_count {s : State} (h : PoolInv s) (ha : s.allocated = true) {b : Handle}
    (hb : b ∈ s.prodBufs) (x : Handle) :
    s.prodBufs.count x = [b].count x + (removeHandle b s.prodBufs).count x := by
  have hd : s.prodBufs.Nodup := (h.owned ha).2.of_append_right
  rw [(removeHandle_perm hb hd).count_eq, ← List.singleton_append, List.count_append]

/-- INIT's pools are full and nothing is held. -/
theorem initEffects_poolInv (tt : TimingTable) (l : Lifecycle) {s : State} (h : s.params.legal = true) :
    PoolInv { initEffects tt s with lifecycle := l } := by
  rw [initEffects_eq, setAudioValues_eq]
  refine ⟨h, fun _ => ⟨?_, ?_, ?_, ?_⟩⟩
  · simp [State.owned, clearRun, allocatePools, latchConfig, handlesBelow]
  · simp [State.pairsOwned, clearRun, allocatePools, latchConfig, handlesBelow]
  · simp [clearRun, allocatePools, latchConfig]
  · simp [clearRun, allocatePools, latchConfig]

/-- STOP returns every buffer in flight and every submitted pair to its free queue (R237). -/
theorem Effect.stop_poolInv {s u : State} (hs : PoolInv s) (h : Effect .stop s u) : PoolInv u := by
  obtain ⟨-, -, rfl⟩ | ⟨-, rfl⟩ := h.stop_eq
  · exact hs
  refine hs.of_perm rfl rfl (fun _ => owned_perm fun x => ?_) (fun _ => pairsOwned_perm fun x => ?_) rfl rfl
  · simp only [State.inFlight, List.count_append, Option.toList_none, List.count_nil]
    omega
  · simp only [List.count_append, List.count_nil]
    omega

/-- A command that completes keeps the pool invariants: it moves handles between the sets of R32 and R33, makes the pools
anew or frees them. -/
theorem Effect.poolInv {i : Instr} {s u : State} (hs : PoolInv s) (h : Effect i s u) : PoolInv u := by
  cases i with
  | init mode => obtain ⟨-, tt, -, rfl⟩ := h; exact initEffects_poolInv tt _ hs.1
  | registerIrq c => obtain ⟨-, -, rfl⟩ := h; exact hs
  | start => obtain ⟨p, e⟩ := h.start_eq; rw [e]; exact hs
  | stop => exact Effect.stop_poolInv hs h
  | destroy =>
    obtain ⟨-, rfl⟩ | ⟨-, t, ht, rfl⟩ := h.destroy_eq
    · exact hs
    · exact ⟨(Effect.stop_poolInv hs ht).1, fun ha => by cases ha⟩
  | writeCfg idx v => obtain ⟨-, rfl⟩ := h; rw [setCfg_eq]; exact hs
  | acquireFreeBuffer =>
    obtain ⟨-, b, rest, hb, rfl⟩ := h
    refine hs.of_perm rfl rfl (fun ha => owned_perm fun x => ?_) (fun _ => .refl _) rfl (by simp [State.setFilled])
    have hc := hs.insertHandle_count ha hb x
    have hf : s.freeq.count x = [b].count x + rest.count x := by
      rw [hb, ← List.singleton_append, List.count_append]
    simp only [State.setFilled]
    omega
  | fillBuffer b =>
    obtain ⟨-, -, -, rfl⟩ := h
    exact hs.of_perm rfl rfl (fun _ => .refl _) (fun _ => .refl _) rfl (by simp [State.setFilled])
  | submitValidBuffer b tok =>
    obtain ⟨-, hb, -, rfl⟩ := h
    refine hs.of_perm rfl rfl (fun ha => owned_perm fun x => ?_) (fun _ => .refl _) (by simp [State.setToken]) rfl
    have hc := hs.removeHandle_count ha hb x
    simp only [State.setToken, List.count_append]
    omega
  | acquireFreeAudioSlot =>
    obtain ⟨-, rfl | ⟨p, rest, hn, hq, rfl⟩⟩ := h
    · exact hs
    · refine hs.of_perm rfl rfl (fun _ => .refl _) (fun _ => pairsOwned_perm fun x => ?_) rfl rfl
      simp only [hn, hq, Option.toList_some, Option.toList_none, List.count_cons, List.count_nil]
      omega
  | submitAudioSamples =>
    obtain ⟨-, p, pkt, rest, hp, rfl⟩ := h
    refine hs.of_perm rfl rfl (fun _ => .refl _) (fun _ => pairsOwned_perm fun x => ?_) rfl rfl
    obtain ⟨hn, rfl⟩ | ⟨hn, hq⟩ := hp
    · simp only [hn, Option.toList_some, Option.toList_none, List.count_append, List.count_nil]
      omega
    · simp only [hn, hq, Option.toList_none, List.count_append, List.count_cons, List.count_nil]
      omega
  | setAudioEnabled b => obtain ⟨-, -, rfl⟩ := h; exact hs
  | ringPush => obtain ⟨-, rfl⟩ := h; exact hs
  | ringWriteSlot k => obtain ⟨-, rfl⟩ := h; exact hs
  | ringAdvanceWrite n => obtain ⟨-, rfl⟩ := h; exact hs
  | ringAdvanceRead n => obtain ⟨-, rfl⟩ := h; exact hs
  | ringPopAvailable => cases h; exact hs
  | ringReadSlot k => cases h; exact hs
  | ringWriteSize => cases h; exact hs
  | readDiag sel => cases h; exact hs
  | tick => cases h

/-- A TICK keeps the pool invariants: it moves handles and loses none. -/
theorem tickSteps_poolInv {s t : State} (h : PoolInv s) (e : tickSteps s = .ok t) : PoolInv t := by
  obtain ⟨ho, hq⟩ := tickSteps_owned e
  obtain ⟨p, -, -, -, hf⟩ := tickSteps_frame e
  exact h.of_perm (by rw [hf]) (by rw [hf]) (fun _ => ho) (fun _ => hq) (by rw [hf]) (by rw [hf])

theorem kept_poolInv : Kept PoolInv :=
  .of_withOutside (fun _ _ _ _ _ _ h => h) (fun _ _ _ h hu => hu.poolInv h) (fun _ _ h _ e => tickSteps_poolInv h e)
    (fun _ _ h => h)

/-- Settles O53: every part of a step moves handles between the sets, makes the pools anew, or frees them. -/
theorem stepKeepsThePools : Obligations.StepKeepsThePools :=
  fun _ _ h e => kept_poolInv.step h (fun _ => ⟨h.1, fun ha => by cases ha⟩) e

/-! ## The lifecycle -/

/-- What the lifecycle invariant says of a state that is neither started nor halted. -/
theorem lifecycleInv_idle {s : State} (h₁ : s.lifecycle ≠ .started) (h₂ : s.lifecycle ≠ .halted) :
    LifecycleInv s ↔ (s.live = s.allocated ∧ s.irqEn = false ∧ s.prog = none ∧ s.laneLine = none ∧ s.fault = 0 ∧
      (s.cur = none ∧ s.rel0 = none ∧ s.rel1 = none) ∧ (s.audioEn = true → s.audioOk = true)) := by
  have hl : s.lifecycle = .uninit ∨ s.lifecycle = .destroyed ↔ s.live = false := by
    unfold State.live
    cases hs : s.lifecycle <;> simp_all
  simp only [LifecycleInv, hl, h₁]
  cases s.live <;> simp <;> tauto

theorem idle_of_atRest {s : State} (h : s.lifecycle = .initialized ∨ s.lifecycle = .stopped) :
    s.lifecycle ≠ .started ∧ s.lifecycle ≠ .halted := by
  rcases h with h | h <;> simp [h]

/-- What the lifecycle invariant says of a started state. -/
theorem lifecycleInv_started {s : State} (h : s.lifecycle = .started) :
    LifecycleInv s ↔ (s.allocated = true ∧ s.irqEn = true ∧ s.prog ≠ none ∧ s.irqCore ≠ 0xFF ∧ s.fault = 0 ∧
      (s.audioEn = true → s.audioOk = true)) := by
  simp [LifecycleInv, State.live, h]

/-- STOP keeps the lifecycle invariant, and leaves a state that is at rest (R237). -/
theorem Effect.stop_lifecycleInv {s u : State} (hs : LifecycleInv s) (h : Effect .stop s u) :
    u.lifecycle ≠ .started ∧ u.lifecycle ≠ .halted ∧ LifecycleInv u := by
  obtain ⟨h1, h2, rfl⟩ | ⟨hl, rfl⟩ := h.stop_eq
  · exact ⟨h1, h2, hs⟩
  · obtain ⟨ha, -, -, -, hf, hg⟩ := (lifecycleInv_started hl).1 hs
    exact ⟨by simp, by simp, (lifecycleInv_idle (by simp) (by simp)).2
      ⟨by simp [State.live, ha], rfl, rfl, rfl, hf, ⟨rfl, rfl, rfl⟩, hg⟩⟩

/-- A command that completes keeps the lifecycle invariant. -/
theorem Effect.lifecycleInv {i : Instr} {s u : State} (hs : LifecycleInv s) (h : Effect i s u) : LifecycleInv u := by
  cases i with
  | init mode =>
    obtain ⟨hl, tt, -, rfl⟩ := h
    have h1 : s.lifecycle ≠ .started := by rcases hl with hl | hl <;> simp [hl]
    have h2 : s.lifecycle ≠ .halted := by rcases hl with hl | hl <;> simp [hl]
    obtain ⟨-, -, -, -, hf, -⟩ := (lifecycleInv_idle h1 h2).1 hs
    rw [initEffects_eq, setAudioValues_eq]
    exact (lifecycleInv_idle (by simp) (by simp)).2
      ⟨rfl, rfl, rfl, rfl, hf, ⟨rfl, rfl, rfl⟩, fun hb => by cases hb⟩
  | registerIrq c =>
    obtain ⟨hl, -, rfl⟩ := h
    obtain ⟨h1, h2⟩ := idle_of_atRest hl
    have hi := (lifecycleInv_idle h1 h2).1 hs
    exact (lifecycleInv_idle (s := { s with irqCore := c }) h1 h2).2 hi
  | start =>
    obtain ⟨p, e⟩ := h.start_eq
    obtain ⟨hl, hc, -⟩ := h
    obtain ⟨h1, h2⟩ := idle_of_atRest hl
    obtain ⟨ha, -, -, -, hf, -, hg⟩ := (lifecycleInv_idle h1 h2).1 hs
    have hlive : s.live = true := live_iff.2 (hl.imp_right .inr)
    rw [e]
    exact (lifecycleInv_started rfl).2 ⟨ha ▸ hlive, rfl, by simp, hc, hf, hg⟩
  | stop => exact (Effect.stop_lifecycleInv hs h).2.2
  | destroy =>
    obtain ⟨-, rfl⟩ | ⟨-, t, ht, rfl⟩ := h.destroy_eq
    · exact hs
    · obtain ⟨h1, h2, hi⟩ := Effect.stop_lifecycleInv hs ht
      obtain ⟨-, -, hp, hll, hf, hb, -⟩ := (lifecycleInv_idle h1 h2).1 hi
      exact (lifecycleInv_idle (by simp [freePools]) (by simp [freePools])).2
        ⟨rfl, rfl, hp, hll, hf, hb, fun hb => by cases hb⟩
  | _ =>
    obtain ⟨hg, e⟩ := h.frame rfl
    obtain ⟨h1, h2, h3, h4, h5, h6, h7, h8, h9⟩ := hs
    rw [e]
    exact ⟨h1, h2, h3, h4, h5, h6, h7, h8, fun hb => (hg hb).elim h9 id⟩

/-- A TICK leaves a started ENGINE started, with a line installed. -/
theorem tickSteps_lifecycleInv {s t : State} (h : LifecycleInv s) (hl : s.lifecycle = .started)
    (e : tickSteps s = .ok t) : LifecycleInv t := by
  obtain ⟨ha, hi, -, hc, hf, hg⟩ := (lifecycleInv_started hl).1 h
  obtain ⟨p, -, -, -, ht⟩ := tickSteps_frame e
  rw [ht]
  refine (lifecycleInv_started ?_).2 ⟨ha, hi, ?_, hc, hf, hg⟩
  · exact hl
  · simp

theorem ticking_started {s : State} (h : s.ticking = true) : s.lifecycle = .started := by
  simp only [State.ticking, Bool.and_eq_true, beq_iff_eq] at h
  obtain ⟨⟨hl, -⟩, -⟩ := h
  exact hl

theorem State.halt_fault_ne_zero (s : State) (c : FaultCode) : (s.halt c).fault ≠ 0 := by
  rw [State.halt_fault]
  split
  · exact c.code_ne_zero
  · assumption

/-- A fault leaves a HALTED ENGINE with its FAULT set, the interrupt off and the lanes aborted (R264). -/
theorem halt_lifecycleInv {s : State} (h : LifecycleInv s) (c : FaultCode) : LifecycleInv (s.halt c) := by
  obtain ⟨-, -, -, -, -, -, -, -, hg⟩ := h
  have hf := s.halt_fault_ne_zero c
  refine ⟨?_, ?_, ?_, ?_, ?_, ?_, iff_of_false hf (by simp), ?_, hg⟩ <;> simp [State.live]

theorem kept_lifecycleInv : Kept LifecycleInv :=
  .of_withOutside (fun _ _ _ _ _ _ h => h) (fun _ _ _ h hu => hu.lifecycleInv h)
    (fun _ _ h ht e => tickSteps_lifecycleInv h (ticking_started ht) e) (fun _ c h => halt_lifecycleInv h c)

theorem resetWith_lifecycleInv (p : Params) : LifecycleInv (State.resetWith p) := by
  refine (lifecycleInv_idle ?_ ?_).2 ⟨rfl, rfl, rfl, rfl, rfl, ⟨rfl, rfl, rfl⟩, fun h => by cases h⟩ <;>
    simp [State.resetWith]

/-- Settles O54: every command that completes, a TICK and a fault keep what the lifecycle state says of the rest. -/
theorem stepKeepsTheLifecycle : Obligations.StepKeepsTheLifecycle :=
  fun s _ h e => kept_lifecycleInv.step h (fun _ => resetWith_lifecycleInv s.params) e

/-! ## FAULT -/

/-- `FAULT` is that of `s`, or it was 0 there and the ENGINE has halted with a code of R263. -/
def FaultFrom (s u : State) : Prop :=
  u.fault = s.fault ∨ (s.fault = 0 ∧ u.lifecycle = .halted ∧ ∃ c : FaultCode, u.fault = c.code)

/-- A fault raised sets `FAULT` where it is 0, and leaves it where it is not (R264). -/
theorem FaultFrom.halt {s u : State} (h : FaultFrom s u) (c : FaultCode) : FaultFrom s (u.halt c) := by
  obtain h | ⟨h0, -, d, hd⟩ := h
  · by_cases hs : s.fault = 0
    · exact .inr ⟨hs, rfl, c, by rw [State.halt_fault, h, if_pos hs]⟩
    · exact .inl (by rw [State.halt_fault, h, if_neg hs])
  · exact .inr ⟨h0, rfl, d, by rw [State.halt_fault, hd, if_neg d.code_ne_zero]⟩

theorem kept_faultFrom (s : State) : Kept (FaultFrom s) := by
  refine .of_withOutside (fun _ _ _ _ _ _ h => h) (fun i u v h hu => ?_) (fun u v h ht e => ?_) fun _ c h => h.halt c
  · obtain h | ⟨h0, hh, hc⟩ := h
    · exact .inl (hu.stays.fault.trans h)
    · exact hu.of_halted hh ▸ .inr ⟨h0, hh, hc⟩
  · obtain h | ⟨-, hh, -⟩ := h
    · exact .inl ((tickSteps_stays e).fault.trans h)
    · rw [ticking_started ht] at hh
      cases hh

/-- Settles O11: FAULT changes only where a fault is raised, and a HALTED ENGINE keeps it. -/
theorem faultIsSticky : Obligations.FaultIsSticky := by
  intro s t e hp hne
  exact ((kept_faultFrom s).step (.inl rfl) (fun h => absurd h hp) e).resolve_left hne

/-! ## The ring offsets -/

/-- A command that completes leaves a ring offset where it was, moves it within the ring, or clears it (R35). -/
theorem Effect.ringOffsets {i : Instr} {s u : State} (h : Effect i s u) :
    (u.ringWr = s.ringWr ∨ u.ringWr = 0 ∨ ∃ k, u.ringWr = ringSlotAt s.params s.ringWr k) ∧
      (u.ringRd = s.ringRd ∨ u.ringRd = 0 ∨ ∃ k, u.ringRd = ringSlotAt s.params s.ringRd k) := by
  cases i with
  | init mode =>
    obtain ⟨-, tt, -, rfl⟩ := h
    rw [initEffects_eq, setAudioValues_eq]
    exact ⟨.inr (.inl rfl), .inr (.inl rfl)⟩
  | registerIrq c => obtain ⟨-, -, rfl⟩ := h; exact ⟨.inl rfl, .inl rfl⟩
  | start => obtain ⟨p, e⟩ := h.start_eq; rw [e]; exact ⟨.inl rfl, .inl rfl⟩
  | stop => obtain ⟨-, -, rfl⟩ | ⟨-, rfl⟩ := h.stop_eq <;> exact ⟨.inl rfl, .inl rfl⟩
  | destroy =>
    obtain ⟨-, rfl⟩ | ⟨-, t, -, rfl⟩ := h.destroy_eq
    · exact ⟨.inl rfl, .inl rfl⟩
    · exact ⟨.inr (.inl rfl), .inr (.inl rfl)⟩
  | writeCfg idx v => obtain ⟨-, rfl⟩ := h; rw [setCfg_eq]; exact ⟨.inl rfl, .inl rfl⟩
  | acquireFreeBuffer => obtain ⟨-, _, _, -, rfl⟩ := h; exact ⟨.inl rfl, .inl rfl⟩
  | fillBuffer b => obtain ⟨-, -, -, rfl⟩ := h; exact ⟨.inl rfl, .inl rfl⟩
  | submitValidBuffer b tok => obtain ⟨-, -, -, rfl⟩ := h; exact ⟨.inl rfl, .inl rfl⟩
  | acquireFreeAudioSlot => obtain ⟨-, rfl | ⟨_, _, -, -, rfl⟩⟩ := h <;> exact ⟨.inl rfl, .inl rfl⟩
  | submitAudioSamples => obtain ⟨-, _, _, _, -, rfl⟩ := h; exact ⟨.inl rfl, .inl rfl⟩
  | setAudioEnabled b => obtain ⟨-, -, rfl⟩ := h; exact ⟨.inl rfl, .inl rfl⟩
  | ringPush => obtain ⟨-, rfl⟩ := h; exact ⟨.inr (.inr ⟨1, rfl⟩), .inl rfl⟩
  | ringWriteSlot k => obtain ⟨-, rfl⟩ := h; exact ⟨.inl rfl, .inl rfl⟩
  | ringAdvanceWrite n => obtain ⟨-, rfl⟩ := h; exact ⟨.inr (.inr ⟨n, rfl⟩), .inl rfl⟩
  | ringAdvanceRead n => obtain ⟨-, rfl⟩ := h; exact ⟨.inl rfl, .inr (.inr ⟨n, rfl⟩)⟩
  | ringPopAvailable => cases h; exact ⟨.inl rfl, .inl rfl⟩
  | ringReadSlot k => cases h; exact ⟨.inl rfl, .inl rfl⟩
  | ringWriteSize => cases h; exact ⟨.inl rfl, .inl rfl⟩
  | readDiag sel => cases h; exact ⟨.inl rfl, .inl rfl⟩
  | tick => cases h

theorem legal_zero_lt_c {p : Params} (h : p.legal = true) : (0 : Half).toNat < p.c :=
  Nat.lt_of_lt_of_le Nat.zero_lt_two (legal_c_pos h).1

/-- An offset of the ring, 0, or a masked offset is below `C`. -/
theorem ringOffset_lt {p : Params} (h : p.legal = true) {old new : Half} (ho : old.toNat < p.c)
    (hn : new = old ∨ new = 0 ∨ ∃ k, new = ringSlotAt p old k) : new.toNat < p.c := by
  obtain rfl | rfl | ⟨k, rfl⟩ := hn
  · exact ho
  · exact legal_zero_lt_c h
  · exact ringSlotAt_lt h old k

theorem Effect.ringInv {i : Instr} {s u : State} (hs : RingInv s) (h : Effect i s u) : RingInv u := by
  obtain ⟨hl, hw, hr⟩ := hs
  obtain ⟨ew, er⟩ := h.ringOffsets
  rw [RingInv, h.stays.params]
  exact ⟨hl, ringOffset_lt hl hw ew, ringOffset_lt hl hr er⟩

theorem kept_ringInv : Kept RingInv := by
  refine .of_withOutside (fun _ _ _ _ _ _ h => h) (fun _ _ _ h hu => hu.ringInv h) (fun s t h _ e => ?_) fun _ _ h => h
  obtain ⟨p, -, -, -, ht⟩ := tickSteps_frame e
  rw [ht]
  exact h

theorem resetWith_ringInv {p : Params} (h : p.legal = true) : RingInv (State.resetWith p) :=
  ⟨h, legal_zero_lt_c h, legal_zero_lt_c h⟩

/-- Settles O56: the offsets move by the masked sum of R211, or are cleared. -/
theorem stepKeepsTheRingOffsets : Obligations.StepKeepsTheRingOffsets :=
  fun _ _ h e => kept_ringInv.step h (fun _ => resetWith_ringInv h.1) e

/-! ## The timing state, the counters and the latched configuration -/

/-- The latched configuration of two states is one (R42). -/
abbrev SameConfig (s t : State) : Prop :=
  t.tt = s.tt ∧ t.k = s.k ∧ t.bandFirst = s.bandFirst ∧ t.bandEnd = s.bandEnd ∧ t.scanlineEmu = s.scanlineEmu ∧
    t.rateCode = s.rateCode

/-- A command other than INIT that completes keeps the counters and the latched configuration (R39, R42), and the position
too unless it is START (R23). -/
theorem Effect.timing {i : Instr} {s u : State} (h : Effect i s u) (hi : ∀ m, i ≠ .init m) :
    (i ≠ .start → u.phase = s.phase ∧ u.vctr = s.vctr ∧ u.frame = s.frame) ∧
      (u.lateCnt = s.lateCnt ∧ u.errCnt = s.errCnt) ∧ SameConfig s u := by
  have stopped : ∀ {v}, Effect .stop s v → (v.phase = s.phase ∧ v.vctr = s.vctr ∧ v.frame = s.frame) ∧
      (v.lateCnt = s.lateCnt ∧ v.errCnt = s.errCnt) ∧ SameConfig s v := fun h => by
    obtain ⟨-, -, rfl⟩ | ⟨-, rfl⟩ := h.stop_eq <;>
      exact ⟨⟨rfl, rfl, rfl⟩, ⟨rfl, rfl⟩, rfl, rfl, rfl, rfl, rfl, rfl⟩
  cases i with
  | init mode => exact absurd rfl (hi mode)
  | registerIrq c =>
    obtain ⟨-, -, rfl⟩ := h
    exact ⟨fun _ => ⟨rfl, rfl, rfl⟩, ⟨rfl, rfl⟩, rfl, rfl, rfl, rfl, rfl, rfl⟩
  | start =>
    obtain ⟨p, e⟩ := h.start_eq
    rw [e]
    exact ⟨fun hs => absurd rfl hs, ⟨rfl, rfl⟩, rfl, rfl, rfl, rfl, rfl, rfl⟩
  | stop =>
    obtain ⟨hp, hc, hl⟩ := stopped h
    exact ⟨fun _ => hp, hc, hl⟩
  | destroy =>
    obtain ⟨-, rfl⟩ | ⟨-, t, ht, rfl⟩ := h.destroy_eq
    · exact ⟨fun _ => ⟨rfl, rfl, rfl⟩, ⟨rfl, rfl⟩, rfl, rfl, rfl, rfl, rfl, rfl⟩
    · obtain ⟨hp, hc, hl⟩ := stopped ht
      exact ⟨fun _ => hp, hc, hl⟩
  | _ =>
    rw [(h.frame rfl).2]
    exact ⟨fun _ => ⟨rfl, rfl, rfl⟩, ⟨rfl, rfl⟩, rfl, rfl, rfl, rfl, rfl, rfl⟩

/-- Settles O50: the position, the counters and the latched configuration have the writers the rules name. -/
theorem timingAndCountersHaveFewWriters : Obligations.TimingAndCountersHaveFewWriters := by
  intro i s t e
  by_cases hi : i = .tick
  · subst hi
    have h : t.params = s.params ∧ SameConfig s t := by
      rcases execTick_next e with e | ⟨c, -, rfl⟩
      · obtain ⟨p, -, -, -, ht⟩ := tickSteps_frame e
        rw [ht]
        exact ⟨rfl, rfl, rfl, rfl, rfl, rfl, rfl⟩
      · exact ⟨rfl, rfl, rfl, rfl, rfl, rfl, rfl⟩
    exact ⟨h.1, fun hn => absurd rfl hn, fun hn => absurd rfl hn, fun _ => h.2⟩
  · rcases exec_ends hi e with ⟨rfl, -⟩ | ⟨-, c, rfl⟩ | ⟨st, rfl, -⟩ | ⟨-, rfl⟩ | ⟨v, u, hu, rfl⟩
    · simp
    · simp
    · simp
    · simp
    · refine ⟨by simpa using hu.stays.params, fun _ hs hn => ?_, fun _ hn => ?_, fun hn => ?_⟩
      · simpa using (hu.timing hn).1 hs
      · simpa using (hu.timing hn).2.1
      · simpa using (hu.timing hn).2.2

/-! ## Power-on reset -/

theorem Config.params_legal : Config.params.legal = true := by
  unfold Config.params
  split
  · assumption
  · decide

/-- Settles O52: nothing is allocated or started at reset, and the parameters are legal. -/
theorem invariantsHoldAtReset : Obligations.InvariantsHoldAtReset :=
  have legal := Config.params_legal
  ⟨⟨legal, nofun⟩, resetWith_lifecycleInv _, ⟨nofun, nofun⟩, resetWith_ringInv legal, Memory.empty_wf, nofun⟩

/-- Every command of the PRODUCER and of the SOURCE but READ_DIAG is accepted only where the pools exist (R240). -/
theorem exec_eq_whenLive {i : Instr} (h : i.wellFormed (.port .producer) = true ∨ i.wellFormed (.port .source) = true)
    (hr : ∀ sel, i ≠ .readDiag sel) : ∃ rule, exec i = command (whenLive rule) := by
  cases i with
  | readDiag sel => exact absurd rfl (hr sel)
  | acquireFreeBuffer => exact ⟨_, rfl⟩
  | fillBuffer b => exact ⟨_, rfl⟩
  | submitValidBuffer b tok => exact ⟨_, rfl⟩
  | acquireFreeAudioSlot => exact ⟨_, rfl⟩
  | submitAudioSamples => exact ⟨_, rfl⟩
  | setAudioEnabled b => exact ⟨_, rfl⟩
  | ringPopAvailable => exact ⟨_, rfl⟩
  | ringReadSlot k => exact ⟨_, rfl⟩
  | ringAdvanceRead n => exact ⟨_, rfl⟩
  | ringPush => exact ⟨_, rfl⟩
  | ringWriteSize => exact ⟨_, rfl⟩
  | ringWriteSlot k => exact ⟨_, rfl⟩
  | ringAdvanceWrite n => exact ⟨_, rfl⟩
  | _ => simp [Instr.wellFormed, Instr.origins] at h

/-- Settles O8: the values of the table of R50, and the refusal of the commands on the pools. -/
theorem resetValues : Obligations.ResetValues := by
  refine ⟨?_, fun p => ?_, fun i hi hr => ?_⟩
  · exact ⟨rfl, rfl, rfl, rfl, rfl, rfl, rfl, rfl, rfl, rfl, rfl, rfl, rfl, rfl, rfl, rfl, rfl, rfl, rfl, rfl, rfl, rfl,
      rfl, rfl, rfl, rfl, rfl, State.byteAt_empty rfl⟩
  · cases p <;> exact ⟨rfl, rfl, rfl, rfl, rfl, rfl⟩
  · obtain ⟨rule, h⟩ := exec_eq_whenLive hi hr
    rw [h]
    exact command_not_live rule rfl (by simp [State.reset, State.resetWith])

/-! ## The bytes of the packets INIT encodes -/

/-- A sum of bytes is the sum of their values modulo 256. -/
theorem foldl_add_toNat (bs : List Byte) (a : Byte) :
    (bs.foldl (· + ·) a).toNat = (a.toNat + (bs.map BitVec.toNat).sum) % 256 := by
  induction bs generalizing a with
  | nil => simp [Nat.mod_eq_of_lt a.isLt]
  | cons b rest ih =>
    rw [List.foldl_cons, ih, BitVec.toNat_add, List.map_cons, List.sum_cons, Nat.mod_add_mod, Nat.add_assoc]

/-- The `PB0` the formatter puts makes the bytes of an InfoFrame sum to 0 modulo 256 (R195). -/
theorem infoChecksum_sum (header payload : List Byte) :
    ((header ++ infoChecksum header payload :: payload).map BitVec.toNat).sum % 256 = 0 := by
  have h := foldl_add_toNat (header ++ payload) 0
  have hc : (infoChecksum header payload).toNat = (256 - ((header ++ payload).foldl (· + ·) 0).toNat) % 256 :=
    BitVec.toNat_neg _
  have h0 : (0 : Byte).toNat = 0 := rfl
  simp only [List.map_append, List.sum_append] at h
  simp only [List.map_append, List.map_cons, List.sum_append, List.sum_cons]
  omega

/-- Seven bytes from a place on, zeros beyond the end, are a slice of the list filled up with zeros. -/
theorem slice_filled {pb : List Byte} {m k : Nat} (hk : 7 * k + 7 ≤ pb.length + m) :
    (List.range 7).map (fun j => pb.getD (7 * k + j) 0) = ((pb ++ List.replicate m 0).drop (7 * k)).take 7 := by
  refine List.ext_getElem (by simp; omega) fun j h₁ _ => ?_
  have hj : j < 7 := by simpa using h₁
  simp only [List.getElem_map, List.getElem_range, List.getElem_take, List.getElem_drop]
  by_cases h : 7 * k + j < pb.length
  · rw [List.getElem_append_left h, List.getD_eq_getElem _ _ h]
  · rw [List.getElem_append_right (by omega), List.getElem_replicate, List.getD_eq_default _ _ (by omega)]

theorem packetBytes_packet (p : Params) (hb sb0 sb1 sb2 sb3 : List Byte) :
    PacketBytes p hb sb0 sb1 sb2 sb3 (packet p hb [sb0, sb1, sb2, sb3]) := by
  simp [PacketBytes, packet]

/-- The formatter's InfoFrame is the one of R195. -/
theorem infoPacket_infoFrame (p : Params) (header : List Byte) {payload : List Byte} (h : payload.length ≤ 27) :
    InfoPacket p header payload (infoFrame p header payload) := by
  refine ⟨infoChecksum header payload, infoChecksum_sum header payload, ?_⟩
  unfold infoFrame
  dsimp only
  generalize hpb : infoChecksum header payload :: payload = pb
  have hlen : pb.length + (27 - payload.length) = 28 := by simp only [← hpb, List.length_cons]; omega
  have slices : (List.range 4).map (fun k => (List.range 7).map fun j => pb.getD (7 * k + j) 0)
      = (List.range 4).map fun k => ((pb ++ List.replicate (27 - payload.length) 0).drop (7 * k)).take 7 :=
    List.map_congr_left fun k hk => slice_filled (by have := List.mem_range.1 hk; omega)
  have last : ((pb ++ List.replicate (27 - payload.length) 0).drop 21).take 7
      = (pb ++ List.replicate (27 - payload.length) 0).drop 21 := List.take_of_length_le (by simp; omega)
  rw [slices, ← last]
  exact packetBytes_packet p header _ _ _ _

/-- The formatter's clock regeneration packet is the one of R189. -/
theorem stampPacket_acrPacket (p : Params) (cts nval : BitVec 20) : StampPacket p cts nval (acrPacket p cts nval) := by
  have bytes : ∀ v : BitVec 20, ((v.extractLsb' 16 4).setWidth 8 : Byte).toNat * 2 ^ 16
      + (v.extractLsb' 8 8).toNat * 2 ^ 8 + (v.extractLsb' 0 8).toNat = v.toNat := fun v => by
    simp only [BitVec.toNat_setWidth, BitVec.extractLsb'_toNat, Nat.shiftRight_eq_div_pow]
    omega
  exact ⟨_, _, _, _, _, _, bytes cts, bytes nval, packetBytes_packet p _ _ _ _ _⟩

/-! ## The static streams after INIT -/

theorem staticStream_congr {s t : State} (hp : t.params = s.params) (hm : t.mem = s.mem) (i : StaticId) :
    t.staticStream i = s.staticStream i := by
  unfold State.staticStream State.read
  rw [hp, hm]

/-- The horizontal level of the islands, where the table has a template set (R176). -/
theorem hsLevelIsland_of_mem {p : Params} {tt : TimingTable} {set : TemplateSet}
    (h : set ∈ p.templates.find? (fun set => set.table == tt)) :
    hsLevelIsland p tt = if set.hsyncInIsland then tt.hSyncPolarity else !tt.hSyncPolarity := by
  have : templateSetFor p tt = some set := h
  simp [hsLevelIsland, this]

/-- Settles O19: the packets of the formatter are those of R188, R189 and R195, and INIT encodes them. -/
theorem initEncodesTheStaticStreams : Obligations.InitEncodesTheStaticStreams := by
  intro s t mode hl e ht
  obtain ⟨tt, u, v, -, rfl, hu⟩ := init_completes hl e ht
  obtain ⟨up, utt, -, -, -, x, xp, xtt, xok, xcts, xn, hm, hb, -⟩ := initEffects_view hu
  have hx : ∀ i, u.staticStream i = (buildStreams x).staticStream i :=
    staticStream_congr (by rw [up, buildStreams_eq, xp]) hm
  obtain ⟨hnull, havi, hainfo, hacr⟩ := staticStream_buildStreams x
  simp only [xp, xtt, xok, xcts, xn] at hnull havi hainfo hacr
  simp only [State.reply_staticStream, State.reply_tt, State.reply_audioOk, State.reply_cts, State.reply_nval,
    State.reply_byteAt, hx, utt]
  refine ⟨fun set => hsLevelIsland_of_mem, hnull, ⟨_, infoPacket_infoFrame _ _ ?_, havi⟩,
    ⟨_, infoPacket_infoFrame _ _ ?_, hainfo⟩, fun ha => ⟨_, stampPacket_acrPacket _ _ _, hacr ha⟩, fun ha off ho => ?_⟩
  · exact (List.length_take_le _ _).trans (by decide)
  · exact (List.length_take_le _ _).trans (by decide)
  · have := byteAt_buildStreams x (o := .static) (off := off) (.inr ⟨xok.trans ha, xp ▸ ho⟩)
    rw [State.byteAt_congr (s := buildStreams x) (by rw [up, buildStreams_eq, xp]) hm, this, hb _ _ (by decide)]

end Sys2Proof.Machine

/-! PROOFS. The family 20_memory.md: every step keeps the memory's canonical form. -/

namespace Sys2Proof.Machine

/-! ## INIT, and the writes of the producers -/

theorem setAudioValues_mem (s : State) : (setAudioValues s).mem = s.mem := by
  rw [setAudioValues_eq]

/-- INIT builds the templates and the streams in fresh memory, so its memory is canonical whatever stood before
(R234). -/
theorem initEffects_wf (tt : TimingTable) (s : State) : (initEffects tt s).mem.wf := by
  have fresh : (clearRun (allocatePools (latchConfig tt s))).mem = Memory.empty := rfl
  unfold initEffects
  generalize clearRun (allocatePools (latchConfig tt s)) = t at fresh
  refine buildStreams_wf ?_
  rw [setAudioValues_mem]
  exact buildTemplates_wf (fresh ▸ Memory.empty_wf)

theorem encodePair_wf (p : Handle) (bytes : List Byte) {s : State} (h : s.mem.wf) : (encodePair s p bytes).mem.wf :=
  State.write_wf _ _ _ _ (State.write_wf _ _ _ _ h)

theorem setRingSlot_wf (i : Half) (f : Word) {s : State} (h : s.mem.wf) : (s.setRingSlot i f).mem.wf :=
  State.write_wf _ _ _ _ h

/-! ## The parts of a step -/

/-- A command that completes keeps the canonical form: it writes nothing, writes bytes of an object, or starts from
empty memory. -/
theorem Effect.memory_wf {i : Instr} {s u : State} (hs : s.mem.wf) (h : Effect i s u) : u.mem.wf := by
  cases i with
  | init mode => obtain ⟨-, tt, -, rfl⟩ := h; dsimp only; exact initEffects_wf tt s
  | start =>
    obtain ⟨-, -, h⟩ := h
    rw [startEffects_eq] at h
    cases Except.ok.inj h
    dsimp only
    exact install_wf _ _ _ (s := { s with phase := .frontPorch, vctr := 0 }) hs
  | stop => obtain ⟨-, -, rfl⟩ | ⟨-, rfl⟩ := h.stop_eq <;> exact hs
  | destroy =>
    obtain ⟨-, rfl⟩ | ⟨-, t, -, rfl⟩ := h.destroy_eq
    · exact hs
    · exact Memory.empty_wf
  | writeCfg idx v => obtain ⟨-, rfl⟩ := h; rw [setCfg_eq]; exact hs
  | acquireFreeBuffer => obtain ⟨-, _, _, -, rfl⟩ := h; exact hs
  | fillBuffer b => obtain ⟨-, -, -, rfl⟩ := h; exact State.write_wf _ _ _ _ hs
  | submitValidBuffer b tok => obtain ⟨-, -, -, rfl⟩ := h; exact hs
  | acquireFreeAudioSlot => obtain ⟨-, rfl | ⟨_, _, -, -, rfl⟩⟩ := h <;> exact hs
  | submitAudioSamples => obtain ⟨-, p, pkt, _, -, rfl⟩ := h; exact encodePair_wf p pkt hs
  | registerIrq _ | setAudioEnabled _ => obtain ⟨-, -, rfl⟩ := h; exact hs
  | ringPush => obtain ⟨-, rfl⟩ := h; exact setRingSlot_wf s.ringWr _ hs
  | ringWriteSlot k => obtain ⟨-, rfl⟩ := h; exact setRingSlot_wf _ _ hs
  | ringAdvanceWrite _ | ringAdvanceRead _ => obtain ⟨-, rfl⟩ := h; exact hs
  | ringPopAvailable | ringReadSlot _ | ringWriteSize | readDiag _ => cases h; exact hs
  | tick => cases h

/-- A TICK keeps the canonical form: selection writes no memory, and the install patches words of the templates. -/
theorem tickSteps_memory_wf {s t : State} (hs : s.mem.wf) (e : tickSteps s = .ok t) : t.mem.wf := by
  obtain ⟨v, u, isl, hv, -, hi, rfl⟩ := tickSteps_closed e
  have selected : u.mem = s.mem := by
    rw [islandSelect_frame hi, videoCase_frame hv]
    rfl
  exact install_wf _ _ _ (selected ▸ hs)

theorem kept_memory_wf : Kept (fun s => s.mem.wf) :=
  .of_withOutside (fun _ _ _ _ _ _ h => h) (fun _ _ _ h hu => hu.memory_wf h)
    (fun _ _ h _ e => tickSteps_memory_wf h e) (fun _ _ h => h)

/-- Settles O57: all writes go through `memWrite`, which keeps the form; INIT, DESTROY and power-on reset empty the
memory. -/
theorem stepKeepsTheMemoryForm : Obligations.StepKeepsTheMemoryForm :=
  fun _ _ h e => kept_memory_wf.step h (fun _ => Memory.empty_wf) e

end Sys2Proof.Machine

/-! PROOFS. The family 30_encoding.md: the decoder against the encoder, the words that are illegal, what a port's step runs,
and the results it writes. -/

namespace Sys2Proof

/-! ## The decoder and the encoder -/

/-- The decoder accepts exactly the encodings of the commands the origin may issue (R84, R87). -/
theorem decode_eq_ok_iff {o : Origin} {w : Word} {i : Instr} :
    decode o w = .ok i ↔ encode i = w ∧ i.wellFormed o = true := by
  constructor
  · intro e
    obtain ⟨hc, hw, hz⟩ := decode_eq_ok e
    exact ⟨encode_of_commandOf hc hz, hw⟩
  · rintro ⟨rfl, hw⟩
    unfold decode
    rw [opField_encode, hField_encode, immField_encode, commandOf_fields]
    simp [hw, unusedFieldsZero_encode]

/-- `TICK` comes from no port (R83). -/
theorem ne_tick_of_wellFormed {p : PortId} {i : Instr} (h : i.wellFormed (.port p) = true) : i ≠ .tick := by
  rintro rfl
  simp [Instr.wellFormed, Instr.origins] at h

/-- The first check of R84 fails exactly where the opcode names no command. -/
theorem decode_eq_reservedOpcode_iff {o : Origin} {w : Word} :
    decode o w = .error .reservedOpcode ↔ commandOf (opField w) (hField w) (immField w) = none := by
  unfold decode
  cases commandOf (opField w) (hField w) (immField w) with
  | none => simp
  | some i => dsimp only; split_ifs <;> simp

/-- Settles O2: a word is accepted exactly when it is an encoding, and the encoding of a command is one of its own. -/
theorem decodeInvertsEncode : Obligations.DecodeInvertsEncode :=
  fun _ _ h => decode_eq_ok_iff.2 ⟨rfl, h⟩

/-- Settles O3: the command a word decodes to is the only one it encodes, and a rejected word encodes none. -/
theorem everyWordIsOneCommandOrIllegal : Obligations.EveryWordIsOneCommandOrIllegal := by
  intro p w
  cases hd : decode (.port p) w with
  | ok i =>
    obtain ⟨he, hw⟩ := decode_eq_ok_iff.1 hd
    exact .inl ⟨i, ⟨rfl, he, hw, ne_tick_of_wellFormed hw⟩, fun _ hj => (Except.ok.inj hj.1).symm⟩
  | error e =>
    refine .inr ⟨⟨e, rfl⟩, fun i hw he => ?_⟩
    have accepted := decode_eq_ok_iff.2 ⟨he, hw⟩
    rw [hd] at accepted
    cases accepted

/-- Settles O1, by evaluating the decoder on the fixed words. -/
theorem specWordsDecode : Obligations.SpecWordsDecode := by
  unfold Obligations.SpecWordsDecode
  decide

end Sys2Proof

namespace Sys2Proof.Machine

/-! ## A command delivered to a port -/

/-- A rejected word in closed form (R85, R265). -/
theorem rejectWord_eq (s : State) :
    rejectWord s = .next (if s.lifecycle = .halted then s.reply .halted (s.fault.setWidth 32) else s.reply .illegal 0) := by
  unfold rejectWord
  split_ifs with hl
  · exact command_halted _ hl
  · exact command_rule _ hl

theorem runCommand_of_decode_ok {p : PortId} {c : Command} {i : Instr} (s : State)
    (h : decode (.port p) c.word = .ok i) : runCommand p c s = exec i (s.latch p c) := by
  simp [runCommand, h]

theorem runCommand_of_decode_error {p : PortId} {c : Command} {e : Reject} (s : State)
    (h : decode (.port p) c.word = .error e) : runCommand p c s = rejectWord (s.latch p c) := by
  simp [runCommand, h]

/-- Settles O4: the opcodes that name no command are those between the rows of R83, and a rejected word outside HALTED gets
`S(ILLEGAL, 0)`. -/
theorem illegalWordsCompleteAtOnce : Obligations.IllegalWordsCompleteAtOnce := by
  constructor
  · intro o w
    rw [decode_eq_reservedOpcode_iff, commandOf_eq_none]
    simp only [List.mem_cons, List.not_mem_nil, or_false, not_or]
    omega
  · intro p c s e hl hd
    rw [runCommand_of_decode_error s hd, rejectWord_eq, State.latch_lifecycle, if_neg hl]

/-! ## A turn -/

@[simp] theorem State.takeTurn_issued (s : State) (p : PortId) : s.takeTurn.issued p = s.issued p := by
  cases p <;> rfl

theorem step_of_port_turn {s : State} {p : PortId} (h : s.turn = PortId.turn p) : step s = portStep p s.takeTurn := by
  unfold step
  rw [h]
  cases p <;> rfl

theorem step_of_lanes_turn {s : State} (h : s.turn = .lanes) : step s = lanesStep s.takeTurn := by
  rw [step, h, turnStep]

theorem portStep_of_held {p : PortId} {s : State} {c : Command} (h : (s.port p).held = some c) :
    portStep p s = runCommand p c s := by
  simp [portStep, h]

theorem portStep_of_issued {p : PortId} {s : State} {c : Command} {rest : List Command} (h : (s.port p).held = none)
    (hi : s.issued p = c :: rest) : portStep p s = runCommand p c (s.setIssued p rest) := by
  simp [portStep, h, hi]

theorem portStep_of_idle {p : PortId} {s : State} (h : (s.port p).held = none) (hi : s.issued p = []) :
    portStep p s = .next s := by
  simp [portStep, h, hi]

/-- The states in which R109 admits TICK. -/
theorem ticking_iff {s : State} : s.ticking = true ↔ s.lifecycle = .started ∧ s.irqEn = true ∧ s.prog ≠ none := by
  simp [State.ticking, and_assoc, Option.isSome_iff_ne_none]

/-- Settles O5: a port's turn delivers the held or the oldest issued command, which is executed or rejected; the LANES turn
runs TICK where R109 admits it. -/
theorem stepRunsDecodedCommand : Obligations.StepRunsDecodedCommand := by
  constructor
  · intro p s ht
    dsimp only
    rw [step_of_port_turn ht]
    have held : ∀ {c}, (s.port p).held = some c → portStep p s.takeTurn = runCommand p c s.takeTurn :=
      fun h => portStep_of_held (by rwa [State.takeTurn_port])
    have issued : ∀ {c rest}, (s.port p).held = none → s.issued p = c :: rest →
        portStep p s.takeTurn = runCommand p c (s.takeTurn.setIssued p rest) :=
      fun h hi => portStep_of_issued (by rwa [State.takeTurn_port]) (by rwa [State.takeTurn_issued])
    refine ⟨fun c i hc hd => ?_, fun c rest i hn hi hd => ?_, fun c e hc hd => ?_, fun c rest e hn hi hd => ?_,
      fun hn hi => ?_⟩
    · rw [held hc, runCommand_of_decode_ok _ hd]
    · rw [issued hn hi, runCommand_of_decode_ok _ hd]
    · rw [held hc, runCommand_of_decode_error _ hd, rejectWord_eq]
      simp
    · rw [issued hn hi, runCommand_of_decode_error _ hd, rejectWord_eq]
      simp
    · exact portStep_of_idle (by rwa [State.takeTurn_port]) (by rwa [State.takeTurn_issued])
  · intro s ht
    rw [step_of_lanes_turn ht, ← ticking_iff]
    exact ⟨fun h => if_pos h, fun h => if_neg h⟩

/-! ## Results -/

/-- Settles O7: a reply replaces the issuing port by one that has completed. -/
theorem completionWritesTheResult : Obligations.CompletionWritesTheResult := by
  refine ⟨fun s st v => ?_, rfl, rfl, rfl, rfl, rfl, rfl, rfl, rfl⟩
  rw [State.reply_port_self]
  exact ⟨rfl, rfl, rfl, fun p hp => State.reply_port_other s st v hp⟩

/-- Settles O12: of the ways a command ends, a hold leaves the port busy, a fault and a HALTED ENGINE give `HALTED`, an
effect gives `OK`, and only a refusal is left. -/
theorem refusalsChangeNothing : Obligations.RefusalsChangeNothing := by
  intro i s t hi e free notOk notHalted
  rcases exec_ends hi e with ⟨rfl, -⟩ | ⟨-, c, rfl⟩ | ⟨st, rfl, -⟩ | ⟨-, rfl⟩ | ⟨v, u, hu, rfl⟩
  case inl => simp [State.hold] at free
  case inr.inl =>
    refine absurd ?_ notHalted
    rw [State.raise, ← State.halt_bus s c, State.reply_port_self]
    rfl
  case inr.inr.inl => exact ⟨st, rfl⟩
  case inr.inr.inr.inl =>
    refine absurd ?_ notHalted
    rw [State.reply_port_self]
    rfl
  case inr.inr.inr.inr =>
    refine absurd ?_ notOk
    rw [← hu.stays.bus, State.reply_port_self]
    rfl

end Sys2Proof.Machine

/-! PROOFS. The family 40_timing.md: what `advance` does, the line index within its phase, the ticks of a frame, and what
a TICK installs. -/

namespace Sys2Proof.Machine

/-! ## `advance` -/

/-- The first line of the next phase; the one after ACTIVE begins a new frame (R103, R104). -/
def nextPhase (s : State) : State :=
  { s with
    phase := s.phase.next, vctr := 0
    frame := if s.phase = .active then s.frame + 1 else s.frame }

theorem advance_last {s : State} (h : s.vctr.toNat + 1 = (phaseLen s.tt s.phase).toNat) : advance s = nextPhase s :=
  if_pos h

theorem advance_inside {s : State} (h : s.vctr.toNat + 1 ≠ (phaseLen s.tt s.phase).toNat) :
    advance s = { s with vctr := s.vctr + 1 } :=
  if_neg h

/-- Settles O41, by the phase at its last line, and by a line that is not the last. -/
theorem advanceMovesOneLine : Obligations.AdvanceMovesOneLine := by
  intro s
  refine ⟨fun hp hl => ?_, fun hp hl => ?_, fun hp hl => ?_, fun hp hl => ?_, advance_inside⟩
  all_goals
    rw [advance_last (by rw [hp]; exact hl)]
    simp [nextPhase, hp, Phase.next]

/-! ## The position after every step -/

/-- A configuration INIT accepts is valid once latched (R233, R234). -/
theorem latchConfig_valid {s : State} {mode : Byte} {tt : TimingTable} (h : acceptedTable s mode = some tt) :
    ConfigValid (latchConfig tt s) := by
  have accepted : TimingTable.valid tt = true ∧ cfgAccepted s tt = true := by
    unfold acceptedTable at h
    split at h
    · cases h
    · split at h
      · rename_i ha
        cases Option.some.inj h
        exact Bool.and_eq_true_iff.1 ha
      · cases h
  obtain ⟨hv, hc⟩ := accepted
  simp only [cfgAccepted, Bool.and_eq_true, decide_eq_true_eq] at hc
  obtain ⟨⟨⟨⟨hk, hk'⟩, hf⟩, hb⟩, he⟩ := hc
  have band : s.cfgBandFirst.toNat < (latchConfig tt s).bandEnd.toNat ∧
      (latchConfig tt s).bandEnd.toNat ≤ tt.vActiveLines.toNat := by
    have := tt.vActiveLines.isLt
    dsimp only [latchConfig]
    split_ifs with h0
    · exact ⟨hf, le_rfl⟩
    · have : s.cfgBandCount.toNat ≠ 0 := fun c => h0 (BitVec.eq_of_toNat_eq c)
      rw [BitVec.toNat_add, Nat.mod_eq_of_lt (by omega)]
      omega
  exact ⟨hv, hk, hk', band.1, band.2, he⟩

theorem SameConfig.valid {s t : State} (h : SameConfig s t) (hs : ConfigValid s) : ConfigValid t := by
  obtain ⟨h1, h2, h3, h4, h5, -⟩ := h
  rwa [ConfigValid, h1, h2, h3, h4, h5]

/-- INIT aside, no command allocates; START aside, none starts the ENGINE (R230). -/
theorem Effect.already_allocated_started {i : Instr} {s u : State} (h : Effect i s u) (hi : ∀ m, i ≠ .init m) :
    (u.allocated = true → s.allocated = true) ∧
      (i ≠ .start → u.lifecycle = .started → s.lifecycle = .started) := by
  cases i with
  | init mode => exact absurd rfl (hi mode)
  | registerIrq c => obtain ⟨-, -, rfl⟩ := h; exact ⟨id, fun _ => id⟩
  | start => obtain ⟨p, e⟩ := h.start_eq; rw [e]; exact ⟨id, fun hs => absurd rfl hs⟩
  | stop =>
    obtain ⟨-, -, rfl⟩ | ⟨-, rfl⟩ := h.stop_eq
    · exact ⟨id, fun _ => id⟩
    · exact ⟨id, nofun⟩
  | destroy =>
    obtain ⟨-, rfl⟩ | ⟨-, t, -, rfl⟩ := h.destroy_eq
    · exact ⟨id, fun _ => id⟩
    · exact ⟨nofun, nofun⟩
  | _ => rw [(h.frame rfl).2]; exact ⟨id, fun _ => id⟩

/-- A command that completes keeps the position invariant: INIT latches what it accepts, START begins at line 0, and no
other command writes the configuration or the position. -/
theorem Effect.positionInv {i : Instr} {s u : State} (hl : LifecycleInv s) (hs : PositionInv s) (h : Effect i s u) :
    PositionInv u := by
  obtain ⟨hc, hp⟩ := hs
  by_cases hi : ∃ m, i = .init m
  · obtain ⟨m, rfl⟩ := hi
    obtain ⟨-, tt, ha, rfl⟩ := h
    rw [initEffects_eq, setAudioValues_eq]
    exact ⟨fun _ => latchConfig_valid ha, fun hst => by cases hst⟩
  have hi : ∀ m, i ≠ .init m := not_exists.1 hi
  obtain ⟨pos, -, cfg⟩ := h.timing hi
  obtain ⟨alloc, started⟩ := h.already_allocated_started hi
  refine ⟨fun ha => cfg.valid (hc (alloc ha)), fun hst => ?_⟩
  by_cases hstart : i = .start
  · subst hstart
    obtain ⟨live, -⟩ := hl
    have rest := h.1
    have valid := hc (live (live_iff.2 (rest.imp_right .inr)))
    obtain ⟨p, e⟩ := h.start_eq
    rw [e]
    exact phaseLen_pos valid.1 .frontPorch
  · obtain ⟨h1, h2, -⟩ := pos hstart
    rw [cfg.1, h1, h2]
    exact hp (started hstart hst)

/-- A TICK keeps the position invariant: it moves the position by `advance`. -/
theorem tickSteps_positionInv {s t : State} (ha : s.allocated = true) (hs : PositionInv s)
    (hl : s.lifecycle = .started) (e : tickSteps s = .ok t) : PositionInv t := by
  obtain ⟨hc, hp⟩ := hs
  obtain ⟨p, -, -, -, ht⟩ := tickSteps_frame e
  rw [ht]
  exact ⟨hc, fun _ => advance_within (hc ha).1 (hp hl)⟩

theorem kept_positionInv : Kept (fun s => LifecycleInv s ∧ PositionInv s) := by
  refine .of_withOutside (fun _ _ _ _ _ _ h => h) (fun _ _ _ ⟨hl, hs⟩ hu => ⟨hu.lifecycleInv hl, hu.positionInv hl hs⟩)
    (fun s t ⟨hl, hs⟩ ht e => ?_) fun s c ⟨hl, hs⟩ => ⟨halt_lifecycleInv hl c, hs.1, fun h => by cases h⟩
  have started := ticking_started ht
  obtain ⟨ha, -⟩ := (lifecycleInv_started started).1 hl
  exact ⟨tickSteps_lifecycleInv hl started e, tickSteps_positionInv ha hs started e⟩

/-- Settles O55: with the lifecycle invariant, which says that a started ENGINE is allocated, every part of a step keeps
the position invariant. -/
theorem stepKeepsThePosition : Obligations.StepKeepsThePosition :=
  fun s _ hl hs e =>
    (kept_positionInv.step ⟨hl, hs⟩ (fun _ => ⟨resetWith_lifecycleInv s.params, nofun, nofun⟩) e).2

/-! ## The ticks of a frame -/

/-- Two states stand on the same line of the same frame, of one timing table. -/
def SameLine (s t : State) : Prop :=
  t.tt = s.tt ∧ t.phase = s.phase ∧ t.vctr = s.vctr ∧ t.frame = s.frame

theorem SameLine.trans {s t u : State} (h : SameLine s t) (h' : SameLine t u) : SameLine s u := by
  obtain ⟨h1, h2, h3, h4⟩ := h
  obtain ⟨k1, k2, k3, k4⟩ := h'
  exact ⟨k1.trans h1, k2.trans h2, k3.trans h3, k4.trans h4⟩

theorem advance_tt (s : State) : (advance s).tt = s.tt := by
  rw [advance_eq]

theorem SameLine.advance {s t : State} (h : SameLine s t) : SameLine (advance s) (advance t) := by
  obtain ⟨h1, h2, h3, h4⟩ := h
  exact ⟨by rw [advance_tt, advance_tt, h1], advance_congr h1 h2 h3 h4⟩

theorem SameLine.advance_iterate {s t : State} (h : SameLine s t) (n : Nat) :
    SameLine (Machine.advance^[n] s) (Machine.advance^[n] t) := by
  induction n generalizing s t with
  | zero => exact h
  | succ n ih => exact ih h.advance

/-- A line index moved on within a phase does not wrap. -/
theorem lineIndex_add {s : State} (n : Nat) (h : s.vctr.toNat + n < (phaseLen s.tt s.phase).toNat) :
    (s.vctr + BitVec.ofNat 16 n).toNat = s.vctr.toNat + n := by
  have := (phaseLen s.tt s.phase).isLt
  rw [BitVec.toNat_add, BitVec.toNat_ofNat]
  omega

/-- Within a phase `n` advances move the line index by `n`. -/
theorem advance_iterate_inside (n : Nat) {s : State} (h : s.vctr.toNat + n < (phaseLen s.tt s.phase).toNat) :
    advance^[n] s = { s with vctr := s.vctr + BitVec.ofNat 16 n } := by
  induction n with
  | zero => simp
  | succ n ih =>
    rw [Function.iterate_succ_apply', ih (by omega),
      advance_inside (by dsimp only; rw [lineIndex_add n (s := s) (by omega)]; omega)]
    simp [BitVec.add_assoc, ← BitVec.ofNat_add]

/-- The advances left in a phase lead to the first line of the next. -/
theorem advance_iterate_rest {s : State} (h : s.vctr.toNat < (phaseLen s.tt s.phase).toNat) :
    advance^[(phaseLen s.tt s.phase).toNat - s.vctr.toNat] s = nextPhase s := by
  obtain ⟨n, hn⟩ : ∃ n, (phaseLen s.tt s.phase).toNat - s.vctr.toNat = n + 1 :=
    Nat.exists_eq_succ_of_ne_zero (by omega)
  rw [hn, Function.iterate_succ_apply', advance_iterate_inside n (by omega),
    advance_last (by dsimp only; rw [lineIndex_add n (s := s) (by omega)]; omega)]
  rfl

/-- From the first line of a phase its length in advances leads to the first line of the next. -/
theorem advance_iterate_phase {s : State} (hv : TimingTable.valid s.tt = true) (h0 : s.vctr = 0) :
    advance^[(phaseLen s.tt s.phase).toNat] s = nextPhase s := by
  have pos := phaseLen_pos hv s.phase
  have rest := advance_iterate_rest (s := s) (by rw [h0]; exact pos)
  rwa [h0] at rest

/-- The four phases from any one of them make up the frame (R102). -/
theorem frameTicks_eq (tt : TimingTable) (p : Phase) :
    frameTicks tt = (phaseLen tt p).toNat + (phaseLen tt p.next).toNat + (phaseLen tt p.next.next).toNat
      + (phaseLen tt p.next.next.next).toNat := by
  cases p <;> simp only [frameTicks, phaseLen, Phase.next] <;> omega

/-- Four phases on, the phase is the same and one frame has ended. -/
theorem nextPhase_four (s : State) :
    nextPhase (nextPhase (nextPhase (nextPhase s))) = { s with vctr := 0, frame := s.frame + 1 } := by
  cases hp : s.phase <;> simp [nextPhase, Phase.next, hp]

/-- `F` advances lead to the same line of the next frame (R102, R104). -/
theorem advance_iterate_frame {s : State} (hv : TimingTable.valid s.tt = true)
    (h : s.vctr.toNat < (phaseLen s.tt s.phase).toNat) :
    advance^[frameTicks s.tt] s = { s with frame := s.frame + 1 } := by
  have split : frameTicks s.tt = s.vctr.toNat + ((phaseLen s.tt s.phase.next.next.next).toNat
      + ((phaseLen s.tt s.phase.next.next).toNat + ((phaseLen s.tt s.phase.next).toNat
      + ((phaseLen s.tt s.phase).toNat - s.vctr.toNat)))) := by
    have := frameTicks_eq s.tt s.phase
    omega
  have second : advance^[(phaseLen s.tt s.phase.next).toNat] (nextPhase s) = _ :=
    advance_iterate_phase (s := nextPhase s) hv rfl
  have third : advance^[(phaseLen s.tt s.phase.next.next).toNat] (nextPhase (nextPhase s)) = _ :=
    advance_iterate_phase (s := nextPhase (nextPhase s)) hv rfl
  have fourth : advance^[(phaseLen s.tt s.phase.next.next.next).toNat] (nextPhase (nextPhase (nextPhase s))) = _ :=
    advance_iterate_phase (s := nextPhase (nextPhase (nextPhase s))) hv rfl
  have back := advance_iterate_inside s.vctr.toNat (s := { s with vctr := 0, frame := s.frame + 1 })
    (by simpa using h)
  rw [split, Function.iterate_add_apply, Function.iterate_add_apply, Function.iterate_add_apply,
    Function.iterate_add_apply, advance_iterate_rest h, second, third, fourth, nextPhase_four, back]
  simp

/-- A started ENGINE with the pool, lifecycle and position invariants. -/
def Running (s : State) : Prop :=
  PoolInv s ∧ LifecycleInv s ∧ PositionInv s ∧ s.lifecycle = .started

theorem Running.allocated {s : State} (h : Running s) : s.allocated = true := by
  obtain ⟨-, hl, -, started⟩ := h
  exact ((lifecycleInv_started started).1 hl).1

theorem exec_tick_of_ok {s t : State} (e : tickSteps s = .ok t) : exec .tick s = .next t := by
  show execTick s = .next t
  rw [execTick, e]

/-- A TICK of a running ENGINE completes, leaves it running on the next line, and emits one line program. -/
theorem Running.tick {s : State} (h : Running s) :
    ∃ t, exec .tick s = .next t ∧ Running t ∧ SameLine (advance s) t ∧
      t.env.trace.length = s.env.trace.length + 1 := by
  have ha := h.allocated
  obtain ⟨pools, life, pos, started⟩ := h
  obtain ⟨t, e⟩ := tickSteps_safe pools ha
  obtain ⟨p, -, -, -, ht⟩ := tickSteps_frame e
  refine ⟨t, exec_tick_of_ok e, ⟨tickSteps_poolInv pools e, tickSteps_lifecycleInv life started e,
    tickSteps_positionInv ha pos started e, ?_⟩, ?_, ?_⟩
  · rw [ht]; exact started
  · rw [ht]; exact ⟨(advance_tt s).symm, rfl, rfl, rfl⟩
  · rw [ht]; simp

/-- `n` ticks of a running ENGINE complete, leave it running `n` lines on, and emit `n` line programs. -/
theorem Running.ticks (n : Nat) {s : State} (h : Running s) :
    ∃ t, ticks n s = some t ∧ Running t ∧ SameLine (advance^[n] s) t ∧
      t.env.trace.length = s.env.trace.length + n := by
  induction n generalizing s with
  | zero => exact ⟨s, rfl, h, ⟨rfl, rfl, rfl, rfl⟩, rfl⟩
  | succ n ih =>
    obtain ⟨t, e, ht, line, trace⟩ := h.tick
    obtain ⟨u, e', hu, line', trace'⟩ := ih ht
    exact ⟨u, by rw [Machine.ticks, e]; exact e', hu, (line.advance_iterate n).trans line', by omega⟩

/-- Settles O42: `F` ticks move the position by `F` advances, which lead to the same line of the next frame. -/
theorem frameTakesItsTicks : Obligations.FrameTakesItsTicks := by
  intro s pools life pos started
  have h : Running s := ⟨pools, life, pos, started⟩
  obtain ⟨t, e, ⟨-, -, -, ht⟩, ⟨-, phase, vctr, frame⟩, trace⟩ := h.ticks (frameTicks s.tt)
  obtain ⟨config, within⟩ := pos
  rw [advance_iterate_frame (config h.allocated).1 (within started)] at phase vctr frame
  exact ⟨t, e, phase, vctr, frame, ht, trace⟩

/-! ## What a TICK installs -/

/-- The island of a line and what becomes of the pairs, case by case (R172, R173, R175). -/
theorem islandSelect_rule {g : Bool} {s t : State} {isl : IslandSrc} (e : islandSelect g s = .ok (t, isl)) :
    let null : IslandSrc := .null (decide (s.phase = .sync))
    let noPairMoves := t.pvalidq = s.pvalidq ∧ t.pfreeq = s.pfreeq
    (g = false → isl = null ∧ noPairMoves) ∧
    (g = true →
      (s.phase = .frontPorch → s.vctr = 0 →
        isl = (if s.frame.toNat % 2 = 0 then .avi else .ainfo) ∧ noPairMoves) ∧
      (s.phase = .frontPorch → s.vctr = 1 → isl = .acr ∧ noPairMoves) ∧
      (¬ (s.phase = .frontPorch ∧ s.vctr.toNat ≤ 1) →
        (s.pvalidq = [] → isl = null ∧ noPairMoves) ∧
        ∀ q rest, s.pvalidq = q :: rest →
          isl = .pair q (decide (s.phase = .sync)) ∧ t.pvalidq = rest ∧ t.pfreeq = s.pfreeq ++ [q])) := by
  have stays : ∀ {x}, islandSelect g s = .ok (s, x) → isl = x ∧ t.pvalidq = s.pvalidq ∧ t.pfreeq = s.pfreeq := by
    intro x h
    obtain ⟨rfl, rfl⟩ := Prod.mk.inj (Except.ok.inj (e.symm.trans h))
    exact ⟨rfl, rfl, rfl⟩
  refine ⟨fun hg => stays (by rw [hg]; rfl), fun hg => ⟨fun hp hv => stays ?_, fun hp hv => stays ?_, fun later => ?_⟩⟩
  · simp [islandSelect, hg, hp, hv]
  · simp [islandSelect, hg, hp, hv]
  · have not_zero : ¬ (s.phase = .frontPorch ∧ s.vctr = 0) := fun ⟨hp, hv⟩ => later ⟨hp, by simp [hv]⟩
    have not_one : ¬ (s.phase = .frontPorch ∧ s.vctr = 1) := fun ⟨hp, hv⟩ => later ⟨hp, by simp [hv]⟩
    rw [islandSelect, if_neg (by simp [hg]), if_neg not_zero, if_neg not_one] at e
    constructor
    · intro hq
      rw [hq] at e
      obtain ⟨rfl, rfl⟩ := Prod.mk.inj (Except.ok.inj e)
      exact ⟨rfl, rfl, rfl⟩
    · intro q rest hq
      rw [hq] at e
      dsimp only at e
      split at e
      · rename_i u hu
        obtain ⟨rfl, rfl⟩ := Prod.mk.inj (Except.ok.inj e)
        rw [(pushPairFree_ok hu).2]
        exact ⟨rfl, rfl, rfl⟩
      · cases e

/-- A TICK that raises nothing, through its two last stages: the island chosen on a state `x` that stands on the new line
with the memory and the pairs of `s`, and the install of the program. -/
theorem tickSteps_stages {s t : State} (e : tickSteps s = .ok t) :
    ∃ x u p, islandSelect s.audioEn x = .ok (u, p.island) ∧ t = install p.template p.buf p.island u ∧ t.prog = some p ∧
      SameLine x t ∧ x.params = s.params ∧ x.mem = s.mem ∧ x.pvalidq = s.pvalidq ∧ x.pfreeq = s.pfreeq := by
  obtain ⟨v, u, isl, hv, -, hi, rfl⟩ := tickSteps_closed e
  refine ⟨v.state, u, programOf u v.template v.buf isl, hi, rfl, by rw [install_eq], ?_, ?_⟩
  · rw [install_eq, islandSelect_frame hi]
    exact ⟨rfl, rfl, rfl, rfl⟩
  · rw [videoCase_frame hv]
    exact ⟨rfl, rfl, rfl, rfl⟩

/-- Settles O43: under the pool invariants every push of a TICK has room; its program, its memory and its pairs are those
of its last two stages. -/
theorem tickInstallsTheNextLine : Obligations.TickInstallsTheNextLine := by
  intro s pools ha
  obtain ⟨t, e⟩ := tickSteps_safe pools ha
  obtain ⟨p, phase, vctr, frame, ht⟩ := tickSteps_frame e
  obtain ⟨x, u, p', hi, hu, hp', ⟨-, xphase, xvctr, xframe⟩, xparams, xmem, xvalid, xfree⟩ := tickSteps_stages e
  obtain rfl : p = p' := Option.some.inj ((by rw [ht] : t.prog = some p).symm.trans hp')
  have hx := islandSelect_frame hi
  refine ⟨t, p, exec_tick_of_ok e, ht, ?_, ?_, ?_, fun o off h₁ h₂ => ?_, ?_⟩
  · rw [phase, ht]
  · rw [vctr, ht]
  · rw [frame, ht]
  · have up : u.params = s.params := by rw [hx]; exact xparams
    have um : u.mem = s.mem := by rw [hx]; exact xmem
    rw [hu, byteAt_install (by rwa [up]) (by rwa [up])]
    exact State.byteAt_congr up um o off
  · have rule := islandSelect_rule hi
    have tvalid : t.pvalidq = u.pvalidq := by rw [hu, install_eq]
    have tfree : t.pfreeq = u.pfreeq := by rw [hu, install_eq]
    rw [← xphase, ← xvctr, ← xframe, xvalid, xfree, ← tvalid, ← tfree] at rule
    exact rule

end Sys2Proof.Machine

/-! PROOFS. The family 41_builder.md: the release pipeline, acquisition, the class of a line, what a TICK selects, the buffer
held between the lines of its group, the source fields a TICK patches, and the templates INIT builds. -/

namespace Sys2Proof.Machine

/-! ## Release and acquisition -/

/-- Settles O46: the step in closed form, with no push and with the one push it makes. -/
theorem releaseStepMovesOneStage : Obligations.ReleaseStepMovesOneStage := by
  intro s
  refine ⟨fun h => by simp [releaseStep, h], fun h hh room => ?_⟩
  have e := releaseStep_room (s := s) (by rw [hh]; exact room)
  rwa [hh] at e

theorem acquire_nil (n src : Nat) {s : State} (h : s.validq = []) : acquire n src s = .ok s := by
  cases n with
  | zero => rfl
  | succ n => simp [acquire, h]

theorem acquire_match {n src : Nat} {s : State} {h : Handle} {rest : List Handle} (hn : 0 < n)
    (hq : s.validq = h :: rest) (ht : (s.tokenOf h).toNat = src) :
    acquire n src s = .ok { s with validq := rest, cur := some h } := by
  obtain ⟨m, rfl⟩ := Nat.exists_eq_succ_of_ne_zero hn.ne'
  simp [acquire, hq, ht]

/-- Settles O45: the late buffers at the head take one iteration each; what is left begins with the match or is empty. -/
theorem acquireRecyclesLateBuffers : Obligations.AcquireRecyclesLateBuffers := by
  intro s src late rest hlate room
  have recycled : ∀ {q}, s.validq = late ++ q → acquire s.params.n src s = acquire (s.params.n - late.length) src { s with
      validq := q, freeq := s.freeq ++ late, lateCnt := s.lateCnt + BitVec.ofNat 32 late.length } := fun hq => by
    rw [← acquire_late hlate room hq, Nat.add_sub_cancel' (by omega)]
  refine ⟨fun h hq ht hn => ?_, fun hq => ?_⟩
  · rw [recycled hq]
    exact acquire_match (Nat.sub_pos_of_lt hn) rfl ht
  · rw [recycled (q := []) (by simpa using hq), acquire_nil _ _ rfl]

/-! ## The class of a line -/

theorem classifyLine_inBand_iff {s : State} {a : Nat} :
    (classifyLine s a).inBand = true ↔ s.bandFirst.toNat ≤ a ∧ a < s.bandEnd.toNat := by
  simp [classifyLine]

theorem classifyLine_blanked_iff {s : State} {a : Nat} :
    (classifyLine s a).blanked = true ↔ ¬ (s.bandFirst.toNat ≤ a ∧ a < s.bandEnd.toNat) ∨
      (s.scanlineEmu = 1 ∧ (a - s.bandFirst.toNat) % 2 = 1) := by
  simp only [classifyLine, Bool.or_eq_true, Bool.not_eq_true', decide_eq_false_iff_not, Bool.and_eq_true, beq_iff_eq]

theorem classifyLine_groupEnd_iff {s : State} {a : Nat} :
    (classifyLine s a).groupEnd = true ↔ (s.bandFirst.toNat ≤ a ∧ a < s.bandEnd.toNat) ∧
      ((a - s.bandFirst.toNat) % s.k.toNat = s.k.toNat - 1 ∨ a + 1 = s.bandEnd.toNat) := by
  simp only [classifyLine, Bool.and_eq_true, decide_eq_true_eq, Bool.or_eq_true, beq_iff_eq]

/-- A line that is not blanked is in the band (R126). -/
theorem classifyLine_inBand_of_shown {s : State} {a : Nat} (h : (classifyLine s a).blanked = false) :
    (classifyLine s a).inBand = true := by
  rw [classifyLine_inBand_iff]
  by_contra out
  rw [classifyLine_blanked_iff.2 (.inl out)] at h
  cases h

/-! ## What `video_select` returns (R129) -/

@[simp] theorem endGroup_cur (c : LineClass) (s : State) :
    (endGroup c s).cur = if c.groupEnd then none else s.cur := by
  rw [endGroup_eq]
  cases c.groupEnd <;> cases hc : s.cur <;> simp [hc]

@[simp] theorem endGroup_queues (c : LineClass) (s : State) :
    (endGroup c s).validq = s.validq ∧ (endGroup c s).freeq = s.freeq ∧ (endGroup c s).lateCnt = s.lateCnt ∧
      (endGroup c s).errCnt = s.errCnt := by
  rw [endGroup_eq]
  split <;> exact ⟨rfl, rfl, rfl, rfl⟩

/-- The end of a group empties `CUR` into an empty `REL0` (R131). -/
theorem endGroup_rel0 (c : LineClass) {s : State} (h : s.rel0 = none) :
    (endGroup c s).rel0 = if c.groupEnd then s.cur else none := by
  rw [endGroup_eq]
  cases c.groupEnd <;> cases s.cur <;> simp [h]

/-- The template of a line with no picture, by its phase and its class. -/
theorem VideoCase.no_picture {s : State} {v : Selection} (h : VideoCase s v) :
    (s.phase = .sync → v.template = .vsync ∧ v.buf = none) ∧
    (s.phase = .frontPorch ∨ s.phase = .backPorch → v.template = .vnosync ∧ v.buf = none) ∧
    (s.phase = .active → (classify s).blanked = true → v.template = .blanked ∧ v.buf = none) := by
  cases h with
  | sync hp hv => simp [hp, hv]
  | porch hp hv => rcases hp with hp | hp <;> simp [hp, hv]
  | blanked hp _ hv => simp [hp, hv]
  | held _ hp hb => simp [hp, hb]
  | acquired _ _ _ hp hb => simp [hp, hb]
  | starved _ _ hp hb => simp [hp, hb]

/-- Where no buffer is sought, no queue moves. -/
theorem VideoCase.queues_stay {s : State} {v : Selection} (h : VideoCase s v)
    (hs : s.phase ≠ .active ∨ (classify s).blanked = true ∨ s.cur ≠ none) :
    v.state.validq = s.validq ∧ v.state.freeq = s.freeq ∧ v.state.lateCnt = s.lateCnt := by
  cases h with
  | sync _ hv => simp [hv]
  | porch _ hv => simp [hv]
  | blanked _ _ hv => simp [hv]
  | held _ _ _ _ hv => simp [hv]
  | acquired _ _ _ hp hb hc => simp [hp, hb, hc] at hs
  | starved _ _ hp hb hc => simp [hp, hb, hc] at hs

/-- Outside ACTIVE the hold registers stay. -/
theorem VideoCase.hold_outside {s : State} {v : Selection} (h : VideoCase s v) (hp : s.phase ≠ .active) :
    v.state.cur = s.cur ∧ v.state.rel0 = s.rel0 := by
  cases h with
  | sync _ hv => simp [hv]
  | porch _ hv => simp [hv]
  | blanked ha => exact absurd ha hp
  | held _ ha => exact absurd ha hp
  | acquired _ _ _ ha => exact absurd ha hp
  | starved _ _ ha => exact absurd ha hp

/-- On an ACTIVE line the buffer held, or on an unblanked one the buffer shown, stays in `CUR` until the group ends, where it
goes to `REL0` (R131). -/
theorem VideoCase.hold_active {s : State} {v : Selection} (h : VideoCase s v) (h0 : s.rel0 = none)
    (hp : s.phase = .active) {held : Option Handle} (hh : held = if (classify s).blanked then s.cur else v.buf) :
    v.state.cur = (if (classify s).groupEnd then none else held) ∧
      v.state.rel0 = (if (classify s).groupEnd then held else none) := by
  subst hh
  cases h with
  | sync ha => simp [hp] at ha
  | porch ha => simp [hp] at ha
  | blanked _ hb hv => simp [hv, hb, endGroup_rel0, h0]
  | held _ _ hb hc hv => simp [hv, hb, hc, endGroup_rel0, h0]
  | acquired _ _ _ _ hb _ _ _ _ _ hv => simp [hv, hb, endGroup_rel0, h0]
  | starved _ _ _ hb hc _ _ _ hv => simp [hv, hb, hc, h0]

/-- The fallback template and ERR_CNT go together (R130). -/
theorem VideoCase.errors {s : State} {v : Selection} (h : VideoCase s v) :
    v.state.errCnt = if v.template = .error then s.errCnt + 1 else s.errCnt := by
  cases h with
  | sync _ hv => simp [hv]
  | porch _ hv => simp [hv]
  | blanked _ _ hv => simp [hv]
  | held _ _ _ _ hv => simp [hv]
  | acquired _ _ _ _ _ _ _ _ _ _ hv => simp [hv]
  | starved _ _ _ _ _ _ _ _ hv => simp [hv]

/-- `FREEQ` only gains buffers. -/
theorem VideoCase.freeq_grows {s : State} {v : Selection} (h : VideoCase s v) : ∃ late, v.state.freeq = s.freeq ++ late := by
  cases h with
  | sync _ hv => exact ⟨[], by simp [hv]⟩
  | porch _ hv => exact ⟨[], by simp [hv]⟩
  | blanked _ _ hv => exact ⟨[], by simp [hv]⟩
  | held _ _ _ _ hv => exact ⟨[], by simp [hv]⟩
  | acquired _ late _ _ _ _ _ _ _ _ hv => exact ⟨late, by simp [hv]⟩
  | starved late _ _ _ _ _ _ _ hv => exact ⟨late, by simp [hv]⟩

/-- A buffer is shown on an unblanked ACTIVE line only, and it was held or carries the line's token (R127, R128). -/
theorem VideoCase.shown {s : State} {v : Selection} (h : VideoCase s v) {b : Handle} (hb : v.buf = some b) :
    s.phase = .active ∧ (classify s).blanked = false ∧ (s.cur = some b ∨ (s.tokenOf b).toNat = (classify s).src) := by
  cases h with
  | sync _ hv => simp [hv] at hb
  | porch _ hv => simp [hv] at hb
  | blanked _ _ hv => simp [hv] at hb
  | held x hp hn hc hv => exact ⟨hp, hn, .inl (hc.trans (by simpa [hv] using hb))⟩
  | acquired x _ _ hp hn _ _ _ ht _ hv =>
    obtain rfl : x = b := by simpa [hv] using hb
    exact ⟨hp, hn, .inr ht⟩
  | starved _ _ _ _ _ _ _ _ hv => simp [hv] at hb

/-- The buffer of an unblanked ACTIVE line: the one held, or the first in `VALIDQ` with the line's token, or none
(R128, R129). -/
theorem VideoCase.picture {s : State} {v : Selection} (h : VideoCase s v) (hp : s.phase = .active)
    (hb : (classify s).blanked = false) :
    (∀ b, s.cur = some b → v.template = .active ∧ v.buf = some b) ∧
    (s.cur = none → ∃ late rest, (∀ x ∈ late, (s.tokenOf x).toNat ≠ (classify s).src) ∧
      (v.state.validq = rest ∧ v.state.freeq = s.freeq ++ late ∧
        v.state.lateCnt = s.lateCnt + BitVec.ofNat 32 late.length) ∧
      ((∃ b, v.template = .active ∧ v.buf = some b ∧ s.validq = late ++ b :: rest ∧
          (s.tokenOf b).toNat = (classify s).src ∧ late.length < s.params.n) ∨
        (v.template = .error ∧ v.buf = none ∧ v.state.cur = none ∧ s.validq = late ++ rest ∧
          (rest = [] ∨ late.length = s.params.n)))) := by
  cases h with
  | sync ha => simp [hp] at ha
  | porch ha => simp [hp] at ha
  | blanked _ hn => simp [hb] at hn
  | held b _ _ hc hv => simp [hv, hc]
  | acquired b late rest _ _ hc hl hq ht hn hv =>
    refine ⟨by simp [hc], fun _ => ⟨late, rest, hl, by simp [hv], .inl ⟨b, ?_, ?_, hq, ht, hn⟩⟩⟩ <;> rw [hv]
  | starved late rest _ _ hc hl hq hr hv =>
    refine ⟨by simp [hc], fun _ => ⟨late, rest, hl, by simp [hv], .inr ⟨?_, ?_, ?_, hq, hr⟩⟩⟩ <;> rw [hv]
    exact hc

/-! ## What a TICK selects -/

/-- The line a TICK moves to has the class the configuration before it gives it. -/
theorem classify_ticked {s t : State} (e : tickSteps s = .ok t) :
    classify (ticked s) = classifyLine s t.vctr.toNat := by
  obtain ⟨p, -, -, -, ht⟩ := tickSteps_frame e
  rw [ht]
  rfl

/-- Under the pool invariants a TICK has run its steps. -/
theorem PoolInv.tickSteps_of_exec {s t : State} (h : PoolInv s) (ha : s.allocated = true) (e : exec .tick s = .next t) :
    tickSteps s = .ok t := by
  obtain ⟨u, hu⟩ := tickSteps_safe h ha
  rw [hu, Host.Outcome.next.inj ((exec_tick_of_ok hu).symm.trans e)]

/-- Settles O44: the selection on the advanced state, conjunct by conjunct, with the class of the line spelt out. -/
theorem tickSelectsTheTemplate : Obligations.TickSelectsTheTemplate := by
  intro s t e hl
  have e := tickSteps_of_exec e hl
  obtain ⟨v, hv, ⟨p, hp, ptpl, pbuf⟩, phase, -, validq, cur, errCnt, freeq, lateCnt, rel0⟩ := tickSteps_view e
  obtain ⟨hsync, hporch, hblank⟩ := hv.no_picture
  have line := classify_ticked e
  have blanked := classifyLine_blanked_iff (s := s) (a := t.vctr.toNat)
  have groupEnd := classifyLine_groupEnd_iff (s := s) (a := t.vctr.toNat)
  rw [← line] at blanked groupEnd
  dsimp only
  rw [← blanked, ← groupEnd, phase, validq, cur, errCnt, freeq, lateCnt, rel0]
  refine ⟨p, hp, ?_, ?_, ?_, fun hs => ?_, fun ha hn => ?_, hv.hold_outside, fun ha held hb hn => ?_, fun he => ?_,
    fun he => ?_⟩
  · rw [ptpl, pbuf]; exact hsync
  · rw [ptpl, pbuf]; exact hporch
  · rw [ptpl, pbuf]; exact hblank
  · obtain ⟨h1, h2, h3⟩ := hv.queues_stay hs
    exact ⟨h1, by rw [h2, List.append_nil]; rfl, by rw [h3]; simp [ticked]⟩
  · rw [ptpl, pbuf]
    have src : (classify (ticked s)).src = (t.vctr.toNat - s.bandFirst.toNat) / s.k.toNat := by rw [line]; rfl
    rw [← src]
    exact hv.picture ha (Bool.eq_false_of_not_eq_true hn)
  · have hheld : held = if (classify (ticked s)).blanked then (ticked s).cur else v.buf := by
      split_ifs with h
      · exact hb h
      · exact (hn h).trans pbuf
    obtain ⟨h1, h2⟩ := hv.hold_active rfl ha hheld
    rw [h1, h2]
    exact ⟨fun h => by simp [h], fun h => by simp [h]⟩
  · rw [hv.errors, ← ptpl, if_pos he]; rfl
  · rw [hv.errors, ← ptpl, if_neg he]; rfl

/-! ## The buffer held between the lines of its group (R127, R131) -/

/-- The buffer a started ENGINE holds belongs to the line of the next TICK too. -/
theorem DisplayInv.next_line {s : State} (hd : DisplayInv s) (hs : s.lifecycle = .started) (hc : ConfigValid s)
    {h : Handle} (hh : s.cur = some h) : (ticked s).phase = .active ∧ (classify (ticked s)).inBand = true ∧
      (s.tokenOf h).toNat = (classify (ticked s)).src := by
  obtain ⟨phase, band, inside, token⟩ := hd hs h hh
  obtain ⟨phase', band', src⟩ := classify_next hc phase band inside
  exact ⟨phase', band', token.trans src.symm⟩

/-- A buffer a TICK installs is shown on an unblanked ACTIVE line of its token. -/
theorem VideoCase.shown_on_its_line {s : State} {v : Selection} (h : VideoCase (ticked s) v) (hd : DisplayInv s)
    (hs : s.lifecycle = .started) (hc : ConfigValid s) {b : Handle} (hb : v.buf = some b) :
    (ticked s).phase = .active ∧ (classify (ticked s)).blanked = false ∧
      (s.tokenOf b).toNat = (classify (ticked s)).src := by
  obtain ⟨phase, shown, held | token⟩ := h.shown hb
  · obtain ⟨-, -, token⟩ := hd.next_line hs hc held
    exact ⟨phase, shown, token⟩
  · exact ⟨phase, shown, token⟩

/-- Settles O59: the buffer shown is the one held, whose group the line belongs to, or one acquired by its token. -/
theorem buffersAreShownOnTheirLine : Obligations.BuffersAreShownOnTheirLine := by
  intro s t pools life pos hd hs e p b hp hb
  obtain ⟨ha, -⟩ := (lifecycleInv_started hs).1 life
  obtain ⟨config, -⟩ := pos
  have steps := pools.tickSteps_of_exec ha e
  obtain ⟨v, hv, ⟨q, hq, -, qbuf⟩, -, line, -⟩ := tickSteps_view steps
  obtain ⟨q', pphase, pvctr, -, ht⟩ := tickSteps_frame steps
  have tprog : t.prog = some q' := by rw [ht]
  have tvctr : t.vctr = (advance s).vctr := by rw [ht]
  obtain rfl : p = q := Option.some.inj (hp.symm.trans hq)
  obtain rfl : p = q' := Option.some.inj (hp.symm.trans tprog)
  obtain ⟨phase, shown, token⟩ := hv.shown_on_its_line hd hs (config ha) (qbuf.symm.trans hb)
  have here : classifyLine t p.vctr.toNat = classify (ticked s) := by rw [pvctr, ← tvctr]; exact line
  rw [here, tickSteps_tokenOf steps]
  exact ⟨pphase.trans phase, shown, token⟩

/-- A token written leaves the tokens of the other buffers. -/
theorem State.setToken_tokenOf_other (s : State) {h h' : Handle} (tok : Half) (hne : h' ≠ h) :
    (s.setToken h tok).tokenOf h' = s.tokenOf h' := by
  have : h.toNat ≠ h'.toNat := fun c => hne (BitVec.eq_of_toNat_eq c).symm
  simp [State.tokenOf, State.setToken, List.getD_eq_getElem?_getD, List.getElem?_set_ne this]

/-- The buffer in `CUR` is not the PRODUCER's. -/
theorem PoolInv.cur_not_prodBufs {s : State} (h : PoolInv s) (ha : s.allocated = true) {b : Handle}
    (hb : s.cur = some b) : b ∉ s.prodBufs := by
  obtain ⟨-, nodup⟩ := h.owned ha
  exact List.disjoint_of_nodup_append nodup (by simp [hb])

/-- A command that completes in a started ENGINE and leaves it started keeps the token of the buffer in `CUR`: the PRODUCER
writes the tokens of its own buffers only. -/
theorem Effect.tokenOf_cur {i : Instr} {s u : State} (h : Effect i s u) (hi : changesLifecycle i = false)
    (pools : PoolInv s) (ha : s.allocated = true) {b : Handle} (hb : s.cur = some b) : u.tokenOf b = s.tokenOf b := by
  cases i with
  | submitValidBuffer x tok =>
    obtain ⟨-, hx, -, rfl⟩ := h
    have hne : b ≠ x := fun c => pools.cur_not_prodBufs ha hb (c ▸ hx)
    exact s.setToken_tokenOf_other tok hne
  | init mode => cases hi
  | registerIrq c => cases hi
  | start => cases hi
  | stop => cases hi
  | destroy => cases hi
  | tick => cases h
  | writeCfg idx v => obtain ⟨-, rfl⟩ := h; rw [setCfg_eq]; rfl
  | acquireFreeBuffer => obtain ⟨-, _, _, -, rfl⟩ := h; rfl
  | fillBuffer x => obtain ⟨-, -, -, rfl⟩ := h; rfl
  | acquireFreeAudioSlot => obtain ⟨-, rfl | ⟨_, _, -, -, rfl⟩⟩ := h <;> rfl
  | submitAudioSamples => obtain ⟨-, _, _, _, -, rfl⟩ := h; rfl
  | setAudioEnabled x => obtain ⟨-, -, rfl⟩ := h; rfl
  | ringPush | ringWriteSlot _ | ringAdvanceWrite _ | ringAdvanceRead _ => obtain ⟨-, rfl⟩ := h; rfl
  | ringPopAvailable | ringReadSlot _ | ringWriteSize | readDiag _ => cases h; rfl

/-- Of the commands that change the lifecycle only START leaves the ENGINE started, and it finds no buffer held (R236). -/
theorem Effect.cur_none_of_changesLifecycle {i : Instr} {s u : State} (h : Effect i s u)
    (hi : changesLifecycle i = true) (life : LifecycleInv s) (hu : u.lifecycle = .started) : u.cur = none := by
  cases i with
  | init mode => obtain ⟨-, tt, -, rfl⟩ := h; cases hu
  | registerIrq c =>
    obtain ⟨hl, -, rfl⟩ := h
    exact absurd hu (idle_of_atRest hl).1
  | start =>
    obtain ⟨p, hu⟩ := h.start_eq
    obtain ⟨h1, h2⟩ := idle_of_atRest h.1
    obtain ⟨-, -, -, -, -, ⟨hc, -⟩, -⟩ := (lifecycleInv_idle h1 h2).1 life
    rw [hu]
    exact hc
  | stop => exact absurd hu (Effect.stop_lifecycleInv life h).1
  | destroy =>
    obtain ⟨hl, rfl⟩ | ⟨-, t, -, rfl⟩ := h.destroy_eq
    · rcases hl with hl | hl <;> rw [hl] at hu <;> cases hu
    · cases hu
  | _ => cases hi

/-- A command that completes moves no line and keeps the buffer held, with its token. -/
theorem Effect.displayInv {i : Instr} {s u : State} (pools : PoolInv s) (life : LifecycleInv s) (hd : DisplayInv s)
    (h : Effect i s u) : DisplayInv u := by
  intro hu b hb
  cases hi : changesLifecycle i with
  | true =>
    rw [h.cur_none_of_changesLifecycle hi life hu] at hb
    cases hb
  | false =>
    have hf := (h.frame hi).2
    have hs : s.lifecycle = .started := by rw [hf] at hu; exact hu
    have hc : s.cur = some b := by rw [hf] at hb; exact hb
    obtain ⟨ha, -⟩ := (lifecycleInv_started hs).1 life
    have token := h.tokenOf_cur hi pools ha hc
    obtain ⟨phase, band, inside, src⟩ := hd hs b hc
    rw [token, hf]
    exact ⟨phase, band, inside, src⟩

/-- A TICK leaves in `CUR` only a buffer of its line's group, and none on the group's last line. -/
theorem tickSteps_displayInv {s t : State} (hs : s.lifecycle = .started) (hc : ConfigValid s) (hd : DisplayInv s)
    (e : tickSteps s = .ok t) : DisplayInv t := by
  intro _ b hb
  obtain ⟨v, hv, -, tphase, line, -, tcur, -⟩ := tickSteps_view e
  have kept : v.state.cur = some b := tcur.symm.trans hb
  rw [tphase, line, tickSteps_tokenOf e]
  by_cases active : (ticked s).phase = .active
  · obtain ⟨hcur, -⟩ := hv.hold_active rfl active rfl
    rw [hcur] at kept
    obtain ⟨inside, held⟩ : (classify (ticked s)).groupEnd = false ∧
        (if (classify (ticked s)).blanked then (ticked s).cur else v.buf) = some b := by
      cases hg : (classify (ticked s)).groupEnd with
      | true => simp [hg] at kept
      | false => simpa [hg] using kept
    split_ifs at held with hb
    · obtain ⟨-, band, src⟩ := hd.next_line hs hc held
      exact ⟨active, band, inside, src⟩
    · obtain ⟨-, shown, src⟩ := hv.shown_on_its_line hd hs hc held
      exact ⟨active, classifyLine_inBand_of_shown shown, inside, src⟩
  · obtain ⟨hcur, -⟩ := hv.hold_outside active
    obtain ⟨phase, -⟩ := hd.next_line hs hc (hcur.symm.trans kept)
    exact absurd phase active

/-- The invariants that DisplayInv rests on are kept with it. -/
theorem kept_displayInv : Kept (fun s => PoolInv s ∧ LifecycleInv s ∧ PositionInv s ∧ DisplayInv s) := by
  refine .of_withOutside (fun _ _ _ _ _ _ h => h) (fun i s u ⟨pools, life, pos, hd⟩ h => ?_)
    (fun s t ⟨pools, life, pos, hd⟩ ht e => ?_) fun s c ⟨pools, life, pos, hd⟩ => ?_
  · exact ⟨h.poolInv pools, h.lifecycleInv life, h.positionInv life pos, h.displayInv pools life hd⟩
  · have hs := ticking_started ht
    obtain ⟨ha, -⟩ := (lifecycleInv_started hs).1 life
    exact ⟨tickSteps_poolInv pools e, tickSteps_lifecycleInv life hs e, tickSteps_positionInv ha pos hs e,
      tickSteps_displayInv hs (pos.1 ha) hd e⟩
  · exact ⟨pools, halt_lifecycleInv life c, ⟨pos.1, nofun⟩, nofun⟩

/-- Settles O58: a TICK keeps in `CUR` only a buffer of its line's group, a command moves neither the line nor the buffer,
and after a fault or a reset the ENGINE is not started. -/
theorem stepKeepsTheHeldBuffer : Obligations.StepKeepsTheHeldBuffer := by
  intro s t pools life pos hd e
  have atReset : s.turn = .powerOn → PoolInv s.takeTurn.powerOn ∧ LifecycleInv s.takeTurn.powerOn ∧
      PositionInv s.takeTurn.powerOn ∧ DisplayInv s.takeTurn.powerOn :=
    fun _ => ⟨⟨pools.1, nofun⟩, resetWith_lifecycleInv s.params, ⟨nofun, nofun⟩, nofun⟩
  obtain ⟨-, -, -, hd'⟩ := kept_displayInv.step ⟨pools, life, pos, hd⟩ atReset e
  exact hd'

/-! ## A buffer released -/

/-- A buffer in the release pipeline is not free: the sets of R32 are disjoint. -/
theorem PoolInv.rel_not_free {s : State} (h : PoolInv s) (ha : s.allocated = true) {b : Handle}
    (hb : s.rel0 = some b ∨ s.rel1 = some b) : b ∉ s.freeq := by
  obtain ⟨-, nodup⟩ := h.owned ha
  simp only [State.owned, List.append_assoc] at nodup
  intro hm
  refine List.disjoint_of_nodup_append nodup hm ?_
  rcases hb with hb | hb <;> simp [hb]

theorem tickSteps_rel1 {s t : State} (e : tickSteps s = .ok t) : t.rel1 = s.rel0 := by
  obtain ⟨p, -, -, -, ht⟩ := tickSteps_frame e
  rw [ht]

theorem tickSteps_allocated {s t : State} (e : tickSteps s = .ok t) : t.allocated = s.allocated := by
  obtain ⟨p, -, -, -, ht⟩ := tickSteps_frame e
  rw [ht]

/-- A TICK frees the buffer in `REL1` (R125). -/
theorem tickSteps_frees_rel1 {s t : State} (e : tickSteps s = .ok t) {b : Handle} (hb : s.rel1 = some b) :
    b ∈ t.freeq := by
  obtain ⟨v, hv, -, -, -, -, -, -, freeq, -⟩ := tickSteps_view e
  obtain ⟨late, grown⟩ := hv.freeq_grows
  rw [freeq, grown]
  simp [ticked, hb]

/-- Settles O47: the buffer moves from `REL0` to `REL1` and then to `FREEQ`, and stands in one of them only. -/
theorem bufferIsFreeTwoTicksLater : Obligations.BufferIsFreeTwoTicksLater := by
  intro s t u b pools ha hb e e'
  have first := pools.tickSteps_of_exec ha e
  have pools' := tickSteps_poolInv pools first
  have ha' : t.allocated = true := (tickSteps_allocated first).trans ha
  have staged : t.rel1 = some b := (tickSteps_rel1 first).trans hb
  have second := pools'.tickSteps_of_exec ha' e'
  exact ⟨pools.rel_not_free ha (.inl hb), staged, pools'.rel_not_free ha' (.inr staged),
    tickSteps_frees_rel1 second staged⟩

/-! ## The template memory -/

/-- Settles O48: what an install patches, and that the stages before it write no memory. -/
theorem tickPatchesOnlySourceFields : Obligations.TickPatchesOnlySourceFields := by
  intro s t e hl
  obtain ⟨x, u, p, hi, rfl, hp, -, xparams, xmem, -⟩ := tickSteps_stages (tickSteps_of_exec e hl)
  have params : u.params = s.params := by rw [islandSelect_frame hi]; exact xparams
  have mem : u.mem = s.mem := by rw [islandSelect_frame hi]; exact xmem
  rw [← params]
  refine ⟨p, hp, fun l hlane => tplWord_install_island _ _ _ hlane, fun b hb l h0 hlane => ?_, fun o off h1 h2 => ?_⟩
  · rw [hb]
    exact tplWord_install_active _ _ _ h0 hlane
  · rw [byteAt_install h1 h2]
    exact State.byteAt_congr params mem o off

/-- A word of a descriptor is read off the memory and the parameters alone. -/
theorem State.tplWord_congr {s t : State} (hp : t.params = s.params) (hm : t.mem = s.mem) (tpl : Template)
    (l seg i : Nat) : t.tplWord tpl l seg i = s.tplWord tpl l seg i := by
  unfold State.tplWord State.read
  rw [hp, hm]

/-- The words of the descriptors after INIT. -/
theorem tplWord_init {s t : State} {mode : Byte} (hl : s.lifecycle = .uninit ∨ s.lifecycle = .destroyed)
    (e : exec (.init mode) s = .next t) (ht : t.lifecycle = .initialized) (tpl : Template) {l seg i : Nat}
    (h : l < s.params.l) (hs : seg < 4) (hi : i < 4) :
    t.tplWord tpl l seg i = some ((buildDescriptor s.params t.tt tpl l seg).word i) := by
  obtain ⟨tt, u, v, -, rfl, hu⟩ := init_completes hl e ht
  obtain ⟨up, utt, -, -, -, x, xp, -, -, -, -, hm, -, built⟩ := initEffects_view hu
  have hp : u.params = (buildStreams x).params := by rw [up, buildStreams_eq, xp]
  rw [State.reply_tplWord, State.reply_tt, utt, State.tplWord_congr hp hm, tplWord_buildStreams, built tpl l seg i h hs hi]

/-- The patch field of a descriptor and the segments it marks (R89, R122). -/
theorem patchKind_ne_zero_iff {t : Template} {l seg : Nat} :
    patchKind t l seg ≠ 0 ↔ seg = 1 ∨ (seg = 3 ∧ t = .active ∧ l ≠ 0) := by
  unfold patchKind Config.syncLane
  split_ifs with h1 h2 <;> simp [*]

/-- A lane number of a legal machine is one byte of its word (R9). -/
theorem laneWord_eq {p : Params} (hp : p.legal = true) {l : Nat} (h : l < p.l) :
    ((BitVec.ofNat 8 l).setWidth 32 : Word) = BitVec.ofNat 32 l := by
  obtain ⟨-, -, -, lanes⟩ := Params.legal_bounds hp
  apply BitVec.eq_of_toNat_eq
  simp only [BitVec.toNat_setWidth, BitVec.toNat_ofNat]
  omega

/-- Settles O20: each word of a descriptor holds the fields `buildDescriptor` gives it. -/
theorem initBuildsTheTemplates : Obligations.InitBuildsTheTemplates := by
  intro s t mode legal hl e ht tpl l seg h hs
  have word : ∀ {i}, i < 4 → t.tplWord tpl l seg i = _ := fun hi => tplWord_init hl e ht tpl h hs hi
  obtain ⟨count, incr, irq, patch, zeros⟩ := (buildDescriptor s.params t.tt tpl l seg).word_one
  refine ⟨word (by omega), ⟨_, word (by omega), count, ?_, ?_, patch, zeros⟩, ?_, ?_⟩
  · rw [incr, ← patchKind_ne_zero_iff]
    simp [buildDescriptor]
  · rw [irq]
    simp [buildDescriptor, Config.syncLane]
  · rw [word (by omega), ← laneWord_eq legal h]
    rfl
  · rw [word (by omega)]
    by_cases last : seg = 3
    · simp [buildDescriptor, Descriptor.word, last]
    · simp [buildDescriptor, Descriptor.word, last, beq_false_of_ne last]

end Sys2Proof.Machine

/-! PROOFS. The family 42_queue.md: what the PRODUCER's commands on the scanline buffer queue answer, the retry of a held
command, and a producer stall counted line by line. -/

namespace Sys2Proof.Machine

/-! ## The flags and the tokens of the buffers -/

/-- A flag written leaves the flags of the other buffers. -/
theorem State.setFilled_isFilled_other (s : State) {h x : Handle} (b : Bool) (hne : x ≠ h) :
    (s.setFilled h b).isFilled x = s.isFilled x := by
  have : h.toNat ≠ x.toNat := fun c => hne (BitVec.eq_of_toNat_eq c).symm
  simp [State.isFilled, State.setFilled, List.getD_eq_getElem?_getD, List.getElem?_set_ne this]

theorem State.setFilled_isFilled_self {s : State} {h : Handle} (b : Bool) (hl : h.toNat < s.filled.length) :
    (s.setFilled h b).isFilled h = b := by
  simp [State.isFilled, State.setFilled, List.getD_eq_getElem?_getD, hl]

/-- A cleared flag reads 0, also where no flag stands. -/
theorem State.setFilled_isFilled_clear (s : State) (h : Handle) : (s.setFilled h false).isFilled h = false := by
  by_cases hl : h.toNat < s.filled.length
  · exact setFilled_isFilled_self false hl
  · simp [State.isFilled, State.setFilled, List.getD_eq_getElem?_getD, hl]

theorem State.setToken_tokenOf_self {s : State} {h : Handle} (tok : Half) (hl : h.toNat < s.token.length) :
    (s.setToken h tok).tokenOf h = tok := by
  simp [State.tokenOf, State.setToken, List.getD_eq_getElem?_getD, hl]

/-! ## A hold, and a result on the port that issued -/

theorem State.hold_holds (s : State) : Holds s s.hold := by
  refine ⟨?_, State.setPort_port_self s _ _, fun _ hp => State.setPort_port_other s _ hp⟩
  unfold State.hold
  generalize ({ s.issuer with held := some s.bus.cmd } : Port) = q
  cases s.bus.port <;> rfl

/-- A held command of the PRODUCER stays held. -/
theorem State.hold_producer_held {s : State} (hp : s.bus.port = .producer) : s.hold.producer.held = some s.bus.cmd := by
  obtain ⟨-, held, -⟩ := s.hold_holds
  rw [hp] at held
  exact congrArg Port.held held

/-- A command of the PRODUCER completes with its result (R86). -/
theorem State.reply_producer {s : State} (hp : s.bus.port = .producer) (st : Status) (v : Word) :
    (s.reply st v).producer.held = none ∧ (s.reply st v).producer.resStatus = st.code ∧
      (s.reply st v).producer.resValue = v := by
  have done := State.reply_port_self s st v
  rw [hp] at done
  have done : (s.reply st v).producer = s.issuer.complete st v := done
  rw [done]
  exact ⟨rfl, rfl, rfl⟩

theorem State.reply_producer_and {s : State} (hp : s.bus.port = .producer) (st : Status) (v : Word) {P : Prop} (h : P) :
    (s.reply st v).producer.held = none ∧ (s.reply st v).producer.resStatus = st.code ∧
      (s.reply st v).producer.resValue = v ∧ P := by
  obtain ⟨free, status, value⟩ := State.reply_producer hp st v
  exact ⟨free, status, value, h⟩

/-! ## The two commands that acquire -/

theorem acquireFreeBuffer_holds {s : State} (live : s.live = true) (hq : s.freeq = []) :
    exec .acquireFreeBuffer s = .next s.hold := by
  refine (command_live _ live).trans ?_
  simp [acquireFreeBufferRule, hq]

theorem acquireFreeBuffer_pops {s : State} (live : s.live = true) {h : Handle} {rest : List Handle}
    (hq : s.freeq = h :: rest) : exec .acquireFreeBuffer s = .next ((State.setFilled
      { s with freeq := rest, prodBufs := insertHandle h s.prodBufs } h false).reply .ok (h.setWidth 32)) := by
  refine (command_live _ live).trans ?_
  simp [acquireFreeBufferRule, hq]

theorem acquireFreeAudioSlot_holds {s : State} (live : s.live = true) (hp : s.prodPair = none) (hq : s.pfreeq = []) :
    exec .acquireFreeAudioSlot s = .next s.hold := by
  refine (command_live _ live).trans ?_
  simp [acquireFreeAudioSlotRule, hp, hq]

theorem acquireFreeAudioSlot_reserved {s : State} (live : s.live = true) {p : Handle} (hp : s.prodPair = some p) :
    exec .acquireFreeAudioSlot s = .next (s.reply .ok (p.setWidth 32)) := by
  refine (command_live _ live).trans ?_
  simp [acquireFreeAudioSlotRule, hp]

theorem acquireFreeAudioSlot_pops {s : State} (live : s.live = true) (hp : s.prodPair = none) {p : Handle}
    {rest : List Handle} (hq : s.pfreeq = p :: rest) : exec .acquireFreeAudioSlot s = .next
      (({ s with pfreeq := rest, prodPair := some p } : State).reply .ok (p.setWidth 32)) := by
  refine (command_live _ live).trans ?_
  simp [acquireFreeAudioSlotRule, hp, hq]

/-- Settles O26: where the pools exist the command holds or pops, and the flag of the buffer popped is cleared. -/
theorem acquireFreeBufferResult : Obligations.AcquireFreeBufferResult := by
  intro s
  refine ⟨fun notLive hl => command_not_live _ notLive hl,
    fun live hq => ⟨s.hold, acquireFreeBuffer_holds live hq, s.hold_holds⟩, fun h rest live hq => ?_⟩
  exact ⟨insertHandle h s.prodBufs, s.filled.set h.toNat false, fun _ => mem_insertHandle, s.setFilled_isFilled_clear h,
    fun _ hx => s.setFilled_isFilled_other false hx, acquireFreeBuffer_pops live hq⟩

/-- Every answer of `ACQUIRE_FREE_BUFFER` to the PRODUCER, as its port and the pools show it. -/
theorem acquireFreeBuffer_answers {s : State} (port : s.bus.port = .producer) (hl : s.lifecycle ≠ .halted) :
    ∃ t : State, exec .acquireFreeBuffer s = .next t ∧
      (s.live = true → s.freeq = [] →
        t.producer.held = some s.bus.cmd ∧ t.freeq = [] ∧ t.prodBufs = s.prodBufs) ∧
      (∀ h rest, s.live = true → s.freeq = h :: rest → t.producer.held = none ∧
        t.producer.resStatus = Status.ok.code ∧ t.producer.resValue = h.setWidth 32 ∧ t.freeq = rest ∧
        h ∈ t.prodBufs) ∧
      (s.live = false → t.producer.held = none ∧ t.producer.resStatus = Status.wrongState.code ∧
        t.producer.resValue = 0) := by
  obtain ⟨t, e⟩ : ∃ t, exec .acquireFreeBuffer s = .next t := ⟨_, rfl⟩
  have result : ∀ {t'}, exec .acquireFreeBuffer s = .next t' → t = t' := fun e' =>
    Host.Outcome.next.inj (e.symm.trans e')
  refine ⟨t, e, fun live hq => ?_, fun h rest live hq => ?_, fun gone => ?_⟩
  · rw [result (acquireFreeBuffer_holds live hq)]
    exact ⟨State.hold_producer_held port, by simpa using hq, State.hold_prodBufs s⟩
  · rw [result (acquireFreeBuffer_pops live hq)]
    refine State.reply_producer_and ?_ _ _ ?_
    · exact port
    · simp
  · rw [result (command_not_live _ gone hl)]
    exact State.reply_producer port .wrongState 0

/-- Every answer of `ACQUIRE_FREE_AUDIO_SLOT` to the PRODUCER, as its port and the pairs show it. -/
theorem acquireFreeAudioSlot_answers {s : State} (port : s.bus.port = .producer) (hl : s.lifecycle ≠ .halted) :
    ∃ t : State, exec .acquireFreeAudioSlot s = .next t ∧
      (s.live = true → s.prodPair = none → s.pfreeq = [] →
        t.producer.held = some s.bus.cmd ∧ t.pfreeq = [] ∧ t.prodPair = none) ∧
      (∀ p rest, s.live = true → s.prodPair = none → s.pfreeq = p :: rest → t.producer.held = none ∧
        t.producer.resStatus = Status.ok.code ∧ t.producer.resValue = p.setWidth 32 ∧ t.pfreeq = rest ∧
        t.prodPair = some p) ∧
      (∀ p, s.live = true → s.prodPair = some p → t.producer.held = none ∧
        t.producer.resStatus = Status.ok.code ∧ t.producer.resValue = p.setWidth 32 ∧ t.pfreeq = s.pfreeq ∧
        t.prodPair = some p) ∧
      (s.live = false → t.producer.held = none ∧ t.producer.resStatus = Status.wrongState.code ∧
        t.producer.resValue = 0) := by
  obtain ⟨t, e⟩ : ∃ t, exec .acquireFreeAudioSlot s = .next t := ⟨_, rfl⟩
  have result : ∀ {t'}, exec .acquireFreeAudioSlot s = .next t' → t = t' := fun e' =>
    Host.Outcome.next.inj (e.symm.trans e')
  refine ⟨t, e, fun live hp hq => ?_, fun p rest live hp hq => ?_, fun p live hp => ?_, fun gone => ?_⟩
  · rw [result (acquireFreeAudioSlot_holds live hp hq)]
    exact ⟨State.hold_producer_held port, by simpa using hq, by simpa using hp⟩
  · rw [result (acquireFreeAudioSlot_pops live hp hq)]
    refine State.reply_producer_and ?_ _ _ ?_
    · exact port
    · simp
  · rw [result (acquireFreeAudioSlot_reserved live hp)]
    exact State.reply_producer_and port _ _ ⟨State.reply_pfreeq .., by simpa using hp⟩
  · rw [result (command_not_live _ gone hl)]
    exact State.reply_producer port .wrongState 0

/-- The delivery of a command leaves the lifecycle check. -/
theorem State.delivered_live (s : State) (p : PortId) (c : Command) : (s.takeTurn.latch p c).live = s.live := by
  rw [State.live, State.latch_lifecycle, State.takeTurn_lifecycle, State.live]

/-- Settles O27: the PRODUCER's turn delivers the held command again, and it answers from the pools of the state before,
which the delivery leaves. -/
theorem heldAcquireCompletesWhenFree : Obligations.HeldAcquireCompletesWhenFree := by
  intro s c turn held hl
  have delivered : ∀ i, decode (.port .producer) c.word = .ok i → step s = exec i (s.takeTurn.latch .producer c) :=
    fun i => (stepRunsDecodedCommand.1 .producer s turn).1 c i held
  constructor
  · intro hw
    obtain ⟨t, e, answers⟩ := acquireFreeBuffer_answers (s := s.takeTurn.latch .producer c) rfl hl
    refine ⟨t, (delivered .acquireFreeBuffer (by rw [hw]; decide)).trans e, ?_⟩
    simpa only [State.delivered_live, State.latch_freeq, State.latch_prodBufs, State.takeTurn_freeq,
      State.takeTurn_prodBufs, State.latch_bus] using answers
  · intro hw
    obtain ⟨t, e, answers⟩ := acquireFreeAudioSlot_answers (s := s.takeTurn.latch .producer c) rfl hl
    refine ⟨t, (delivered .acquireFreeAudioSlot (by rw [hw]; decide)).trans e, ?_⟩
    simpa only [State.delivered_live, State.latch_pfreeq, State.latch_prodPair, State.takeTurn_pfreeq,
      State.takeTurn_prodPair, State.latch_bus] using answers

/-! ## Filling and submitting -/

/-- Settles O28: the effect is one write into the whole of `BUF[h]`, and the flag. -/
theorem fillBufferResult : Obligations.FillBufferResult := by
  intro s h
  have run : s.live = true → exec (.fillBuffer h) s = .next (s.answer (fillBufferRule h s)) := command_live _
  refine ⟨fun notLive hl => command_not_live _ notLive hl, fun live hn => ?_, fun live hn ho => ?_,
    fun live hn ho => ?_⟩
  · rw [run live, fillBufferRule, if_pos hn, answer_refuse]
  · rw [run live, fillBufferRule, if_neg (by omega), if_pos ho, answer_raise]
  · refine ⟨(s.write (.buf h) 0 s.params.bufBytes s.bus.cmd.content).mem, s.filled.set h.toNat true, ?_,
      fun flags => State.setFilled_isFilled_self (s := s) true (flags ▸ hn),
      fun _ hx => s.setFilled_isFilled_other true hx, ?_, fun o off ho => ?_⟩
    · rw [run live, fillBufferRule, if_neg (by omega), if_neg (not_not.2 ho), answer_done]
      rfl
    · exact State.read_write_self s s.bus.cmd.content (by simp [objSize])
    · exact State.byteAt_write_outside s s.bus.cmd.content (.inl ho)

/-- A push on a `VALIDQ` that holds its capacity raises (R28). -/
theorem pushValid_full {h : Handle} {s : State} (full : s.params.n ≤ s.validq.length) :
    pushValid h s = .error .queueOverflow :=
  if_neg (Nat.not_lt.2 full)

/-- Past its checks the rule pushes the buffer under its token. -/
theorem submitValidBufferRule_checked {h : Handle} {tok : Half} {s : State} (hn : h.toNat < s.params.n)
    (ht : tok.toNat < s.aSrc) (owned : h ∈ s.prodBufs) (filled : s.isFilled h = true) :
    submitValidBufferRule h tok s =
      okOrRaise (pushValid h { s.setToken h tok with prodBufs := removeHandle h s.prodBufs }) := by
  rw [submitValidBufferRule, if_neg (by omega), if_neg (not_not.2 owned), if_neg (by simp [filled])]

/-- Settles O29: the checks of the rule in their order, then the token, the move out of `PROD_BUFS` and the push. -/
theorem submitValidBufferResult : Obligations.SubmitValidBufferResult := by
  intro s h tok
  dsimp only
  have run : s.live = true → exec (.submitValidBuffer h tok) s = .next (s.answer (submitValidBufferRule h tok s)) :=
    command_live _
  refine ⟨fun notLive hl => command_not_live _ notLive hl, fun live bad => ?_, fun live hn ht => ?_⟩
  · have bad : s.params.n ≤ h.toNat ∨ s.aSrc ≤ tok.toNat := bad
    rw [run live, submitValidBufferRule, if_pos bad, answer_refuse]
  have ht : tok.toNat < s.aSrc := ht
  rw [run live]
  refine ⟨fun ho => ?_, fun ho hf => ?_, fun ho hf full => ?_, fun ho hf room => ?_⟩
  · rw [submitValidBufferRule, if_neg (by omega), if_pos ho, answer_raise]
  · rw [submitValidBufferRule, if_neg (by omega), if_neg (not_not.2 ho), if_pos hf, answer_raise]
  · rw [submitValidBufferRule_checked hn ht ho hf, pushValid_full]
    · rfl
    · exact full
  · refine ⟨removeHandle h s.prodBufs, s.token.set h.toNat tok, fun _ => mem_removeHandle,
      fun tokens => State.setToken_tokenOf_self (s := s) tok (tokens ▸ hn),
      fun _ hx => s.setToken_tokenOf_other tok hx, ?_⟩
    rw [submitValidBufferRule_checked hn ht ho hf, pushValid_room]
    · rfl
    · exact room

/-! ## A producer stall (R158) -/

/-- One line a source line, the whole ACTIVE region in the band, no scanline emulation. -/
def FullBand (s : State) : Prop :=
  s.k = 1 ∧ s.bandFirst = 0 ∧ s.bandEnd = s.tt.vActiveLines ∧ s.scanlineEmu = 0

/-- Every ACTIVE line of a full band is a group of its own. -/
theorem FullBand.classifyLine_eq {s : State} (h : FullBand s) {a : Nat} (ha : a < s.tt.vActiveLines.toNat) :
    classifyLine s a = { inBand := true, blanked := false, src := a, groupEnd := true } := by
  obtain ⟨hk, hf, he, hs⟩ := h
  simp [classifyLine, hk, hf, he, hs, ha, Nat.mod_one]

/-- A running ENGINE at the end of a group, before ACTIVE line `a` of a full band or at the band's end, with the buffers of
the lines from `a` on in `VALIDQ`, in order. -/
def Stalling (a : Nat) (s : State) : Prop :=
  Running s ∧ FullBand s ∧ s.cur = none ∧
    (a < s.tt.vActiveLines.toNat → (advance s).phase = .active ∧ (advance s).vctr.toNat = a) ∧
    ∀ j h, s.validq[j]? = some h → (s.tokenOf h).toNat = a + j

/-- What the line takes: the head of `VALIDQ`, which is never late, or else an error. -/
theorem Stalling.selection {s : State} {a : Nat} (h : Stalling a s) (ha : a < s.tt.vActiveLines.toNat) {v : Selection}
    (hv : VideoCase (ticked s) v) :
    v.state.validq = s.validq.tail ∧ v.state.lateCnt = s.lateCnt ∧ v.state.cur = none ∧
      v.state.errCnt = if s.validq = [] then s.errCnt + 1 else s.errCnt := by
  obtain ⟨⟨⟨legal, -⟩, -⟩, band, hc, line, tokens⟩ := h
  obtain ⟨phase, vctr⟩ := line ha
  have lineClass : classify (ticked s) = { inBand := true, blanked := false, src := a, groupEnd := true } := by
    rw [← band.classifyLine_eq ha, ← vctr]
    rfl
  obtain ⟨cur, -⟩ := hv.hold_active rfl phase rfl
  rw [lineClass, if_pos rfl] at cur
  obtain ⟨late, rest, hl, ⟨validq, -, lateCnt⟩, shown⟩ := (hv.picture phase (by rw [lineClass])).2 hc
  have noLate : late = [] := by
    obtain ⟨queue, hq⟩ : ∃ queue, s.validq = late ++ queue := by
      rcases shown with ⟨b, -, -, hq, -⟩ | ⟨-, -, -, hq, -⟩ <;> exact ⟨_, hq⟩
    cases late with
    | nil => rfl
    | cons x late =>
      have isLate := hl x (List.mem_cons_self ..)
      rw [lineClass] at isLate
      exact absurd (tokens 0 x (by rw [hq]; rfl)) isLate
  subst noLate
  have errCnt := hv.errors
  rcases shown with ⟨b, tpl, -, hq, -⟩ | ⟨tpl, -, -, hq, hr⟩
  · have hq : s.validq = b :: rest := hq
    exact ⟨by rw [validq, hq, List.tail_cons], lateCnt.trans (BitVec.add_zero _), cur,
      by rw [errCnt, tpl, if_neg (by decide), if_neg (by simp [hq])]; rfl⟩
  · have pos : 0 ≠ s.params.n := by
      obtain ⟨-, ⟨e, -, hn⟩, -⟩ := Params.legal_bounds legal
      rw [hn]
      exact (Nat.two_pow_pos e).ne
    have empty : rest = [] := hr.resolve_right pos
    have hq : s.validq = [] := hq.trans empty
    exact ⟨by rw [validq, hq, empty, List.tail_nil], lateCnt.trans (BitVec.add_zero _), cur,
      by rw [errCnt, tpl, if_pos rfl, if_pos hq]; rfl⟩

/-- A TICK on the line leads to the stall at the next line, and counts the line if no buffer covers it. -/
theorem Stalling.tick {s : State} {a : Nat} (h : Stalling a s) (ha : a < s.tt.vActiveLines.toNat) :
    ∃ t, exec .tick s = .next t ∧ Stalling (a + 1) t ∧ t.tt = s.tt ∧ t.validq = s.validq.tail ∧
      t.lateCnt = s.lateCnt ∧ t.errCnt = if s.validq = [] then s.errCnt + 1 else s.errCnt := by
  obtain ⟨running, band, -, line, tokens⟩ := id h
  obtain ⟨t, e, running', ⟨tt, tphase, tvctr, -⟩, -⟩ := running.tick
  obtain ⟨phase, vctr⟩ := line ha
  have steps := running.1.tickSteps_of_exec running.allocated e
  obtain ⟨v, hv, -, -, -, validq, cur, errCnt, -, lateCnt, -⟩ := tickSteps_view steps
  obtain ⟨vq, vlate, vcur, verr⟩ := h.selection ha hv
  have band' : FullBand t := by
    obtain ⟨p, -, -, -, ht⟩ := tickSteps_frame steps
    rw [ht]
    exact band
  rw [advance_tt] at tt
  refine ⟨t, e, ⟨running', band', cur.trans vcur, fun ha' => ?_, fun j x hx => ?_⟩, tt, validq.trans vq,
    lateCnt.trans vlate, errCnt.trans verr⟩
  · have here : t.phase = .active := tphase.trans phase
    have at_a : t.vctr.toNat = a := by rw [tvctr, vctr]
    have inside : t.vctr.toNat + 1 < (phaseLen t.tt t.phase).toNat := by rw [here, at_a]; exact ha'
    rw [advance_inside inside.ne]
    exact ⟨here, (lineIndex_add 1 inside).trans (by rw [at_a])⟩
  · rw [validq, vq, List.getElem?_tail] at hx
    rw [tickSteps_tokenOf steps, tokens _ _ hx]
    omega

/-- `n` ticks over the lines of a stall: each takes one buffer while there is one, and the others are counted. -/
theorem Stalling.ticks (n : Nat) {s : State} {a : Nat} (h : Stalling a s) (hn : a + n ≤ s.tt.vActiveLines.toNat) :
    ∃ t, ticks n s = some t ∧ t.errCnt = s.errCnt + BitVec.ofNat 32 (n - s.validq.length) ∧ t.lateCnt = s.lateCnt ∧
      t.validq = s.validq.drop n := by
  induction n generalizing s a with
  | zero => exact ⟨s, rfl, by simp, rfl, rfl⟩
  | succ n ih =>
    obtain ⟨t, e, ht, tt, validq, lateCnt, errCnt⟩ := h.tick (by omega)
    obtain ⟨u, e', uerr, ulate, uvalid⟩ := ih ht (by rw [tt]; omega)
    refine ⟨u, by rw [Machine.ticks, e]; exact e', ?_, ulate.trans lateCnt, by rw [uvalid, validq, List.drop_tail]⟩
    rw [uerr, errCnt, validq]
    cases s.validq with
    | nil => simpa using ofNat_succ_word n s.errCnt
    | cons x rest => simp

/-- Settles O60: the ticks of a stall that outlasts the buffers. -/
theorem starvationIsCountedExactly : Obligations.StarvationIsCountedExactly := by
  intro s a n pools life pos started hk hf he hs hc phase vctr hn tokens short
  have h : Stalling a s := ⟨⟨pools, life, pos, started⟩, ⟨hk, hf, he, hs⟩, hc, fun _ => ⟨phase, vctr⟩, tokens⟩
  obtain ⟨t, e, errCnt, lateCnt, validq⟩ := h.ticks n hn
  exact ⟨t, e, errCnt, lateCnt, validq.trans (List.drop_eq_nil_of_le short.le)⟩

end Sys2Proof.Machine

/-! PROOFS. The family 43_audio.md: the gate and the slot, the bytes of an audio sample packet, what a submit answers, the
stamp INIT computes, and the island source of a line. -/

namespace Sys2Proof.Machine

/-! ## The gate and the slot -/

/-- Settles O30: where the pools exist the rule's checks decide, in their order. -/
theorem setAudioEnabledResult : Obligations.SetAudioEnabledResult := by
  intro s b
  have run : ∀ b, s.live = true → exec (.setAudioEnabled b) s = .next (s.answer (setAudioEnabledRule b s)) :=
    fun _ => command_live _
  refine ⟨fun notLive hl => command_not_live _ notLive hl, fun live => ⟨fun bad => ?_, fun no => ?_, fun ok => ?_, ?_⟩⟩
  · rw [run b live, setAudioEnabledRule, if_pos bad, answer_refuse]
  · rw [run 1 live, setAudioEnabledRule, if_neg (by decide), if_pos ⟨rfl, no⟩, answer_refuse]
  · rw [run 1 live, setAudioEnabledRule, if_neg (by decide), if_neg (by simp [ok]), answer_done]
    rfl
  · rw [run 0 live, setAudioEnabledRule, if_neg (by decide), if_neg (by simp), answer_done]
    rfl

/-- Settles O31: the reserved pair, a hold, or the head of `PFREEQ`. -/
theorem acquireFreeAudioSlotResult : Obligations.AcquireFreeAudioSlotResult :=
  fun s => ⟨fun notLive hl => command_not_live _ notLive hl, fun _ live hp => acquireFreeAudioSlot_reserved live hp,
    fun live hp hq => ⟨s.hold, acquireFreeAudioSlot_holds live hp hq, s.hold_holds⟩,
    fun _ _ live hp hq => acquireFreeAudioSlot_pops live hp hq⟩

/-! ## The bytes of an audio sample packet -/

/-- `SB6` packs C and P of the left channel into bits 2 and 3, of the right into bits 6 and 7, and leaves the rest 0. -/
theorem statusByte_bits (left right : Half) (c : Bool) :
    let st := statusByte left right c
    (st.getLsbD 0 = false ∧ st.getLsbD 1 = false ∧ st.getLsbD 4 = false ∧ st.getLsbD 5 = false ∧
      st.getLsbD 2 = c ∧ st.getLsbD 6 = c) ∧
    (List.range 4).countP (fun i => st.getLsbD i) = c.toNat + (parityBit left c).toNat ∧
    (List.range 4).countP (fun i => st.getLsbD (4 + i)) = c.toNat + (parityBit right c).toNat := by
  unfold statusByte
  generalize parityBit left c = pl
  generalize parityBit right c = pr
  revert c pl pr
  decide

/-- With its parity bit a sample and `C` hold an even number of ones (R192). -/
theorem parityBit_even (v : Half) (c : Bool) : (ones v + (c.toNat + (parityBit v c).toNat)) % 2 = 0 := by
  rw [← Nat.add_assoc, parityBit]
  rcases Nat.mod_two_eq_zero_or_one (ones v + c.toNat) with even | odd
  · simp [even]
  · simp only [odd, beq_self_eq_true, Bool.toNat_true]
    omega

/-- The ones of a half of a frame. -/
theorem ones_extractLsb' (frame : Word) (start : Nat) :
    ones (frame.extractLsb' start 16) = (List.range 16).countP fun i => frame.getLsbD (start + i) :=
  List.countP_congr fun i hi => by simp [List.mem_range.1 hi]

/-- The formatter's audio sample subpacket is the one of R191. -/
theorem sampleBytes_audioSubpacket (frame : Word) (c : Bool) : SampleBytes frame c (audioSubpacket frame c) := by
  obtain ⟨⟨b0, b1, b4, b5, b2, b6⟩, low, high⟩ :=
    statusByte_bits (frame.extractLsb' 0 16) (frame.extractLsb' 16 16) c
  have evenLow := parityBit_even (frame.extractLsb' 0 16) c
  have evenHigh := parityBit_even (frame.extractLsb' 16 16) c
  rw [ones_extractLsb'] at evenLow evenHigh
  simp only [Nat.zero_add] at evenLow
  refine ⟨_, ?_, b0, b1, b4, b5, b2, b6, by rw [low]; exact evenLow, by rw [high]; exact evenHigh⟩
  have byte : ∀ i, i ≤ 8 → (frame.extractLsb' 16 16).extractLsb' i 8 = frame.extractLsb' (16 + i) 8 := fun i hi => by
    ext j hj
    simp [show i + j < 16 by omega, Nat.add_assoc]
  simp [audioSubpacket, byte]

/-- A flag B stands where a block of 192 frames begins, and nowhere else in its byte (R190). -/
theorem blockFlags_bits (idx : BitVec 8) :
    (blockFlags idx).extractLsb' 0 4 = 0 ∧
      ∀ k, k < 4 → (blockFlags idx).getLsbD (4 + k) = decide ((idx.toNat + k) % 192 = 0) := by
  have four : ∀ b0 b1 b2 b3 : Bool,
      let flags : Byte := BitVec.ofNat 8 (0 + (if b0 then 2 ^ 4 else 0) + (if b1 then 2 ^ 5 else 0) +
        (if b2 then 2 ^ 6 else 0) + (if b3 then 2 ^ 7 else 0))
      flags.extractLsb' 0 4 = 0 ∧
        flags.getLsbD 4 = b0 ∧ flags.getLsbD 5 = b1 ∧ flags.getLsbD 6 = b2 ∧ flags.getLsbD 7 = b3 := by decide
  have flags := four (decide (blockPos idx 0 = 0)) (decide (blockPos idx 1 = 0)) (decide (blockPos idx 2 = 0))
    (decide (blockPos idx 3 = 0))
  simp only [decide_eq_true_eq] at flags
  obtain ⟨low, h0, h1, h2, h3⟩ := flags
  exact ⟨low, fun | 0, _ => h0 | 1, _ => h1 | 2, _ => h2 | 3, _ => h3⟩

/-- The formatter's audio sample packet is the one of R190 and R191. -/
theorem samplePacket_audioSamplePacket (p : Params) (f0 f1 f2 f3 : Word) (idx : BitVec 8) :
    SamplePacket p f0 f1 f2 f3 idx.toNat (audioSamplePacket p [f0, f1, f2, f3] idx) := by
  obtain ⟨low, high⟩ := blockFlags_bits idx
  exact ⟨blockFlags idx, _, _, _, _, packetBytes_packet p _ _ _ _ _, low, high, sampleBytes_audioSubpacket ..,
    sampleBytes_audioSubpacket .., sampleBytes_audioSubpacket .., sampleBytes_audioSubpacket ..⟩

/-- The default `ecc8` takes one byte more bit by bit (R194). -/
theorem ecc8_append {p : Params} (h : p.ecc = .bch) (bytes : List Byte) (b : Byte) :
    ecc8 p (bytes ++ [b]) = eccByte (ecc8 p bytes) b := by
  simp [ecc8, h, bchEcc]

/-- One bit of the error register, by whether it equals the input bit (R194). -/
theorem eccBit_eq (e : Byte) (b : Bool) :
    eccBit e b = if b = e.getLsbD 0 then e >>> 1 else (e >>> 1) ^^^ 0x83 := by
  by_cases h : b = e.getLsbD 0 <;> simp [eccBit, h]

/-! ## The submit -/

/-- The pair a submit takes: the reserved one, else the head of `PFREEQ` (R185). -/
theorem takePair_some {s : State} {p : Handle} {rest : List Handle}
    (h : (s.prodPair = some p ∧ rest = s.pfreeq) ∨ (s.prodPair = none ∧ s.pfreeq = p :: rest)) :
    takePair s = some (p, { s with pfreeq := rest }) := by
  obtain ⟨hp, rfl⟩ | ⟨hp, hq⟩ := h
  · have reserved : takePair s = some (p, s) := by simp [takePair, hp]
    exact reserved
  · rw [takePair, hp, hq]

theorem namedByProg_iff {s : State} {p : Handle} :
    s.namedByProg p = true ↔ ∃ (g : LineProgram) (pol : Bool), s.prog = some g ∧ g.island = .pair p pol := by
  unfold State.namedByProg
  cases s.prog with
  | none => simp
  | some g =>
    obtain ⟨_, _, island, _, _, _⟩ := g
    cases island <;> simp [← and_or_left]

/-- The installed program names the pair taken (R186). -/
theorem submitAudioSamplesRule_raced {s t : State} {p : Handle} (ok : s.audioOk = true)
    (taken : takePair s = some (p, t)) (named : t.namedByProg p = true) :
    submitAudioSamplesRule s = .raise .islandRace := by
  simp [submitAudioSamplesRule, ok, taken, named]

/-- The pair taken is encoded and queued, and the block index moves on by the four frames (R185). -/
theorem submitAudioSamplesRule_queued {s t : State} {p : Handle} (ok : s.audioOk = true)
    (taken : takePair s = some (p, t)) (unnamed : t.namedByProg p = false) (room : t.pvalidq.length < t.params.m) :
    submitAudioSamplesRule s = .done .ok 1 { encodePair t p (audioSamplePacket t.params t.frames t.audFrameIdx) with
      prodPair := none, pvalidq := t.pvalidq ++ [p]
      audFrameIdx := BitVec.ofNat 8 ((t.audFrameIdx.toNat + 4) % 192) } := by
  rw [submitAudioSamplesRule, if_neg (by simp [ok]), taken]
  dsimp only
  rw [if_neg (by simp [unnamed]), pushPairValid_room]
  · rfl
  · exact room

/-- Settles O32: the checks of the rule in their order, the packet of the formatter, and the bit loop of `ecc8`. -/
theorem submitAudioSamplesResult : Obligations.SubmitAudioSamplesResult := by
  refine ⟨fun s => ?_, fun params bch => ⟨by simp [ecc8, bch, bchEcc], fun bytes b => ?_⟩⟩
  · have run : s.live = true → exec .submitAudioSamples s = .next (s.answer (submitAudioSamplesRule s)) := command_live _
    refine ⟨fun notLive hl => command_not_live _ notLive hl, fun live no => ?_, fun live ok hp hq => ?_,
      fun p rest live ok h => ⟨fun named => ?_, fun unnamed room => ?_⟩⟩
    · rw [run live, submitAudioSamplesRule, if_pos no, answer_refuse]
    · rw [run live, submitAudioSamplesRule, if_neg (by simp [ok]), takePair, hp, hq]
      rfl
    · rw [run live, submitAudioSamplesRule_raced ok (takePair_some h) (namedByProg_iff.2 named), answer_raise]
    · have free : s.namedByProg p = false := Bool.eq_false_of_not_eq_true fun named => by
        obtain ⟨g, pol, hg, island⟩ := namedByProg_iff.1 named
        exact unnamed g pol hg island
      refine ⟨_, _, samplePacket_audioSamplePacket s.params _ _ _ _ s.audFrameIdx, ?_, fun pol => enc_encodePair s p _ pol,
        fun o off ho => byteAt_encodePair s _ ho⟩
      rw [run live, submitAudioSamplesRule_queued ok (takePair_some h) free room]
      rfl
  · rw [ecc8_append bch, eccByte]
    simp only [eccBit_eq]

/-! ## The stamp -/

/-- INIT accepts the table of its mode (R233). -/
theorem acceptedTable_modeTable {s : State} {mode : Byte} {tt : TimingTable} (h : acceptedTable s mode = some tt) :
    modeTable s.params mode = some tt := by
  unfold acceptedTable at h
  split at h
  · cases h
  · split at h
    · cases Option.some.inj h
      assumption
    · cases h

theorem audioValues_of_no_row {p : Params} {tt : TimingTable} {code : Half}
    (h : p.rates.find? (fun r => r.code == code) = none) : audioValues p tt code = none := by
  rw [audioValues, h]

/-- With a row for the rate code the stamp is valid in its range (R183, R184). -/
theorem audioValues_of_row {p : Params} {tt : TimingTable} {code : Half} {r : RateRow}
    (h : p.rates.find? (fun r => r.code == code) = some r) :
    let stamp := stampOf tt.pixelClockHz.toNat r.rate r.constant.toNat
    audioValues p tt code = if 0 < tt.pixelClockHz.toNat ∧ 1 ≤ stamp ∧ stamp ≤ 2 ^ 20 - 1 then
      some (BitVec.ofNat 20 stamp, r.constant) else none := by
  rw [audioValues, h]

/-- Settles O18: INIT leaves the audio values of the mode's table and the configured rate code, which are the stamp and `N`
in the valid range and 0 elsewhere. -/
theorem initComputesTheStamp : Obligations.InitComputesTheStamp := by
  intro s t mode tt hl hm e ht
  obtain ⟨tt', u, v, accepted, rfl, hu⟩ := init_completes hl e ht
  obtain rfl : tt' = tt := Option.some.inj ((acceptedTable_modeTable accepted).symm.trans hm)
  obtain ⟨-, -, ok, cts, nval, -⟩ := initEffects_view hu
  rw [State.reply_audioOk, State.reply_cts, State.reply_nval, ok, cts, nval]
  refine ⟨fun r hr => ?_, fun hr => by rw [audioValues_of_no_row hr]; exact ⟨rfl, rfl, rfl⟩⟩
  rw [audioValues_of_row hr]
  refine ⟨fun clock low high => ?_, fun invalid => ?_⟩
  · rw [if_pos ⟨clock, low, high⟩]
    exact ⟨rfl, Nat.mod_eq_of_lt (Nat.lt_of_le_pred (by decide) high), rfl⟩
  · rw [if_neg (by unfold stampOf; omega)]
    exact ⟨rfl, rfl, rfl⟩

/-! ## The island source -/

/-- Settles O33: the branches of the rule in their order; a pair taken has room in `PFREEQ`. -/
theorem islandSelection : Obligations.IslandSelection := by
  intro s
  refine ⟨rfl, fun hp hv => ?_, fun hp hv => ?_, fun later => ?_⟩
  · simp [islandSelect, hp, hv]
  · simp [islandSelect, hp, hv]
  have not_zero : ¬ (s.phase = .frontPorch ∧ s.vctr = 0) := fun ⟨hp, hv⟩ => later ⟨hp, by simp [hv]⟩
  have not_one : ¬ (s.phase = .frontPorch ∧ s.vctr = 1) := fun ⟨hp, hv⟩ => later ⟨hp, by simp [hv]⟩
  rw [islandSelect, if_neg (by simp), if_neg not_zero, if_neg not_one]
  refine ⟨fun hq => ?_, fun p rest hq room => ?_⟩
  · rw [hq]
    rfl
  · rw [hq]
    dsimp only
    rw [pushPairFree_room (by exact room)]
    rfl

end Sys2Proof.Machine

/-! PROOFS. The family 44_ring.md: the two sizes and the slots as numbers modulo `C`, what the SOURCE's and the PRODUCER's
ring commands answer, and what each side leaves of the other's. -/

namespace Sys2Proof.Machine

/-! ## The sizes and the offsets (R211) -/

/-- The free slots are the published ones complemented under the index mask. -/
theorem writeSize_eq_not (s : State) : s.writeSize = ~~~(s.ringWr - s.ringRd) &&& ringMask s.params := by
  rw [State.writeSize, show s.ringRd - s.ringWr - 1 = ~~~(s.ringWr - s.ringRd) by bv_omega]

/-- Settles O39: a remainder modulo `C` and that of the complement sum to `C - 1`, because `C` divides the range of an
offset. -/
theorem ringSizesSum : Obligations.RingSizesSum := by
  intro s legal
  obtain ⟨q, range⟩ := legal_c_dvd legal
  have below := (s.ringWr - s.ringRd).isLt
  rw [State.readSize, writeSize_eq_not, and_ringMask legal, and_ringMask legal, BitVec.toNat_not]
  generalize (s.ringWr - s.ringRd).toNat = x at below ⊢
  have complement : (s.params.c * q - (x + 1)) % s.params.c = s.params.c - (x % s.params.c + 1) :=
    Nat.mul_sub_mod (by omega)
  have small : x % s.params.c < s.params.c := Nat.mod_lt _ (by have := legal_c_pos legal; omega)
  rw [show 2 ^ 16 - 1 - x = s.params.c * q - (x + 1) by omega, complement]
  omega

/-- The slot `read_size` beyond `RING_RD` is the one at `RING_WR`. -/
theorem ringSlotAt_readSize {s : State} (h : RingInv s) : ringSlotAt s.params s.ringRd s.readSize = s.ringWr := by
  obtain ⟨legal, wr, -⟩ := h
  refine BitVec.eq_of_toNat_eq ?_
  obtain ⟨q, range⟩ := legal_c_dvd legal
  have below := s.ringRd.isLt
  rw [ringSlotAt_toNat legal, readSize_toNat legal, Nat.add_mod_mod,
    show s.ringRd.toNat + (65536 - s.ringRd.toNat + s.ringWr.toNat) = s.ringWr.toNat + s.params.c * q by omega,
    Nat.add_mul_mod_self_left, Nat.mod_eq_of_lt wr]

/-- Different counts below `C` reach different slots. -/
theorem ringSlotAt_inj {p : Params} (legal : p.legal = true) {off j k : Half} (hj : j.toNat < p.c) (hk : k.toNat < p.c)
    (e : ringSlotAt p off j = ringSlotAt p off k) : j = k := by
  have congruent : (off.toNat + j.toNat) % p.c = (off.toNat + k.toNat) % p.c := by
    rw [← ringSlotAt_toNat legal, ← ringSlotAt_toNat legal, e]
  exact BitVec.eq_of_toNat_eq ((Nat.ModEq.add_left_cancel' off.toNat congruent).eq_of_lt_of_lt hj hk)

/-- Publishing `n` free slots makes the published ones `n` more (R212, R214). -/
theorem readSize_advance {s t : State} {n : Half} (legal : s.params.legal = true) (hn : n.toNat ≤ s.writeSize.toNat)
    (params : t.params = s.params) (rd : t.ringRd = s.ringRd) (wr : t.ringWr = ringSlotAt s.params s.ringWr n) :
    t.readSize.toNat = s.readSize.toNat + n.toNat := by
  have sum := ringSizesSum s legal
  have pos := legal_c_pos legal
  have room : s.readSize.toNat + n.toNat < s.params.c := by omega
  rw [readSize_toNat legal] at room ⊢
  rw [readSize_toNat (params ▸ legal), params, rd, wr, ringSlotAt_toNat legal, Nat.add_mod_mod, ← Nat.add_assoc,
    Nat.add_mod, Nat.mod_eq_of_lt (a := n.toNat) (by omega), Nat.mod_eq_of_lt room]

/-! ## A frame is pushed -/

theorem ringPush_full {s : State} (live : s.live = true) (full : s.writeSize = 0) :
    exec .ringPush s = .next (s.reply .falseResult 0) := by
  refine (command_live _ live).trans ?_
  rw [ringPushRule, if_pos full, answer_refuse]

theorem ringPush_stores {s : State} (live : s.live = true) (room : s.writeSize ≠ 0) :
    exec .ringPush s = .next (({ s.setRingSlot s.ringWr s.issuer.d0 with
      ringWr := ringSlotAt s.params s.ringWr 1 } : State).reply .ok 1) := by
  refine (command_live _ live).trans ?_
  rw [ringPushRule, if_neg room, answer_done]

/-- A slot stored holds its frame, is written, and no byte outside it changes. -/
theorem setRingSlot_stored {s : State} {i : Half} (f : Word) (hi : i.toNat < s.params.c) :
    (s.setRingSlot i f).ringSlot i = some f ∧ (s.setRingSlot i f).written i = true ∧
      ∀ o off, ¬ inRingSlot i o off → (s.setRingSlot i f).byteAt o off = s.byteAt o off := by
  have self := ringSlot_setRingSlot_self f hi
  exact ⟨self, by rw [State.written, self]; rfl, fun _ _ outside => byteAt_setRingSlot f outside⟩

/-- Settles O40: the push stores at `RING_WR`, which no published slot is, and publishes that slot. -/
theorem pushedFrameIsPublishedLast : Obligations.PushedFrameIsPublishedLast := by
  intro s t inv live room e
  obtain ⟨legal, wr, rd⟩ := id inv
  obtain rfl := Host.Outcome.next.inj ((ringPush_stores live room).symm.trans e)
  have one : (1 : Half).toNat ≤ s.writeSize.toNat := by bv_omega
  have slot : ∀ i, State.ringSlot (({ s.setRingSlot s.ringWr s.issuer.d0 with
      ringWr := ringSlotAt s.params s.ringWr 1 } : State).reply .ok 1) i =
        (s.setRingSlot s.ringWr s.issuer.d0).ringSlot i := fun i => State.reply_ringSlot ..
  rw [slot, State.reply_params, State.reply_ringRd]
  refine ⟨readSize_advance legal one (State.reply_params ..) (State.reply_ringRd ..) (State.reply_ringWr ..), ?_,
    fun k hk => ?_⟩
  · exact (congrArg _ (ringSlotAt_readSize inv)).trans (ringSlot_setRingSlot_self _ wr)
  · rw [slot]
    refine ringSlot_setRingSlot_other _ fun reached => hk.ne (congrArg BitVec.toNat ?_)
    have sum := ringSizesSum s legal
    exact ringSlotAt_inj legal (by omega) (by omega) (reached.trans (ringSlotAt_readSize inv).symm)

/-- Settles O35: a full ring refuses; otherwise the slot at `RING_WR` is stored and published. -/
theorem ringPushResult : Obligations.RingPushResult :=
  fun s => ⟨fun notLive hl => command_not_live _ notLive hl, fun live full => ringPush_full live full,
    fun ⟨_, wr, _⟩ live room => ⟨(s.setRingSlot s.ringWr s.issuer.d0).mem, ringPush_stores live room,
      setRingSlot_stored _ wr⟩⟩

/-! ## The bulk path of the SOURCE, the sizes, and the PRODUCER's reads -/

/-- Settles O36: the two rules test the count against `write_size`, one strictly; a slot written is one of the ring. -/
theorem ringBulkWriteResult : Obligations.RingBulkWriteResult := by
  intro s k
  have write : s.live = true → exec (.ringWriteSlot k) s = .next (s.answer (ringWriteSlotRule k s)) := command_live _
  have advance : s.live = true → exec (.ringAdvanceWrite k) s = .next (s.answer (ringAdvanceWriteRule k s)) :=
    command_live _
  refine ⟨fun notLive hl => command_not_live _ notLive hl, fun notLive hl => command_not_live _ notLive hl,
    fun live beyond => ?_, fun inv live free => ?_, fun live beyond => ?_, fun live free => ?_⟩
  · rw [write live, ringWriteSlotRule, if_pos beyond, answer_raise]
  · refine ⟨(s.setRingSlot (ringSlotAt s.params s.ringWr k) s.issuer.d0).mem, ?_,
      setRingSlot_stored _ (ringSlotAt_lt inv.1 ..)⟩
    rw [write live, ringWriteSlotRule, if_neg (by omega), answer_done]
    rfl
  · rw [advance live, ringAdvanceWriteRule, if_pos beyond, answer_raise]
  · rw [advance live, ringAdvanceWriteRule, if_neg (by omega), answer_done]
    rfl

/-- Settles O37: where the ring exists each rule returns its size. -/
theorem ringSizeReadsResult : Obligations.RingSizeReadsResult :=
  fun _ => ⟨fun notLive hl => command_not_live _ notLive hl, fun notLive hl => command_not_live _ notLive hl,
    fun live => ⟨command_live ringWriteSizeRule live, command_live ringPopAvailableRule live⟩⟩

/-- Settles O38: the two rules test the count against `read_size`, one strictly; a published slot reads by whether it is
written. -/
theorem ringReadSideResult : Obligations.RingReadSideResult := by
  intro s k
  have read : s.live = true → exec (.ringReadSlot k) s = .next (s.answer (ringReadSlotRule k s)) := command_live _
  have advance : s.live = true → exec (.ringAdvanceRead k) s = .next (s.answer (ringAdvanceReadRule k s)) :=
    command_live _
  have published : k.toNat < s.readSize.toNat → ∀ slot, s.ringSlot (ringSlotAt s.params s.ringRd k) = slot →
      ringReadSlotRule k s = slot.elim (.raise .unwrittenSlot) (.done .ok · s) := fun inside slot e => by
    rw [ringReadSlotRule, if_neg (by omega), e]
    cases slot <;> rfl
  refine ⟨fun notLive hl => command_not_live _ notLive hl, fun notLive hl => command_not_live _ notLive hl,
    fun live beyond => ?_, fun live inside unwritten => ?_, fun f live inside written => ?_, fun live beyond => ?_,
    fun live inside => ?_⟩
  · rw [read live, ringReadSlotRule, if_pos beyond, answer_raise]
  · rw [read live, published inside none (Option.isNone_iff_eq_none.1 (Option.isSome_eq_false_iff.1 unwritten))]
    rfl
  · rw [read live, published inside (some f) written]
    rfl
  · rw [advance live, ringAdvanceReadRule, if_pos beyond, answer_raise]
  · rw [advance live, ringAdvanceReadRule, if_neg (by omega), answer_done]
    rfl

/-! ## The two sides of the ring (R220) -/

/-- A port command that does not hold raises a fault or writes a result, on the state itself or after its effect. -/
theorem exec_raises_or_replies {i : Instr} {s t : State} (hi : i ≠ .tick) (e : exec i s = .next t) :
    (t = s.hold ∧ (i = .acquireFreeBuffer ∨ i = .acquireFreeAudioSlot)) ∨ (∃ c, t = s.raise c) ∨
      ∃ st v u, (u = s ∨ Effect i s u) ∧ t = u.reply st v := by
  obtain ⟨h, -, acquires⟩ | ⟨-, h⟩ | ⟨st, h, -⟩ | ⟨-, h⟩ | ⟨v, u, effect, h⟩ := exec_ends hi e
  · exact .inl ⟨h, acquires⟩
  · exact .inr (.inl h)
  · exact .inr (.inr ⟨st, 0, s, .inl rfl, h⟩)
  · exact .inr (.inr ⟨_, _, s, .inl rfl, h⟩)
  · exact .inr (.inr ⟨_, v, u, .inr effect, h⟩)

/-- A command of the SOURCE that completes changes `RING_WR` and bytes of the ring. -/
theorem Effect.source {i : Instr} {s u : State} (h : Effect i s u) (hi : i.wellFormed (.port .source) = true) :
    u = { s with ringWr := u.ringWr, mem := u.mem } ∧ ∀ o off, o ≠ .ring → u.byteAt o off = s.byteAt o off := by
  cases i with
  | ringPush =>
    obtain ⟨-, rfl⟩ := h
    exact ⟨rfl, fun o off ho => byteAt_setRingSlot (s := s) s.issuer.d0 fun inside => ho inside.1⟩
  | ringWriteSlot k =>
    obtain ⟨-, rfl⟩ := h
    exact ⟨rfl, fun o off ho => byteAt_setRingSlot s.issuer.d0 fun inside => ho inside.1⟩
  | ringAdvanceWrite n => obtain ⟨-, rfl⟩ := h; exact ⟨rfl, fun _ _ _ => rfl⟩
  | ringWriteSize => cases h; exact ⟨rfl, fun _ _ _ => rfl⟩
  | readDiag sel => cases h; exact ⟨rfl, fun _ _ _ => rfl⟩
  | _ => exact absurd hi Bool.false_ne_true

/-- A command of the PRODUCER that completes leaves `RING_WR` and the bytes of the ring. -/
theorem Effect.producer {i : Instr} {s u : State} (h : Effect i s u) (hi : i.wellFormed (.port .producer) = true) :
    u.ringWr = s.ringWr ∧ ∀ off, u.byteAt .ring off = s.byteAt .ring off := by
  cases i with
  | acquireFreeBuffer => obtain ⟨-, _, _, -, rfl⟩ := h; exact ⟨rfl, fun _ => rfl⟩
  | fillBuffer b =>
    obtain ⟨-, -, -, rfl⟩ := h
    exact ⟨rfl, fun _ => State.byteAt_write_outside s s.bus.cmd.content (.inl nofun)⟩
  | submitValidBuffer b tok => obtain ⟨-, -, -, rfl⟩ := h; exact ⟨rfl, fun _ => rfl⟩
  | acquireFreeAudioSlot => obtain ⟨-, rfl | ⟨_, _, -, -, rfl⟩⟩ := h <;> exact ⟨rfl, fun _ => rfl⟩
  | submitAudioSamples =>
    obtain ⟨-, p, pkt, _, -, rfl⟩ := h
    exact ⟨rfl, fun _ => byteAt_encodePair s pkt nofun⟩
  | setAudioEnabled b => obtain ⟨-, -, rfl⟩ := h; exact ⟨rfl, fun _ => rfl⟩
  | ringAdvanceRead n => obtain ⟨-, rfl⟩ := h; exact ⟨rfl, fun _ => rfl⟩
  | ringPopAvailable | ringReadSlot _ | readDiag _ => cases h; exact ⟨rfl, fun _ => rfl⟩
  | _ => exact absurd hi Bool.false_ne_true

/-- A result written after a change of `RING_WR` and memory: the state before, its issuing port answered, and the change. -/
theorem reply_ringWr_mem {s u : State} (h : u = { s with ringWr := u.ringWr, mem := u.mem }) (st : Status) (v : Word) :
    u.reply st v = { s.setPort s.bus.port ((u.reply st v).port s.bus.port) with
      ringWr := (u.reply st v).ringWr, mem := (u.reply st v).mem } := by
  rw [h]
  unfold State.reply
  cases s.bus.port <;> rfl

/-- Settles O51: a fault leaves the ring alone, and a command that completes has the effect of its side. -/
theorem ringSidesAreSeparate : Obligations.RingSidesAreSeparate := by
  refine fun i s t e => ⟨fun source => ?_, fun producer => ?_⟩
  · obtain ⟨-, rfl | rfl⟩ | ⟨c, rfl⟩ | ⟨st, v, u, hu, rfl⟩ := exec_raises_or_replies (ne_tick_of_wellFormed source) e
    · exact absurd source (by decide)
    · exact absurd source (by decide)
    · exact ⟨.inl ⟨c, rfl⟩, fun _ _ _ => State.raise_byteAt ..⟩
    · obtain ⟨change, bytes⟩ : u = { s with ringWr := u.ringWr, mem := u.mem } ∧
          ∀ o off, o ≠ .ring → u.byteAt o off = s.byteAt o off := by
        obtain rfl | effect := hu
        · exact ⟨rfl, fun _ _ _ => rfl⟩
        · exact effect.source source
      exact ⟨.inr (reply_ringWr_mem change st v), fun o off ho => (State.reply_byteAt ..).trans (bytes o off ho)⟩
  · obtain ⟨rfl, -⟩ | ⟨c, rfl⟩ | ⟨st, v, u, hu, rfl⟩ := exec_raises_or_replies (ne_tick_of_wellFormed producer) e
    · exact ⟨State.hold_ringWr s, fun _ => State.hold_byteAt ..⟩
    · exact ⟨State.raise_ringWr s c, fun _ => State.raise_byteAt ..⟩
    · rw [State.reply_ringWr]
      simp only [State.reply_byteAt]
      obtain rfl | effect := hu
      · exact ⟨rfl, fun _ => rfl⟩
      · exact effect.producer producer

end Sys2Proof.Machine

/-! PROOFS. The family 45_lifecycle.md: the configuration and diagnostic commands, how INIT ends and the ENGINE it builds,
what REGISTER_IRQ, START, STOP and DESTROY leave, and the transitions of LIFECYCLE. -/

namespace Sys2Proof.Machine

/-! ## Configuration and diagnostics -/

/-- `WRITE_CFG` with the index of a register (R231, R93). -/
theorem exec_writeCfg_register {s : State} (hl : s.lifecycle ≠ .halted) {idx : Byte} (h : idx.toNat ≤ 4) (v : Half) :
    exec (.writeCfg idx v) s = .next ((s.setCfg idx v).reply .ok 0) := by
  refine (command_rule (writeCfgRule idx v) hl).trans ?_
  rw [writeCfgRule, if_neg (by omega), answer_done]

/-- `WRITE_CFG` with an index that names no register (R231, R93). -/
theorem exec_writeCfg_badArg {s : State} (hl : s.lifecycle ≠ .halted) {idx : Byte} (h : 4 < idx.toNat) (v : Half) :
    exec (.writeCfg idx v) s = .next (s.reply .badArg 0) := by
  refine (command_rule (writeCfgRule idx v) hl).trans ?_
  rw [writeCfgRule, if_pos h, answer_refuse]

/-- Settles O14: each index up to 4 names its register. -/
theorem writeCfgResult : Obligations.WriteCfgResult :=
  fun _ v hl => ⟨exec_writeCfg_register hl (by decide) v, exec_writeCfg_register hl (by decide) v,
    exec_writeCfg_register hl (by decide) v, exec_writeCfg_register hl (by decide) v,
    exec_writeCfg_register hl (by decide) v, fun _ h => exec_writeCfg_badArg hl h v⟩

/-- `READ_DIAG` with the selector of a register, in every lifecycle state (R239). -/
theorem exec_readDiag_register {s : State} {sel : Byte} {v : Word} (h : s.diag sel = some v) :
    exec (.readDiag sel) s = .next (s.reply .ok v) := by
  show Host.Outcome.next (s.answer (readDiagRule sel s)) = _
  rw [readDiagRule, h, answer_done]

/-- `READ_DIAG` with a selector that names no register (R239, R92). -/
theorem exec_readDiag_badArg {s : State} {sel : Byte} (h : s.diag sel = none) :
    exec (.readDiag sel) s = .next (s.reply .badArg 0) := by
  show Host.Outcome.next (s.answer (readDiagRule sel s)) = _
  rw [readDiagRule, h, answer_refuse]

/-- No register has a selector above 10 (R92). -/
theorem State.diag_eq_none (s : State) {sel : Byte} (h : 10 < sel.toNat) : s.diag sel = none := by
  unfold State.diag
  split
  case h_12 => rfl
  all_goals omega

/-- A flag read as a word. -/
theorem flagWord_eq (b : Bool) : BitVec.ofNat 32 b.toNat = if b then 1 else 0 := by
  cases b <;> rfl

/-- The position as `READ_DIAG` packs it: `VCTR` in bits 31..16, `PHASE` in bits 1..0 (R47). -/
theorem positionWord_fields (vctr : Half) (code : BitVec 2) :
    let v : Word := BitVec.ofNat 32 (vctr.toNat * 2 ^ 16 + code.toNat)
    v.extractLsb' 16 16 = vctr ∧ v.extractLsb' 0 2 = code ∧ v.extractLsb' 2 14 = 0 := by
  have hv := vctr.isLt
  have hc := code.isLt
  refine ⟨BitVec.eq_of_toNat_eq ?_, BitVec.eq_of_toNat_eq ?_, BitVec.eq_of_toNat_eq ?_⟩ <;>
    simp only [BitVec.extractLsb'_toNat, Nat.shiftRight_eq_div_pow, BitVec.ofNat_eq_ofNat, BitVec.toNat_ofNat] <;> omega

/-- Settles O15: each selector up to 10 names its register, and the codes are those of the tables. -/
theorem readDiagResult : Obligations.ReadDiagResult := by
  refine ⟨fun s => ⟨exec_readDiag_register rfl, exec_readDiag_register rfl, exec_readDiag_register rfl, ?_,
    exec_readDiag_register rfl, ⟨_, exec_readDiag_register rfl, positionWord_fields ..⟩, exec_readDiag_register rfl, ?_,
    exec_readDiag_register rfl, exec_readDiag_register rfl, exec_readDiag_register rfl,
    fun _ h => exec_readDiag_badArg (s.diag_eq_none h)⟩, rfl, rfl, rfl, rfl, rfl, rfl, rfl, rfl, rfl, rfl⟩
  · rw [← flagWord_eq]
    exact exec_readDiag_register rfl
  · rw [← flagWord_eq]
    exact exec_readDiag_register rfl

/-! ## The lifecycle checks -/

/-- In UNINIT and DESTROYED the ENGINE is neither live, nor at rest, nor halted (R230, R240). -/
theorem checks_of_absent {s : State} (h : s.lifecycle = .uninit ∨ s.lifecycle = .destroyed) :
    s.live = false ∧ s.atRest = false ∧ s.lifecycle ≠ .started ∧ s.lifecycle ≠ .halted := by
  rcases h with h | h <;> simp [State.live, State.atRest, h]

/-- Where `REGISTER_IRQ` and `START` are refused for the lifecycle state (R235, R236). -/
theorem checks_of_not_atRest {s : State} (h : s.lifecycle = .uninit ∨ s.lifecycle = .started ∨ s.lifecycle = .destroyed) :
    s.atRest = false ∧ s.lifecycle ≠ .halted := by
  rcases h with h | h | h <;> simp [State.atRest, h]

theorem exec_registerIrq_wrongState {s : State} (hl : s.lifecycle ≠ .halted) (h : s.atRest = false) (c : Byte) :
    exec (.registerIrq c) s = .next (s.reply .wrongState 0) := by
  refine (command_rule (registerIrqRule c) hl).trans ?_
  rw [registerIrqRule, if_neg (by simp [h]), answer_refuse]

theorem exec_start_wrongState {s : State} (hl : s.lifecycle ≠ .halted) (h : s.atRest = false) :
    exec .start s = .next (s.reply .wrongState 0) := by
  refine (command_rule startRule hl).trans ?_
  rw [startRule, if_neg (by simp [h]), answer_refuse]

theorem exec_stop_noop {s : State} (hl : s.lifecycle ≠ .halted) (h : s.lifecycle ≠ .started) :
    exec .stop s = .next (s.reply .ok 0) := by
  refine (command_rule stopRule hl).trans ?_
  rw [stopRule, if_pos h, answer_done]

theorem exec_destroy_noop {s : State} (h : s.lifecycle = .uninit ∨ s.lifecycle = .destroyed) :
    exec .destroy s = .next (s.reply .ok 0) := by
  obtain ⟨-, -, -, hl⟩ := checks_of_absent h
  refine (command_rule destroyRule hl).trans ?_
  rw [destroyRule, if_pos h, answer_done]

/-- Settles O21: the rule's checks in their order. -/
theorem registerIrqResult : Obligations.RegisterIrqResult := by
  refine fun s c => ⟨fun rest => ?_, fun h => ?_⟩
  · obtain ⟨-, hl⟩ := idle_of_atRest rest
    have run : exec (.registerIrq c) s = .next (s.answer (registerIrqRule c s)) := command_rule _ hl
    rw [run, registerIrqRule, if_pos (atRest_iff.2 rest), Config.ncores]
    refine ⟨fun below => ?_, fun above => ?_⟩
    · rw [if_neg (Nat.not_le.2 below), answer_done]
    · rw [if_pos above, answer_refuse]
  · obtain ⟨notRest, hl⟩ := checks_of_not_atRest h
    exact exec_registerIrq_wrongState hl notRest c

/-! ## INIT -/

/-- A table is valid when none of its eight lengths is 0 (R25). -/
theorem timingTable_valid_iff (tt : TimingTable) : TimingTable.valid tt = true ↔
    tt.vFrontPorch ≠ 0 ∧ tt.vSyncWidth ≠ 0 ∧ tt.vBackPorch ≠ 0 ∧ tt.vActiveLines ≠ 0 ∧
      tt.hFrontPorch ≠ 0 ∧ tt.hSyncWidth ≠ 0 ∧ tt.hBackPorch ≠ 0 ∧ tt.hActivePixels ≠ 0 := by
  simp [TimingTable.valid, Nat.one_le_iff_ne_zero, BitVec.toNat_eq, and_assoc]

/-- INIT's check of the mode and the configuration (R233): the table of a known mode, accepted. -/
theorem acceptedTable_eq_some_iff {s : State} {mode : Byte} {tt : TimingTable} :
    acceptedTable s mode = some tt ↔ modeTable s.params mode = some tt ∧ InitAccepts s tt := by
  have accepts : ∀ tt, (TimingTable.valid tt && cfgAccepted s tt) = true ↔ InitAccepts s tt := fun tt => by
    simp only [cfgAccepted, Bool.and_eq_true, decide_eq_true_eq, and_assoc]
  unfold acceptedTable
  cases modeTable s.params mode with
  | none => simp
  | some tt' =>
    simp only [accepts, Option.ite_none_right_eq_some, Option.some.injEq]
    constructor
    · rintro ⟨h, rfl⟩; exact ⟨rfl, h⟩
    · rintro ⟨rfl, h⟩; exact ⟨h, rfl⟩

theorem acceptedTable_eq_none_of_mode {s : State} {mode : Byte} (h : modeTable s.params mode = none) :
    acceptedTable s mode = none :=
  Option.eq_none_iff_forall_ne_some.2 fun tt e => by
    rw [(acceptedTable_eq_some_iff.1 e).1] at h
    cases h

theorem acceptedTable_eq_none_of_config {s : State} {mode : Byte} {tt : TimingTable}
    (hm : modeTable s.params mode = some tt) (h : ¬ InitAccepts s tt) : acceptedTable s mode = none :=
  Option.eq_none_iff_forall_ne_some.2 fun tt' e => by
    obtain ⟨hm', accepts⟩ := acceptedTable_eq_some_iff.1 e
    obtain rfl := Option.some.inj (hm'.symm.trans hm)
    exact h accepts

section
variable {s : State} {mode : Byte} (absent : s.lifecycle = .uninit ∨ s.lifecycle = .destroyed)
include absent

/-- INIT where it is accepted runs its checks (R232). -/
theorem exec_init_absent : exec (.init mode) s = .next (s.answer (initRule mode s)) := by
  obtain ⟨-, -, -, hl⟩ := checks_of_absent absent
  exact command_rule _ hl

theorem exec_init_badArg (h : acceptedTable s mode = none) : exec (.init mode) s = .next (s.reply .badArg 0) := by
  rw [exec_init_absent absent, initRule, if_pos absent, h, answer_refuse]

theorem exec_init_exhausted {tt : TimingTable} (h : acceptedTable s mode = some tt) (draw : s.allocDraw = false) :
    exec (.init mode) s = .next (s.raise .poolExhausted) := by
  rw [exec_init_absent absent, initRule, if_pos absent, h]
  simp only [draw, Bool.false_eq_true, if_false, answer_raise]

/-- An INIT that passes its checks and is given its memory leaves its effects, and its result is `AUDIO_OK` (R232, R234). -/
theorem exec_init_builds {tt : TimingTable} (h : acceptedTable s mode = some tt) (draw : s.allocDraw = true) :
    ∃ t : State, t = { initEffects tt s with lifecycle := .initialized } ∧
      exec (.init mode) s = .next (t.reply .ok (if t.audioOk then 1 else 0)) := by
  refine ⟨_, rfl, ?_⟩
  rw [exec_init_absent absent, initRule, if_pos absent, h]
  simp only [draw, if_true, answer_done, flagWord_eq]

end

/-- Settles O16: the state check, the argument checks, the allocation, each in turn. -/
theorem initOutcomes : Obligations.InitOutcomes := by
  refine ⟨fun s mode => ⟨fun live => ?_, fun absent => ⟨fun unknown => ?_, fun tt known => ⟨fun refused => ?_,
    fun accepts draw => ?_, fun accepts draw => ?_⟩⟩⟩, timingTable_valid_iff⟩
  · refine (command_rule (initRule mode) (live_not_halted (live_iff.2 live))).trans ?_
    rw [initRule, if_neg (by rcases live with h | h | h <;> simp [h]), answer_refuse]
  · exact exec_init_badArg absent (acceptedTable_eq_none_of_mode unknown)
  · refine exec_init_badArg absent (acceptedTable_eq_none_of_config known ?_)
    rintro ⟨valid, low, high, first, band, emu⟩
    rcases refused with invalid | refused
    · rw [valid] at invalid
      cases invalid
    · omega
  · exact exec_init_exhausted absent (acceptedTable_eq_some_iff.2 ⟨known, accepts⟩) draw
  · obtain ⟨t, ht, e⟩ := exec_init_builds absent (acceptedTable_eq_some_iff.2 ⟨known, accepts⟩) draw
    have effect : Effect (.init mode) s t := ⟨absent, tt, acceptedTable_eq_some_iff.2 ⟨known, accepts⟩, ht⟩
    exact ⟨t, e, by rw [ht], effect.stays.bus⟩

/-- Where INIT is accepted it does not answer `WRONG_STATE` (R240). -/
theorem exec_init_not_wrongState {s : State} (absent : s.lifecycle = .uninit ∨ s.lifecycle = .destroyed) (mode : Byte) :
    ∃ t : State, exec (.init mode) s = .next t ∧ (t.port s.bus.port).resStatus ≠ Status.wrongState.code := by
  cases accepted : acceptedTable s mode with
  | none =>
    refine ⟨_, exec_init_badArg absent accepted, ?_⟩
    rw [State.reply_port_self]
    exact (by decide : Status.badArg.code ≠ Status.wrongState.code)
  | some tt =>
    cases draw : s.allocDraw with
    | false =>
      refine ⟨_, exec_init_exhausted absent accepted draw, ?_⟩
      rw [State.raise, ← State.halt_bus s .poolExhausted, State.reply_port_self]
      exact (by decide : Status.halted.code ≠ Status.wrongState.code)
    | true =>
      obtain ⟨t, ht, e⟩ := exec_init_builds absent accepted draw
      have effect : Effect (.init mode) s t := ⟨absent, tt, accepted, ht⟩
      refine ⟨_, e, ?_⟩
      rw [← effect.stays.bus, State.reply_port_self]
      exact (by decide : Status.ok.code ≠ Status.wrongState.code)

/-- A run of bytes of which one is unwritten reads as no value (log entry 9). -/
theorem State.read_eq_none {s : State} {o : MemObj} {off n : Nat} (hn : 0 < n) (h : s.byteAt o off = none) :
    s.read o off n = none := by
  unfold State.read memRead
  split
  case isFalse => rfl
  rename_i inside
  obtain ⟨n, rfl⟩ : ∃ m, n = m + 1 := ⟨n - 1, by omega⟩
  rw [State.byteAt, if_pos (by omega)] at h
  rw [cellsRead, h]
  rfl

/-- A ring slot is unwritten while its first byte is (R35). -/
theorem State.written_eq_false {s : State} {i : Half} (h : s.byteAt .ring (4 * i.toNat) = none) : s.written i = false := by
  rw [State.written, State.ringSlot, State.read_eq_none (by decide) h]
  rfl

/-- INIT's effects write `TPLMEM` and `STATIC` only (R234). -/
theorem byteAt_initEffects {s u : State} {tt : TimingTable} (h : u = { initEffects tt s with lifecycle := .initialized })
    {o : MemObj} (tplmem : o ≠ .tplmem) (static : o ≠ .static) (off : Nat) : u.byteAt o off = none := by
  obtain ⟨params, -, -, -, -, x, xparams, -, -, -, -, mem, unwritten, -⟩ := initEffects_view h
  have hp : u.params = (buildStreams x).params := by rw [params, buildStreams_eq, xparams]
  rw [State.byteAt_congr hp mem, byteAt_buildStreams x (.inl static), unwritten o off tplmem]

/-- The end of the band: `BAND_COUNT` lines, or the rest of the lines where it is 0 (R234). -/
theorem bandEnd_eq (first count lines : Half) :
    (if count = 0 then lines else first + count) = first + (if count ≠ 0 then count else lines - first) := by
  by_cases h : count = 0
  · rw [if_pos h, if_neg (not_not.2 h), add_sub_cancel]
  · rw [if_neg h, if_pos h]

/-- Settles O17: INIT's effects in closed form, and the bytes they write. -/
theorem initBuildsTheEngine : Obligations.InitBuildsTheEngine := by
  intro s mode tt absent known accepts draw
  obtain ⟨t, ht, e⟩ := exec_init_builds absent (acceptedTable_eq_some_iff.2 ⟨known, accepts⟩) draw
  have unwritten : ∀ o, o ≠ .tplmem → o ≠ .static → ∀ off, t.byteAt o off = none := fun _ => byteAt_initEffects ht
  rw [initEffects_eq, setAudioValues_eq] at ht
  have filled : t.filled = List.replicate s.params.n false := by rw [ht]; rfl
  refine ⟨t, e, ?_, fun h => ?_, fun i => State.written_eq_false (unwritten .ring nofun nofun _),
    fun h => unwritten (.buf h) nofun nofun, fun q => unwritten (.pair q) nofun nofun, unwritten .ring nofun nofun⟩
  · rw [← bandEnd_eq, ht]
    rfl
  · rw [State.isFilled, filled, List.getD_eq_getElem?_getD, List.getElem?_replicate]
    split <;> rfl

/-- Every port command but READ_DIAG begins with the check of HALTED (R265). -/
theorem exec_eq_command {i : Instr} (hi : i ≠ .tick) (hr : ∀ sel, i ≠ .readDiag sel) : ∃ rule, exec i = command rule := by
  cases i with
  | tick => exact absurd rfl hi
  | readDiag sel => exact absurd rfl (hr sel)
  | _ => exact ⟨_, rfl⟩

/-- Settles O13: outside the live states the lifecycle checks decide, and while HALTED the common one. -/
theorem commandsOutsideTheLiveStates : Obligations.CommandsOutsideTheLiveStates := by
  refine fun s => ⟨fun absent => ?_, fun halted i p port notDiag => ?_⟩
  · obtain ⟨notLive, notRest, notStarted, hl⟩ := checks_of_absent absent
    refine ⟨fun i port notDiag => ?_, exec_start_wrongState hl notRest, exec_registerIrq_wrongState hl notRest,
      exec_stop_noop hl notStarted, exec_destroy_noop absent, fun idx v => ?_, exec_init_not_wrongState absent⟩
    · obtain ⟨rule, h⟩ := exec_eq_whenLive port notDiag
      rw [h]
      exact command_not_live rule notLive hl
    · exact (Nat.lt_or_ge 4 idx.toNat).imp_right fun h => exec_writeCfg_register hl h v
  · obtain ⟨rule, h⟩ := exec_eq_command (ne_tick_of_wellFormed port) notDiag
    rw [h]
    exact command_halted rule halted

/-! ## START -/

/-- START past its checks: the first line installed at (FRONT_PORCH, 0), then the interrupt on (R236). -/
theorem exec_start_installs {s : State} (rest : s.atRest = true) (core : s.irqCore ≠ 0xFF)
    (context : s.issuingCore = s.irqCore) :
    exec .start s = .next (State.reply { install .vnosync none (startIsland s) { s with phase := .frontPorch, vctr := 0 } with
      irqEn := true, lifecycle := .started } .ok 0) := by
  obtain ⟨-, hl⟩ := idle_of_atRest (atRest_iff.1 rest)
  refine (command_rule startRule hl).trans ?_
  rw [startRule, if_pos rest, if_neg core, if_neg (not_not.2 context), startEffects_eq]
  rfl

/-- Settles O22: the refusals in their order, then one install. -/
theorem startResult : Obligations.StartResult := by
  refine fun s => ⟨fun h => ?_, fun rest => ?_⟩
  · obtain ⟨notRest, hl⟩ := checks_of_not_atRest h
    exact exec_start_wrongState hl notRest
  obtain ⟨-, hl⟩ := idle_of_atRest rest
  have run : exec .start s = .next (s.answer (startRule s)) := command_rule startRule hl
  refine ⟨fun unset => ?_, fun core context => ?_, fun core context => ?_⟩
  · rw [run, startRule, if_pos (atRest_iff.2 rest), if_pos unset, answer_refuse]
  · rw [run, startRule, if_pos (atRest_iff.2 rest), if_neg core, if_pos context, answer_refuse]
  · refine ⟨_, exec_start_installs (atRest_iff.2 rest) core context, ?_, fun l lane => ?_, fun o off outside => ?_⟩
    · rw [install_eq]
      rfl
    · exact tplWord_install_island .vnosync none (startIsland s) (s := { s with phase := .frontPorch, vctr := 0 }) lane
    · exact byteAt_install (s := { s with phase := .frontPorch, vctr := 0 }) outside (.inl rfl)

/-! ## STOP and DESTROY -/

/-- Settles O23: the two checks, then the steps of STOP, for which the pool invariants give room. -/
theorem stopResult : Obligations.StopResult := by
  intro s
  have run : s.lifecycle = .started → exec .stop s = .next (s.answer (stopRule s)) :=
    fun started => command_rule stopRule (by simp [started])
  refine ⟨fun h hl => exec_stop_noop hl h, fun started context => ?_, fun started context pools ha => ?_⟩
  · rw [run started, stopRule, if_neg (not_not.2 started), if_pos context, answer_raise]
  · rw [run started, stopRule, if_neg (not_not.2 started), if_neg (not_not.2 context), stopSteps_safe pools ha]
    simp only [answer_done, State.inFlight, List.append_assoc]

/-- The state DESTROY frees: what the steps of STOP leave of a started ENGINE, and any other as it is (R238). -/
theorem teardown_safe {s : State} (pools : PoolInv s) (ha : s.allocated = true) :
    ∃ t, (if s.lifecycle = .started then stopSteps s else .ok s) = .ok t ∧ freePools t = freePools { s with
      prog := if s.lifecycle = .started then none else s.prog
      laneLine := if s.lifecycle = .started then none else s.laneLine
      cur := if s.lifecycle = .started then none else s.cur
      rel0 := if s.lifecycle = .started then none else s.rel0
      rel1 := if s.lifecycle = .started then none else s.rel1 } := by
  by_cases started : s.lifecycle = .started
  · simp only [if_pos started]
    exact ⟨_, stopSteps_safe pools ha, rfl⟩
  · simp only [if_neg started]
    exact ⟨s, rfl, rfl⟩

/-- Settles O24: the checks in their order, then the pools are freed. -/
theorem destroyResult : Obligations.DestroyResult := by
  refine fun s => ⟨exec_destroy_noop, fun live => ?_⟩
  have run : exec .destroy s = .next (s.answer (destroyRule s)) :=
    command_rule destroyRule (live_not_halted (live_iff.2 live))
  rw [run, destroyRule, if_neg (by rcases live with h | h | h <;> simp [h])]
  refine ⟨fun core context => by rw [if_pos ⟨core, context⟩, answer_raise], fun context => ?_⟩
  rw [if_neg fun ⟨core, other⟩ => context.elim core other]
  refine ⟨fun owned => by rw [if_pos owned, answer_raise], fun bufs pair pools ha => ?_⟩
  rw [if_neg (by simp [bufs, pair])]
  obtain ⟨t, steps, freed⟩ := teardown_safe pools ha
  rw [steps]
  dsimp only
  rw [freed, answer_done]
  exact ⟨_, rfl, rfl, State.byteAt_empty rfl⟩

/-- A command that does not leave the ENGINE halted has answered by its own rule. -/
theorem eq_answer_of_command {rule : State → Reply} {s t : State} (e : command rule s = .next t)
    (hl : t.lifecycle ≠ .halted) : t = s.answer (rule s) := by
  by_cases halted : s.lifecycle = .halted
  · rw [command_halted rule halted] at e
    rw [← Host.Outcome.next.inj e, State.reply_lifecycle] at hl
    exact absurd halted hl
  · rw [command_rule rule halted] at e
    exact (Host.Outcome.next.inj e).symm

/-- STOP leaves STARTED, or halts. -/
theorem stopRule_not_started (s : State) : (s.answer (stopRule s)).lifecycle ≠ .started := by
  unfold stopRule
  split
  case isTrue notStarted => simpa using notStarted
  split
  · simp
  · split <;> simp

/-- DESTROY leaves a state without pools, or halts. -/
theorem destroyRule_absent_or_halted (s : State) :
    (s.answer (destroyRule s)).lifecycle = .halted ∨ (s.answer (destroyRule s)).lifecycle = .uninit ∨
      (s.answer (destroyRule s)).lifecycle = .destroyed := by
  unfold destroyRule
  split
  case isTrue absent => exact .inr (by simpa using absent)
  split
  · exact .inl (State.raise_lifecycle s _)
  split
  · exact .inl (State.raise_lifecycle s _)
  split
  · exact .inr (.inr (State.reply_lifecycle ..))
  · exact .inl (State.raise_lifecycle s _)

/-- Settles O25: the state each command leaves is one in which it is a no-op. -/
theorem teardownIsIdempotent : Obligations.TeardownIsIdempotent := by
  refine fun s t hl => ⟨fun e => exec_stop_noop hl ?_, fun e => exec_destroy_noop ?_⟩
  · rw [eq_answer_of_command e hl]
    exact stopRule_not_started s
  · have ht := eq_answer_of_command e hl
    rw [ht] at hl ⊢
    exact (destroyRule_absent_or_halted s).resolve_left hl

/-! ## The transitions of LIFECYCLE -/

/-- A command that completes changes LIFECYCLE as the table says (R230). -/
theorem Effect.lifecycle_table {i : Instr} {s u : State} (h : Effect i s u) (changed : u.lifecycle ≠ s.lifecycle) :
    ((s.lifecycle = .uninit ∨ s.lifecycle = .destroyed) ∧ (∃ m, i = .init m) ∧ u.lifecycle = .initialized) ∨
      ((s.lifecycle = .initialized ∨ s.lifecycle = .stopped) ∧ i = .start ∧ u.lifecycle = .started) ∨
      (s.lifecycle = .started ∧ i = .stop ∧ u.lifecycle = .stopped) ∨
      (s.live = true ∧ i = .destroy ∧ u.lifecycle = .destroyed) := by
  cases i with
  | init mode =>
    obtain ⟨absent, tt, -, rfl⟩ := h
    exact .inl ⟨absent, ⟨mode, rfl⟩, rfl⟩
  | registerIrq c =>
    obtain ⟨-, -, rfl⟩ := h
    exact absurd rfl changed
  | start =>
    obtain ⟨p, e⟩ := h.start_eq
    exact .inr (.inl ⟨h.1, rfl, by rw [e]⟩)
  | stop =>
    obtain ⟨-, -, rfl⟩ | ⟨started, rfl⟩ := h.stop_eq
    · exact absurd rfl changed
    · exact .inr (.inr (.inl ⟨started, rfl, rfl⟩))
  | destroy =>
    obtain ⟨-, rfl⟩ | ⟨live, t, -, rfl⟩ := h.destroy_eq
    · exact absurd rfl changed
    · exact .inr (.inr (.inr ⟨live, rfl, rfl⟩))
  | _ =>
    rw [(h.frame rfl).2] at changed
    exact absurd rfl changed

theorem raise_fault_ne_zero (s : State) (c : FaultCode) : (s.raise c).fault ≠ 0 := by
  rw [State.raise, State.reply_fault]
  exact s.halt_fault_ne_zero c

/-- Settles O49: a hold, a refusal and a TICK keep LIFECYCLE, a fault halts, and a command that completes follows the
table. -/
theorem lifecycleFollowsTheTable : Obligations.LifecycleFollowsTheTable := by
  intro i s t e changed
  by_cases hi : i = .tick
  · subst hi
    rcases execTick_next e with e | ⟨c, -, rfl⟩
    · obtain ⟨p, -, -, -, ht⟩ := tickSteps_frame e
      rw [ht] at changed
      exact absurd rfl changed
    · exact .inr (.inr (.inr (.inr ⟨rfl, s.halt_fault_ne_zero c⟩)))
  obtain ⟨rfl, -⟩ | ⟨c, rfl⟩ | ⟨st, v, u, rfl | effect, rfl⟩ := exec_raises_or_replies hi e
  · exact absurd (State.hold_lifecycle s) changed
  · exact .inr (.inr (.inr (.inr ⟨State.raise_lifecycle s c, raise_fault_ne_zero s c⟩)))
  · exact absurd (State.reply_lifecycle ..) changed
  · rw [State.reply_lifecycle] at changed ⊢
    obtain init | start | stop | destroy := effect.lifecycle_table changed
    · exact .inl init
    · exact .inr (.inl start)
    · exact .inr (.inr (.inl stop))
    · exact .inr (.inr (.inr (.inl destroy)))

end Sys2Proof.Machine

/-! PROOFS. The family 60_exceptions.md: the order of the common checks, and what raising a fault leaves, by a command and
by a TICK. -/

namespace Sys2Proof.Machine

/-! ## The common checks -/

/-- A word that decodes to nothing completes as a rejected word (R85, R265). -/
theorem runCommand_of_no_command {p : PortId} {c : Command} (s : State) (h : ∀ i, decode (.port p) c.word ≠ .ok i) :
    runCommand p c s = rejectWord (s.latch p c) := by
  cases hd : decode (.port p) c.word with
  | ok i => exact absurd hd (h i)
  | error e => exact runCommand_of_decode_error s hd

/-- Settles O6: HALTED is the first check of every word but that of READ_DIAG, and an accepted word is executed. -/
theorem commonChecksComeFirst : Obligations.CommonChecksComeFirst := by
  refine fun p c s => ⟨fun halted notDiag => ?_, fun hl rejected => ?_, fun i hd => runCommand_of_decode_ok s hd⟩
  · cases hd : decode (.port p) c.word with
    | ok i =>
      obtain ⟨-, port⟩ := decode_eq_ok_iff.1 hd
      obtain ⟨rule, hrule⟩ := exec_eq_command (ne_tick_of_wellFormed port) fun sel hi => notDiag sel (hi ▸ hd)
      rw [runCommand_of_decode_ok s hd, hrule, command_halted rule (by simpa using halted), State.latch_fault]
    | error e =>
      rw [runCommand_of_decode_error s hd, rejectWord_eq, State.latch_lifecycle, if_pos halted, State.latch_fault]
  · rw [runCommand_of_no_command s rejected, rejectWord_eq, State.latch_lifecycle, if_neg hl]

/-! ## What a fault leaves on the ports -/

theorem Port.release_of_free {q : Port} (h : q.held = none) (f : BitVec 8) : q.release f = q := by
  simp [Port.release, h]

theorem Port.release_of_held {q : Port} (h : q.held ≠ none) (f : BitVec 8) :
    q.release f = q.complete .halted (f.setWidth 32) := by
  obtain ⟨c, hc⟩ := Option.ne_none_iff_exists'.1 h
  simp [Port.release, hc]

/-- The result on the raising port takes the place of what a release of it wrote. -/
theorem Port.complete_release (q : Port) (f : BitVec 8) (st : Status) (v : Word) :
    (q.release f).complete st v = q.complete st v := by
  by_cases h : q.held = none
  · rw [Port.release_of_free h]
  · rw [Port.release_of_held h]
    rfl

theorem State.halt_port (s : State) (c : FaultCode) (p : PortId) :
    (s.halt c).port p = (s.port p).release (s.halt c).fault := by
  cases p <;> rfl

theorem State.raise_port_self (s : State) (c : FaultCode) :
    (s.raise c).port s.bus.port = (s.port s.bus.port).complete .halted (c.code.setWidth 32) := by
  calc (s.raise c).port s.bus.port
    _ = (s.halt c).issuer.complete .halted (c.code.setWidth 32) := State.reply_port_self (s.halt c) _ _
    _ = ((s.port s.bus.port).release (s.halt c).fault).complete .halted (c.code.setWidth 32) := by
      rw [State.issuer, State.halt_bus, State.halt_port]
    _ = (s.port s.bus.port).complete .halted (c.code.setWidth 32) := Port.complete_release ..

theorem State.raise_port_other (s : State) (c : FaultCode) {p : PortId} (h : p ≠ s.bus.port) :
    (s.raise c).port p = (s.port p).release (s.raise c).fault := by
  rw [State.raise, State.reply_port_other (s.halt c) _ _ h, State.reply_fault, State.halt_port]

/-- Beside the ports a fault writes FAULT, LIFECYCLE, IRQ_EN, PROG and LANE_LINE (R264). -/
theorem State.raise_eq (s : State) (c : FaultCode) :
    s.raise c = { s with
      fault := if s.fault = 0 then c.code else s.fault, lifecycle := .halted, irqEn := false, prog := none
      laneLine := none, control := (s.raise c).control, producer := (s.raise c).producer
      source := (s.raise c).source } := by
  obtain ⟨a, b, d, h⟩ := (s.halt c).setPort_eq_withOutside s.bus.port
    ((s.halt c).issuer.complete .halted (c.code.setWidth 32))
  have h : s.raise c = (s.halt c).withOutside a b d s.bus s.env := h
  rw [h]
  rfl

/-! ## The fault of a TICK -/

theorem pushPairFree_error {p : Handle} {s : State} {c : FaultCode} (e : pushPairFree p s = .error c) :
    c = .queueOverflow := by
  unfold pushPairFree at e
  split at e
  · cases e
  · exact (Except.error.inj e).symm

theorem releaseStep_error {s : State} {c : FaultCode} (e : releaseStep s = .error c) : c = .queueOverflow := by
  unfold releaseStep at e
  split at e
  · cases e
  · split at e
    · cases e
    · rename_i hp
      exact Except.error.inj e ▸ (pushFree_error hp).2

theorem acquire_error {n src : Nat} {s : State} {c : FaultCode} (e : acquire n src s = .error c) :
    c = .queueOverflow := by
  induction n generalizing s with
  | zero => cases e
  | succ n ih =>
    unfold acquire at e
    split at e
    · cases e
    · split_ifs at e
      · split at e
        · exact ih e
        · rename_i hp
          exact Except.error.inj e ▸ (pushFree_error hp).2

theorem videoSelect_error {s : State} {c : FaultCode} (e : videoSelect s = .error c) : c = .queueOverflow := by
  unfold videoSelect at e
  split at e
  · cases e
  · cases e
  · cases e
  · split_ifs at e
    split at e
    · cases e
    · split at e
      · cases e
      · rename_i ha
        exact Except.error.inj e ▸ acquire_error ha

theorem islandSelect_error {g : Bool} {s : State} {c : FaultCode} (e : islandSelect g s = .error c) :
    c = .queueOverflow := by
  unfold islandSelect at e
  split_ifs at e
  split at e
  · cases e
  · split at e
    · cases e
    · rename_i hp
      exact Except.error.inj e ▸ pushPairFree_error hp

theorem buildLine_error {s : State} {c : FaultCode} (e : buildLine s = .error c) : c = .queueOverflow := by
  unfold buildLine at e
  split at e
  · rename_i hv
    exact Except.error.inj e ▸ videoSelect_error hv
  · split at e
    · rename_i hi
      exact Except.error.inj e ▸ islandSelect_error hi
    · cases e

/-- The one fault of a TICK is a push on a full FIFO (R28). -/
theorem tickSteps_error {s : State} {c : FaultCode} (e : tickSteps s = .error c) : c = .queueOverflow := by
  unfold tickSteps at e
  split at e
  · exact buildLine_error e
  · rename_i hr
    exact Except.error.inj e ▸ releaseStep_error hr

/-- A TICK that ends in HALTED has raised the overflow on the state before it (R264). -/
theorem execTick_halts {s t : State} (hl : s.lifecycle ≠ .halted) (e : exec .tick s = .next t)
    (halted : t.lifecycle = .halted) : t = s.halt .queueOverflow := by
  rcases execTick_next e with ticked | ⟨c, raised, rfl⟩
  · obtain ⟨p, -, -, -, ht⟩ := tickSteps_frame ticked
    rw [ht] at halted
    exact absurd halted hl
  · rw [tickSteps_error raised]

/-- Settles O10: the writes of `halt`, the release of each port that holds a command, and the result on the raising port. -/
theorem raiseHaltsTheEngine : Obligations.RaiseHaltsTheEngine := by
  refine ⟨fun s c => ⟨s.raise_eq c, s.raise_port_self c, fun p other free => ?_, fun p other held => ?_⟩,
    fun s t hl e halted => ?_, rfl, rfl, rfl, rfl, rfl, rfl, rfl, rfl, rfl, rfl⟩
  · rw [s.raise_port_other c other, Port.release_of_free free]
  · rw [s.raise_port_other c other, Port.release_of_held held]
    rfl
  · rw [execTick_halts hl e halted]
    refine ⟨rfl, fun p free => ?_, fun p held => ?_⟩
    · rw [State.halt_port, Port.release_of_free free]
    · rw [State.halt_port, Port.release_of_held held]
      rfl

end Sys2Proof.Machine

/-! PROOFS. The family 70_reset_and_hazards.md: power-on reset as the one way out of HALTED, and the lines of an ENGINE
with audio disabled. -/

namespace Sys2Proof.Machine

/-! ## A step always has a next state (R69) -/

theorem exec_next (i : Instr) (s : State) : ∃ t, exec i s = .next t := by
  cases i <;> exact ⟨_, rfl⟩

theorem runCommand_next (p : PortId) (c : Command) (s : State) : ∃ t, runCommand p c s = .next t := by
  cases hd : decode (.port p) c.word with
  | ok i => exact runCommand_of_decode_ok s hd ▸ exec_next i (s.latch p c)
  | error r => exact runCommand_of_decode_error s hd ▸ ⟨_, rejectWord_eq _⟩

theorem portStep_next (p : PortId) (s : State) : ∃ t, portStep p s = .next t := by
  cases hh : (s.port p).held with
  | some c => exact portStep_of_held hh ▸ runCommand_next p c s
  | none =>
    cases hi : s.issued p with
    | nil => exact ⟨s, portStep_of_idle hh hi⟩
    | cons c rest => exact portStep_of_issued hh hi ▸ runCommand_next p c (s.setIssued p rest)

theorem lanesStep_next (s : State) : ∃ t, lanesStep s = .next t := by
  unfold lanesStep
  split
  · exact exec_next .tick s
  · exact ⟨s, rfl⟩

theorem step_next (s : State) : ∃ t, step s = .next t := by
  unfold step
  cases s.turn with
  | control => exact portStep_next .control s.takeTurn
  | producer => exact portStep_next .producer s.takeTurn
  | source => exact portStep_next .source s.takeTurn
  | lanes => exact lanesStep_next s.takeTurn
  | powerOn => exact ⟨_, rfl⟩

/-! ## Power-on reset and HALTED (R290, R291) -/

theorem step_of_powerOn_turn {s : State} (h : s.turn = .powerOn) : step s = .next s.takeTurn.powerOn := by
  rw [step, h, turnStep]

/-- Of what stands outside the ENGINE power-on reset writes the allocation draws only (R9; log entries 5, 17). -/
theorem State.powerOn_eq (s : State) : ∃ draws n,
    s.powerOn = { State.resetWith s.params with env := { s.env with allocDraws := draws, drawNo := n } } := by
  unfold State.powerOn
  split
  · exact ⟨s.env.allocDraws.tail, s.env.drawNo + 1, rfl⟩
  · exact ⟨s.env.allocDraws, s.env.drawNo, rfl⟩

/-- The ENGINE is HALTED with this fault code. -/
def HaltedWith (f : BitVec 8) (s : State) : Prop :=
  s.lifecycle = .halted ∧ s.fault = f

theorem HaltedWith.not_ticking {f : BitVec 8} {s : State} (h : HaltedWith f s) : ¬ s.ticking = true := by
  intro ticking
  obtain ⟨halted, -⟩ := h
  rw [ticking_started ticking] at halted
  cases halted

/-- No command has an effect on a HALTED ENGINE, none raises a second fault, and TICK is not admitted (R265, R109). -/
theorem kept_haltedWith (f : BitVec 8) : Kept (HaltedWith f) where
  turn _ h := h
  issued s p cs h := by rwa [HaltedWith, State.setIssued_lifecycle, State.setIssued_fault]
  latch s p c h := by rwa [HaltedWith, State.latch_lifecycle, State.latch_fault]
  reply s st v h := by rwa [HaltedWith, State.reply_lifecycle, State.reply_fault]
  hold s h := by rwa [HaltedWith, State.hold_lifecycle, State.hold_fault]
  raise _ _ h hl := absurd h.1 hl
  effect _ _ _ h effect := effect.of_halted h.1 ▸ h
  tick _ _ h ht := absurd ht h.not_ticking
  halt _ _ h ht := absurd ht h.not_ticking

/-- Settles O9: power-on reset in closed form; every other part of a step keeps HALTED and its code. -/
theorem onlyPowerOnLeavesHalted : Obligations.OnlyPowerOnLeavesHalted := by
  refine fun s => ⟨fun reset => ?_, fun noReset halted => ?_⟩
  · obtain ⟨draws, n, h⟩ := s.takeTurn.powerOn_eq
    exact ⟨draws, n, by rw [step_of_powerOn_turn reset, h]; rfl⟩
  · obtain ⟨t, e⟩ := step_next s
    exact ⟨t, e, (kept_haltedWith s.fault).step ⟨halted, rfl⟩ (fun reset => absurd reset noReset) e⟩

/-! ## Audio disabled (R300, R172) -/

/-- Settles O34: with the gate off the island stage of the TICK chooses the null stream, and the install moves no pair. -/
theorem disabledAudioEmitsOnlyNull : Obligations.DisabledAudioEmitsOnlyNull := by
  intro s t off e hl
  obtain ⟨x, u, p, selected, installed, hp, ⟨-, phase, -⟩, -, -, pvalidq, pfreeq⟩ :=
    tickSteps_stages (tickSteps_of_exec e hl)
  obtain ⟨gateOff, -⟩ := islandSelect_rule selected
  obtain ⟨island, valid, free⟩ := gateOff off
  have moved : t.pvalidq = u.pvalidq ∧ t.pfreeq = u.pfreeq := by
    rw [installed, install_eq]
    exact ⟨rfl, rfl⟩
  obtain ⟨tvalid, tfree⟩ := moved
  exact ⟨tvalid.trans (valid.trans pvalidq), tfree.trans (free.trans pfreeq), p, hp, phase ▸ island⟩

end Sys2Proof.Machine
